-- ==== Sys2Proof/Word.lean ====
section
/-! DEFINITION. The widths of the block's values (R7, R10): all quantities are unsigned. -/

namespace Sys2Proof

/-- One payload element, `DATA_W = 8` (R7). -/
abbrev Byte := BitVec 8

/-- A slave address, `ADDR_W = 7` (R7). -/
abbrev Addr := BitVec 7

/-- A payload length or index, `LEN_MAX = 65535` (R7). -/
abbrev Len := BitVec 16

/-- A one-bit value: `true` is 1, `false` is 0 (R10). A line level, an acknowledge bit, a latch. -/
abbrev Bit := Bool

end Sys2Proof
end

