-- ==== Sys2Proof/Config.lean ====
section
/-! DEFINITION. What an implementation fixes (R7) and the free values of the model.
The opaque constants have no body: nothing in Lean can evaluate them, so what is proved holds for
every value of them. -/

namespace Sys2Proof

/-- `SPEED_W`, the width of INIT's operand: "OPEN", a parameter (R7, U4, D17). Entry 1. -/
opaque Config.speedW : Nat

/-- Free value: what SPEED holds after INIT with an operand of more than `SPEED_W` bits, for which the
spec states no value ("any value as an input", U4). Entry 31. -/
opaque Config.wideSpeed : Nat → BitVec Config.speedW

/-- Free value: the environment's contribution to SDA at the `n`-th sample the engine takes, where
State lists no answer for it (R59, U25: "any value"). Entry 6. -/
opaque Config.envBit : Nat → Bit

/-- Free values: how far each open duration of R7 exceeds its lower bound, in nanoseconds. Entry 18. -/
opaque Config.quarterExtra : Nat
opaque Config.padExtra : Nat
opaque Config.recoveryExtra : Nat
opaque Config.settleExtra : Nat

/-- `T_Q`: "a positive duration" (R7, U5). -/
def Config.tQ : Nat := 1 + Config.quarterExtra

/-- `T_PAD`: "a non-negative duration" (R7, U6). -/
def Config.tPad : Nat := Config.padExtra

/-- `T_RECOVERY`: at least 1 ms (R7, R118). -/
def Config.tRecovery : Nat := 1000000 + Config.recoveryExtra

/-- `T_SETTLE`: at least 500 µs (R7, R118). -/
def Config.tSettle : Nat := 500000 + Config.settleExtra

end Sys2Proof
end

