-- ==== Sys2Proof/Syntax.lean ====
section
/-! DEFINITION. The operations of the block at its three levels, with the wire formats and the status
codes: one constructor per row of spec/opcode_table.json (R8, R80). -/

namespace Sys2Proof

/-- A command's operands are the host's unbounded integers, as in the call syntax of R95; whether
an address or a length fits its port is a check of its own (D12, `Instr.wellFormed`). The operands of bus sequences
and pin primitives are registers (R91), so those constructors have none. -/
inductive Instr where
  /-- INIT, `init(speed)` (R160). -/
  | init (speed : Nat)
  /-- WRITE, `write(addr, buf, len) -> status` (R161). -/
  | write (addr txLen : Nat)
  /-- READ, `read(addr, buf, len) -> status` (R162). -/
  | read (addr rxLen : Nat)
  /-- WRITE_READ, `write_read(addr, tx, tx_len, rx, rx_len) -> status` (R163). -/
  | writeRead (addr txLen rxLen : Nat)
  /-- START (R130). -/
  | start
  /-- STOP (R131). -/
  | stop
  /-- TXBYTE, operand SHIFT, result ACKBIT (R142, R91). -/
  | txbyte
  /-- RXBYTE, operand SEND_ACK, result SHIFT (R146, R91). -/
  | rxbyte
  /-- SDA_LOW (R110). -/
  | sdaLow
  /-- SDA_RELEASE (R112). -/
  | sdaRelease
  /-- SCL_LOW (R111). -/
  | sclLow
  /-- SCL_RELEASE (R113). -/
  | sclRelease
  /-- SDA_SAMPLE (R114). -/
  | sdaSample
  /-- DELAY of one quarter-bit unit (R115). -/
  | delayQuarter
  /-- DELAY of half a bit (R116). -/
  | delayHalf
  /-- DELAY of the bus-recovery interval (R118). -/
  | delayRecovery
  /-- DELAY of the settling interval (R118). -/
  | delaySettle
  /-- LATCH_CLEAR (R119). -/
  | latchClear
  /-- ADDR_WRITE, the address byte with `RW = 0` (R85). -/
  | addrWrite (addr : Addr)
  /-- ADDR_READ, the address byte with `RW = 1` (R85). -/
  | addrRead (addr : Addr)
  /-- DATA_BYTE, a payload byte (R88). -/
  | dataByte (data : Byte)
  /-- ACK, the acknowledge bit 0 (R88). -/
  | ack
  /-- NACK, the acknowledge bit 1 (R88). -/
  | nack
  /-- The status tag `Ok` (R84). -/
  | statusOk
  /-- The status tag `Error`, never produced (R84, R194). -/
  | statusError
  /-- The status tag `Timeout`, never produced (R84, R193). -/
  | statusTimeout
  /-- The status tag `Nack` (R84). -/
  | statusNack
  deriving DecidableEq, Repr

end Sys2Proof
end

