-- ==== Sys2Proof/WellFormed.lean ====
section
/-! DEFINITION. The operand ranges: an address has 7 bits (R62, D12), a length 16 (R51); of INIT's
operand "every value is legal" (R93). -/

namespace Sys2Proof

/-- "unsigned 7-bit integer, range 0–0x7F" (R32, D12). -/
def addrFits (a : Nat) : Bool := decide (a < 128)

/-- "length 0 … 65535" (R51). -/
def lenFits (n : Nat) : Bool := decide (n < 65536)

/-- Every operand is in its range. -/
def Instr.wellFormed : Instr → Bool
  | .init _ => true
  | .write addr txLen => addrFits addr && lenFits txLen
  | .read addr rxLen => addrFits addr && lenFits rxLen
  | .writeRead addr txLen rxLen => addrFits addr && (lenFits txLen && lenFits rxLen)
  | .start => true
  | .stop => true
  | .txbyte => true
  | .rxbyte => true
  | .sdaLow => true
  | .sdaRelease => true
  | .sclLow => true
  | .sclRelease => true
  | .sdaSample => true
  | .delayQuarter => true
  | .delayHalf => true
  | .delayRecovery => true
  | .delaySettle => true
  | .latchClear => true
  | .addrWrite _ => true
  | .addrRead _ => true
  | .dataByte _ => true
  | .ack => true
  | .nack => true
  | .statusOk => true
  | .statusError => true
  | .statusTimeout => true
  | .statusNack => true

end Sys2Proof
end

