-- ==== Sys2Proof/Decode.lean ====
section
/-! DEFINITION. The decoder, total on every word of every port and rejecting by name, and after it the
encoder. The codes are those of R82, R84, R85, R88, R91 and R92; which port a word is on tells its
format (R80), since the formats reuse the same small codes. -/

namespace Sys2Proof

/-- The ports a word can stand on, by format (R80). The three `WIRE` formats are told apart by the
position in the byte group and in the frame (R88, R90). -/
inductive Format where
  /-- Format `CMD`: the host's command port (R81). -/
  | cmd
  /-- Format `SEQ`: a bus-sequence selector (R91). -/
  | seq
  /-- Format `PIN`: a pin-primitive selector with `dly_kind` (R92). -/
  | pin
  /-- Format `WIRE`: the first byte of a frame (R85). -/
  | wireAddr
  /-- Format `WIRE`: a later byte of a frame (R88). -/
  | wireData
  /-- Format `WIRE`: slot 9 of a byte group (R88). -/
  | wireAck
  /-- A status code (R84). -/
  | status
  deriving DecidableEq, Repr

/-- The bits a word of the format has. A command is the five fields of R81's command port side by
side: 3 + 7 + 16 + 16 + SPEED_W, and a host's `speed` may be wider still (R93, entry 31). DESIGN
CHOICE, entry 13. -/
def Format.width : Format → Nat
  | .cmd => 42 + Config.speedW
  | .seq => 2
  | .pin => 6
  | .wireAddr => 8
  | .wireData => 8
  | .wireAck => 1
  | .status => 2

/-- A word on a port, as a number: bit 0 is its least significant bit. A number and no bit vector, since
the width of a command is a parameter. -/
structure PortWord where
  format : Format
  bits   : Nat
  deriving DecidableEq, Repr

/-- Why a word is no instruction. -/
inductive DecodeError where
  /-- `cmd_op` 4 to 7: "no operation. The model refuses them" (R93, D30). -/
  | reservedOperation (op : BitVec 3)
  /-- `PIN` code `0b111`, "reserved" (R92). -/
  | reservedPinCode
  /-- `dly_kind` 5 to 7, "reserved and never issued" (R92). -/
  | reservedDelayKind (kind : BitVec 3)
  /-- `dly_kind` 2, pad settling: "inside `SMP`, not a trace event of its own" (R92), so no operation of
  the table; the port waits and goes on (`runCall`). Entry 26. -/
  | padSettlingAlone
  /-- More bits than the port has, on any port but the command port: no value of that port. Entry 12. -/
  | widerThanPort (format : Format)
  deriving DecidableEq, Repr

/-- The fields of a command word (R81), `cmd_op` lowest; `cmd_speed` is all that stands above the
others. Entry 13. -/
def PortWord.cmdOp (w : PortWord) : BitVec 3 := BitVec.ofNat 3 w.bits
def PortWord.cmdAddr (w : PortWord) : Addr := BitVec.ofNat 7 (w.bits >>> 3)
def PortWord.cmdTxLen (w : PortWord) : Len := BitVec.ofNat 16 (w.bits >>> 10)
def PortWord.cmdRxLen (w : PortWord) : Len := BitVec.ofNat 16 (w.bits >>> 26)
def PortWord.cmdSpeed (w : PortWord) : Nat := w.bits >>> 42

/-- The fields of a pin word (R92): the 3-bit code, and `dly_kind` above it. Entry 13. -/
def PortWord.pinCode (w : PortWord) : BitVec 3 := BitVec.ofNat 3 w.bits
def PortWord.dlyKind (w : PortWord) : BitVec 3 := BitVec.ofNat 3 (w.bits >>> 3)

/-- The word has no more bits than its port. A command always fits: what stands above its other fields
is `cmd_speed`, of which every value is legal (R93). -/
def PortWord.fits (w : PortWord) : Bool :=
  match w.format with
  | .cmd => true
  | f => decide (w.bits < 2 ^ f.width)

/-- R82 and R83: an operand the command does not use may hold anything. -/
def decodeCmd (w : PortWord) : Except DecodeError Instr :=
  match w.cmdOp.toNat with
  | 0 => .ok (.init w.cmdSpeed)
  | 1 => .ok (.write w.cmdAddr.toNat w.cmdTxLen.toNat)
  | 2 => .ok (.read w.cmdAddr.toNat w.cmdRxLen.toNat)
  | 3 => .ok (.writeRead w.cmdAddr.toNat w.cmdTxLen.toNat w.cmdRxLen.toNat)
  | _ => .error (.reservedOperation w.cmdOp)

/-- R91: "All four values are used; none is reserved." -/
def decodeSeq (w : PortWord) : Except DecodeError Instr :=
  match w.bits with
  | 0 => .ok .start
  | 1 => .ok .stop
  | 2 => .ok .txbyte
  | _ => .ok .rxbyte

/-- The kinds of DELAY (R92). -/
def decodeDelay (kind : BitVec 3) : Except DecodeError Instr :=
  match kind.toNat with
  | 0 => .ok .delayQuarter
  | 1 => .ok .delayHalf
  | 2 => .error .padSettlingAlone
  | 3 => .ok .delayRecovery
  | 4 => .ok .delaySettle
  | _ => .error (.reservedDelayKind kind)

/-- R92. Only DELAY carries a kind. -/
def decodePin (w : PortWord) : Except DecodeError Instr :=
  match w.pinCode.toNat with
  | 0 => .ok .sdaLow
  | 1 => .ok .sdaRelease
  | 2 => .ok .sclLow
  | 3 => .ok .sclRelease
  | 4 => .ok .sdaSample
  | 5 => decodeDelay w.dlyKind
  | 6 => .ok .latchClear
  | _ => .error .reservedPinCode

/-- R85: bits 7 to 1 are the address, bit 0 is RW. -/
def decodeWireAddr (w : PortWord) : Except DecodeError Instr :=
  if w.bits.testBit 0 then .ok (.addrRead (BitVec.ofNat 7 (w.bits >>> 1)))
  else .ok (.addrWrite (BitVec.ofNat 7 (w.bits >>> 1)))

/-- R88: ACK is the bit value 0, NACK the value 1. -/
def decodeWireAck (w : PortWord) : Except DecodeError Instr :=
  if w.bits.testBit 0 then .ok .nack else .ok .ack

/-- R84. -/
def decodeStatus (w : PortWord) : Except DecodeError Instr :=
  match w.bits with
  | 0 => .ok .statusOk
  | 1 => .ok .statusError
  | 2 => .ok .statusTimeout
  | _ => .ok .statusNack

/-- The instruction on a port, or why there is none. -/
def decode (w : PortWord) : Except DecodeError Instr :=
  if w.fits then
    match w.format with
    | .cmd => decodeCmd w
    | .seq => decodeSeq w
    | .pin => decodePin w
    | .wireAddr => decodeWireAddr w
    | .wireData => .ok (.dataByte (BitVec.ofNat 8 w.bits))
    | .wireAck => decodeWireAck w
    | .status => decodeStatus w
  else .error (.widerThanPort w.format)

/-- A command's five fields side by side, `cmd_op` lowest (R81). Entry 13. -/
def cmdWord (op : BitVec 3) (addr : Addr) (txLen rxLen : Len) (speed : Nat) : PortWord :=
  ⟨.cmd, op.toNat + 2 ^ 3 * (addr.toNat + 2 ^ 7 * (txLen.toNat + 2 ^ 16 * (rxLen.toNat + 2 ^ 16 * speed)))⟩

/-- `dly_kind` above the pin code (R92). Entry 13. -/
def pinWord (code kind : BitVec 3) : PortWord := ⟨.pin, code.toNat + 2 ^ 3 * kind.toNat⟩

/-- The word of a well-formed instruction; operands a command does not use are 0 (R83). -/
def encode : Instr → PortWord
  | .init speed => cmdWord 0b000#3 0 0 0 speed
  | .write addr txLen => cmdWord 0b001#3 (BitVec.ofNat 7 addr) (BitVec.ofNat 16 txLen) 0 0
  | .read addr rxLen => cmdWord 0b010#3 (BitVec.ofNat 7 addr) 0 (BitVec.ofNat 16 rxLen) 0
  | .writeRead addr txLen rxLen =>
    cmdWord 0b011#3 (BitVec.ofNat 7 addr) (BitVec.ofNat 16 txLen) (BitVec.ofNat 16 rxLen) 0
  | .start => ⟨.seq, 0b00⟩
  | .stop => ⟨.seq, 0b01⟩
  | .txbyte => ⟨.seq, 0b10⟩
  | .rxbyte => ⟨.seq, 0b11⟩
  | .sdaLow => pinWord 0b000#3 0
  | .sdaRelease => pinWord 0b001#3 0
  | .sclLow => pinWord 0b010#3 0
  | .sclRelease => pinWord 0b011#3 0
  | .sdaSample => pinWord 0b100#3 0
  | .delayQuarter => pinWord 0b101#3 0
  | .delayHalf => pinWord 0b101#3 1
  | .delayRecovery => pinWord 0b101#3 3
  | .delaySettle => pinWord 0b101#3 4
  | .latchClear => pinWord 0b110#3 0
  | .addrWrite addr => ⟨.wireAddr, 2 * addr.toNat⟩
  | .addrRead addr => ⟨.wireAddr, 2 * addr.toNat + 1⟩
  | .dataByte data => ⟨.wireData, data.toNat⟩
  | .ack => ⟨.wireAck, 0⟩
  | .nack => ⟨.wireAck, 1⟩
  | .statusOk => ⟨.status, 0b00⟩
  | .statusError => ⟨.status, 0b01⟩
  | .statusTimeout => ⟨.status, 0b10⟩
  | .statusNack => ⟨.status, 0b11⟩

/-- The formats in the order of spec/opcode_table.json. -/
def tableFormats : List Format := [.cmd, .seq, .pin, .wireAddr, .wireData, .wireAck, .status]

/-- `decode` with the reason forgotten. -/
def decodes (w : PortWord) : Option Instr :=
  match decode w with
  | .ok i => some i
  | .error _ => none

/-- The first port, in the table's order, on which the bits `w` are an instruction. The table's rows
of different formats have the same bits, and only the port tells them apart. Entry 14. -/
def tableWord (nbits w : Nat) : Option PortWord :=
  if w < 2 ^ nbits then (tableFormats.map fun f => PortWord.mk f w).find? fun p => (decodes p).isSome
  else none

/-- The instruction of a table word: see `tableWord`. -/
def decodeTableWord (nbits w : Nat) : Option Instr := (tableWord nbits w).bind decodes

end Sys2Proof
end

