-- ==== Sys2Proof/Machine/State.lean ====
section
/-! DEFINITION. The state of the block, its host and its environment as plain data (R20 to R38, R50 to
R53, R59, R203), the reasons a step can stop, and the state after reset (R38). -/

namespace Sys2Proof.Machine

/-- The two states of a pin driver (R20, R109). -/
inductive Drv where
  /-- "the pin pulls its line to logic 0" -/
  | drivenLow
  /-- "the pin is high-impedance" -/
  | released
  deriving DecidableEq, Repr

/-- The status tags (R84). -/
inductive Status where
  | ok
  | error
  | timeout
  | nack
  deriving DecidableEq, Repr

/-- The alphabet of the L0 trace (R12). -/
inductive Event where
  | sda0
  | sda1
  | scl0
  | scl1
  | smp (b : Bit)
  | d1
  | d2
  | dr
  | ds
  | lc
  deriving DecidableEq, Repr

/-- A strobe of a buffer port (R81): `MemRead(TX, i, 1)` and `MemWrite(RX, i, 1, v)`. -/
inductive BufOp where
  | fetch (i : Len)
  | store (i : Len) (v : Byte)
  deriving DecidableEq, Repr

/-- `PHASE` of R33. -/
inductive Phase where
  | idle
  | init
  | start
  | addr
  | txdata
  | rxdata
  | stopOk
  | stopNack
  | settle
  deriving DecidableEq, Repr

/-- The event list that `STEP` indexes, R33's "current sub-sequence". DESIGN CHOICE, entry 9. -/
inductive Sub where
  | idle
  | init
  | start
  | stop
  | settle
  | txbit
  | txack
  | rxPrologue
  | rxbit
  | rxack
  deriving DecidableEq, Repr

/-- `SEQ`, the program counter (R33): with `IDX` and `BITCNT` it says which pin primitive is next. -/
structure Seq where
  phase  : Phase
  sub    : Sub
  step   : Nat
  second : Bool
  deriving DecidableEq, Repr

/-- `SEQ` between commands (R38). -/
def Seq.idle : Seq := ⟨.idle, .idle, 0, false⟩

/-- A payload buffer of the host (R51): how many bytes it has room for, and the bytes that hold a
value, by rising index. -/
structure Buffer where
  size  : Nat
  cells : List Host.Cell
  deriving DecidableEq, Repr

/-- What the host does to the block, in order (R203, R95, R220). Entry 8. -/
inductive Input where
  /-- An operation called: it runs to its end before the host goes on (R95, "the engine blocks"). -/
  | call (w : PortWord)
  /-- A command presented on the command port with `cmd_valid` (R164): it is accepted, and then the
  engine takes one pin primitive per step (R9). -/
  | strobe (bits : Nat)
  /-- The host fills its transmit buffer with these bytes, from index 0 (R203). -/
  | loadTx (bytes : List Byte)
  /-- The host provides a receive buffer of this size, no byte of it with a value (R203, U29). -/
  | giveRx (size : Nat)
  /-- The host lets one step pass, so that its next move, `rst_n` above all, can come at any point of a
  running command (R221: reset is asynchronous). -/
  | wait
  /-- `rst_n` is asserted (R220). -/
  | assertReset
  deriving DecidableEq, Repr

/-- Everything the spec gives the machine (INVENTORY.md, State). -/
structure State where
  /-- `SDA_DRV` (R20) -/
  sdaDrv : Drv
  /-- `SCL_DRV` (R20) -/
  sclDrv : Drv
  /-- `SDA_LATCH` (R24) -/
  sdaLatch : Bit
  /-- `SCL_LATCH` (R24) -/
  sclLatch : Bit
  /-- `SHIFT` (R25) -/
  shift : Byte
  /-- `BITCNT` (R26) -/
  bitcnt : BitVec 4
  /-- `IDX` (R27) -/
  idx : Len
  /-- `ACKBIT` (R29) -/
  ackbit : Bit
  /-- `SEND_ACK` (R30) -/
  sendAck : Bit
  /-- `OP` (R32) -/
  op : BitVec 3
  /-- `ADDR` (R32) -/
  addr : Addr
  /-- `TX_LEN` (R32) -/
  txLen : Len
  /-- `RX_LEN` (R32) -/
  rxLen : Len
  /-- `SPEED` (R32) -/
  speed : BitVec Config.speedW
  /-- `STATUS` (R32) -/
  status : Status
  /-- whether `STATUS` is valid (R32, D26) -/
  statusValid : Bool
  /-- `BUSY` (R32) -/
  busy : Bool
  /-- `INITIALISED` (R32) -/
  initialised : Bool
  /-- `SEQ` (R33) -/
  seq : Seq
  /-- the `done` pulse (R81, R164), 1 from the step that ends a command to the next -/
  done : Bool
  /-- the bit the last SDA_SAMPLE returned (R114); the model's own, entry 17 -/
  sample : Bit
  /-- the host's transmit buffer (R51) -/
  tx : Buffer
  /-- the host's receive buffer (R51) -/
  rx : Buffer
  /-- the environment's coming answers, next first (R59); entry 6 -/
  answers : List Bit
  /-- how many samples have been taken; names the free answers; the model's own, entry 6 -/
  samples : Nat
  /-- the L0 trace, oldest first (R11, R12); an observation, entry 7 -/
  trace : List Event
  /-- the strobes of the buffer ports, oldest first (R52, R53); an observation, entry 7 -/
  bufOps : List BufOp
  /-- the host's coming moves, next first (R203); entry 8 -/
  inbox : List Input
  deriving DecidableEq, Repr

/-- Where the model stops because the state is one the rules never reach. -/
inductive Fault where
  /-- Raised by the sequencer (`tick`) at a `(PHASE, STEP)` no event list has (R33). Safe: no legal
  state is there. -/
  | noSuchPosition
  /-- Raised by the sequencer when the TX byte it is to fetch has no value (R52). Safe: acceptance
  refuses such a command (D13). -/
  | txByteMissing
  /-- Raised by the sequencer when the RX index lies outside the buffer (R53). Safe: acceptance
  refuses such a command (D13). -/
  | rxIndexOutside
  deriving DecidableEq, Repr

/-- Where the spec gives an input no step. -/
inductive Refusal where
  /-- An instruction without a meaning: raised by no arm of this model. -/
  | notModelled (mnemonic : String)
  /-- Raised by the port for a word that is no instruction: a reserved code (R93, D30: "refused"; R92) or
  a number that is no value of its port (entry 12). Safe. -/
  | undecodable (e : DecodeError)
  /-- Raised by every command with an address above 0x7F: "refused at the boundary" (R62, D12). Safe. -/
  | addressTooWide
  /-- Raised by every transfer with a length above 65535 (R51). Safe. -/
  | lengthTooWide
  /-- Raised by every command while `BUSY = 1`: "not accepted" (R164, D11). Safe. -/
  | engineBusy
  /-- Raised by every transfer while `INITIALISED = 0` (R164, D10). Safe. -/
  | notInitialised
  /-- Raised by WRITE and WRITE_READ where the TX buffer holds fewer than `TX_LEN` bytes (D13). Safe. -/
  | txBufferShort
  /-- Raised by READ and WRITE_READ where the RX buffer is shorter than `RX_LEN` (D13). Safe. -/
  | rxBufferShort
  /-- Raised by STATUS_ERROR and STATUS_TIMEOUT: "never produced" (R193, R194, U1, U2). Safe. -/
  | statusNeverProduced
  deriving DecidableEq, Repr

/-- R38. The drivers, `INITIALISED`, `BUSY` and `SEQ` are the spec's; every other value is the model's,
entries 2 to 7 and 23. -/
def State.reset : State where
  sdaDrv := .released
  sclDrv := .released
  sdaLatch := true
  sclLatch := true
  shift := 0
  bitcnt := 0
  idx := 0
  ackbit := false
  sendAck := false
  op := 0
  addr := 0
  txLen := 0
  rxLen := 0
  speed := 0
  status := .ok
  statusValid := false
  busy := false
  initialised := false
  seq := Seq.idle
  done := false
  sample := false
  tx := ⟨0, []⟩
  rx := ⟨0, []⟩
  answers := []
  samples := 0
  trace := []
  bufOps := []
  inbox := []

end Sys2Proof.Machine
end

