-- ==== Sys2Proof/Machine/Operands.lean ====
section
/-! DEFINITION. Operand assembly and the block's arithmetic (R85, R87, R59, R170), and how the
environment's answers are read (R59). -/

namespace Sys2Proof.Machine

/-- What SPEED latches of INIT's operand (R83, R160): the operand where it has `SPEED_W` bits, else a free
value, since the spec states none. DESIGN CHOICE, entry 31. -/
def latchedSpeed (v : Nat) : BitVec Config.speedW :=
  if v < 2 ^ Config.speedW then BitVec.ofNat _ v else Config.wideSpeed v

/-- `ADDRBYTE = {ADDR[6:0], RW}` (R85); `rw` is the direction bit, 1 for a read. -/
def addrByte (addr : Addr) (rw : Bit) : Byte := addr.concat rw

/-- "bit value 0 is `SDA_DRV = DrivenLow`, bit value 1 is `SDA_DRV = Released`" (R87). -/
def driverOf : Bit → Drv
  | false => .drivenLow
  | true => .released

/-- The master's own contribution to a line (R88): "1 if `SDA_DRV = Released`, 0 if `DrivenLow`". -/
def contributionOf : Drv → Bit
  | .drivenLow => false
  | .released => true

/-- The wired-AND of the engine's driver and every other device's contribution (R59). -/
def lineLevel (drv : Drv) (others : Bit) : Bit := contributionOf drv && others

/-- `{SHIFT[6:0], b}` (R144, R170 b). -/
def shiftInBit (sh : Byte) (b : Bit) : Byte := (sh.extractLsb' 0 7).concat b

/-- `SHIFT << 1` in 8 bits (R142, R170 c). -/
def shiftOutBit (sh : Byte) : Byte := sh <<< 1

/-- `SHIFT[7]`, the bit TXBIT sends (R142). -/
def topBit (sh : Byte) : Bit := sh.getLsbD 7

/-- The `k`-th answer still to come (R59): the one State lists, else a free value. Entry 6. -/
def State.upcoming (s : State) (k : Nat) : Bit := (s.answers[k]?).getD (Config.envBit (s.samples + k))

/-- One oracle answer is used up: "one oracle draw per `SMP`, never cached" (U25). -/
def State.consumeAnswer (s : State) : State :=
  { s with answers := s.answers.tail, samples := s.samples + 1 }

end Sys2Proof.Machine
end

