-- ==== Sys2Proof/Machine/Flags.lean ====
section
/-! DEFINITION. The two flags, ACKBIT and SEND_ACK (R29, R30); there is no other (R31). -/

namespace Sys2Proof.Machine

/-- `SEND_ACK = 1 if i < len − 1 else 0`, unsigned, asked only with `len >= 1` (R86, R170 e). -/
def sendAckFor (i len : Len) : Bit := BitVec.ult i (len - 1)

/-- READ writes SEND_ACK before each RXBYTE (R30, R162). -/
def State.setSendAck (s : State) : State := { s with sendAck := sendAckFor s.idx s.rxLen }

/-- TXACK writes the sampled bit to ACKBIT (R29, R141). -/
def State.captureAck (s : State) : State := { s with ackbit := s.sample }

end Sys2Proof.Machine
end

