-- ==== Sys2Proof/Machine/Ops.lean ====
section
/-! DEFINITION. The named operations: buffers (R50 to R53), the trace (R11), the pin primitives (R110 to
R119), the bus conditions (R130, R131), the end of a command (R164) and the NACK abort (R197), which is
the block's one exception; it has no return operation (R198). -/

namespace Sys2Proof.Machine

/-! ### Memory -/

/-- What an unlisted index reads as: no value (U29, entry 11). -/
def Memory.unlisted : Option Byte := none

/-- The byte at an index. -/
def Memory.read : List Host.Cell → Nat → Option Byte
  | [], _ => Memory.unlisted
  | (a, v) :: m, i => if a = i then some v else Memory.read m i

/-- The byte at an index becomes `v`; the indexes stay strictly rising. -/
def Memory.write : List Host.Cell → Nat → Byte → List Host.Cell
  | [], i, v => [(i, v)]
  | (a, w) :: m, i, v =>
    if i < a then (i, v) :: (a, w) :: m
    else if i = a then (i, v) :: m
    else (a, w) :: Memory.write m i v

/-- Every index of the list is above `lo`, and they rise strictly. -/
def Memory.risingFrom : Nat → List Host.Cell → Bool
  | _, [] => true
  | lo, (a, _) :: m => decide (lo ≤ a) && Memory.risingFrom (a + 1) m

/-- The canonical form: strictly rising indexes. No cell can equal what an unlisted index reads as,
since that is no value. -/
def Memory.wf (m : List Host.Cell) : Bool := Memory.risingFrom 0 m

/-- `MemRead(TX, i, 1)` (R52). -/
def Buffer.read (b : Buffer) (i : Nat) : Option Byte := Memory.read b.cells i

/-- `MemWrite(RX, i, 1, v)` (R53). -/
def Buffer.store (b : Buffer) (i : Nat) (v : Byte) : Buffer := { b with cells := Memory.write b.cells i v }

/-- The buffer's cells are in canonical form and inside its size. -/
def Buffer.wf (b : Buffer) : Bool := Memory.wf b.cells && b.cells.all fun c => decide (c.1 < b.size)

/-- Bytes 0 to `n − 1` all have a value (D13, R203: "`TX` filled for writes"). -/
def Buffer.holds (b : Buffer) (n : Nat) : Bool := (List.range n).all fun i => (b.read i).isSome

/-- Bytes 0 to `n − 1` in index order (R56). -/
def Buffer.bytes (b : Buffer) (n : Nat) : List Byte := (List.range n).filterMap b.read

/-- Cells for bytes at rising indexes from `i`. -/
def Buffer.cellsFrom (i : Nat) : List Byte → List Host.Cell
  | [] => []
  | v :: vs => (i, v) :: Buffer.cellsFrom (i + 1) vs

/-- A buffer filled with these bytes from index 0 (R203). -/
def Buffer.ofBytes (vs : List Byte) : Buffer := ⟨vs.length, Buffer.cellsFrom 0 vs⟩

/-! ### Observations -/

/-- `emit(e)` appends the event to the trace (R11). -/
def State.emit (e : Event) (s : State) : State := { s with trace := s.trace ++ [e] }

/-- A strobe of a buffer port (R81). -/
def State.strobeBuf (o : BufOp) (s : State) : State := { s with bufOps := s.bufOps ++ [o] }

/-! ### Pin primitives -/

/-- `SDA_LATCH <- 0; SDA_DRV <- DrivenLow` (R110). -/
def State.sdaLow (s : State) : State := State.emit .sda0 { s with sdaLatch := false, sdaDrv := .drivenLow }

/-- `SCL_LATCH <- 0; SCL_DRV <- DrivenLow` (R111). -/
def State.sclLow (s : State) : State := State.emit .scl0 { s with sclLatch := false, sclDrv := .drivenLow }

/-- `SDA_DRV <- Released`; the latch is not changed (R112). -/
def State.sdaRelease (s : State) : State := State.emit .sda1 { s with sdaDrv := .released }

/-- `SCL_DRV <- Released`; the engine does not wait for the line (R113). Entry 19. -/
def State.sclRelease (s : State) : State := State.emit .scl1 { s with sclDrv := .released }

/-- SDA is released first, then the line is read (R114). -/
def State.sdaSample (s : State) : State :=
  State.emit (.smp (lineLevel .released (s.upcoming 0)))
    { s.consumeAnswer with sdaDrv := .released, sample := lineLevel .released (s.upcoming 0) }

/-- DELAY of one quarter-bit unit: no state changes (R115). Entry 18. -/
def State.delayQuarter (s : State) : State := State.emit .d1 s

/-- DELAY of half a bit (R116). -/
def State.delayHalf (s : State) : State := State.emit .d2 s

/-- DELAY of the bus-recovery interval (R118). -/
def State.delayRecovery (s : State) : State := State.emit .dr s

/-- DELAY of the settling interval (R118). -/
def State.delaySettle (s : State) : State := State.emit .ds s

/-- `SDA_LATCH <- 0; SCL_LATCH <- 0` (R119). -/
def State.latchClear (s : State) : State := State.emit .lc { s with sdaLatch := false, sclLatch := false }

/-- "drive SDA to the bit value": the event is `SDA0` for 0 and `SDA1` for 1 (R87, R140, R145). -/
def State.sdaSet (b : Bit) (s : State) : State :=
  match b with
  | false => s.sdaLow
  | true => s.sdaRelease

/-! ### Bus conditions -/

/-- START: `SDA0 D1 SCL0` (R130). The entry condition is not checked. -/
def State.startCond (s : State) : State := s.sdaLow.delayQuarter.sclLow

/-- STOP: `SDA0 D1 SCL1 D1 SDA1` (R131, decision D5). Entry 20. Its entry condition is not checked,
DESIGN CHOICE, entry 30. -/
def State.stopCond (s : State) : State := s.sdaLow.delayQuarter.sclRelease.delayQuarter.sdaRelease

/-! ### The end of a command -/

/-- A transfer command ends: "`STATUS` is written, `BUSY <- 0`, `SEQ <- IDLE`, `done` pulses" (R164).
What the registers R37 lets lapse hold from here on, OP, ADDR, TX_LEN, RX_LEN and SPEED among them, is
the model's choice: they keep their value. DESIGN CHOICE, entry 22. -/
def State.endTransfer (st : Status) (s : State) : State :=
  { s with status := st, statusValid := true, busy := false, seq := Seq.idle, done := true }

/-- INIT ends: `INITIALISED <- 1`, and `STATUS` is not written (R160, R164). The latched operands keep
their value (entry 22). -/
def State.endInit (s : State) : State :=
  { s with initialised := true, busy := false, seq := Seq.idle, done := true }

/-- `raise Nack`: STOP, `STATUS <- Nack`, the command ends; nothing is saved (R197, R11). -/
def State.raiseNack (s : State) : State := s.stopCond.endTransfer .nack

/-- `call STOP; return Ok` (R161, R162). -/
def State.returnOk (s : State) : State := s.stopCond.endTransfer .ok

/-- `rst_n`: the reset state (R220), also while a command runs (R221). What is not the engine's stays:
the host's buffers and coming moves, the environment's answers. Entry 10. -/
def State.applyReset (rest : List Input) (s : State) : State :=
  { State.reset with tx := s.tx, rx := s.rx, answers := s.answers, samples := s.samples, inbox := rest }

end Sys2Proof.Machine
end

