-- ==== Sys2Proof/Machine/Bytes.lean ====
section
/-! DEFINITION. Byte transmission and byte reception (R140 to R148), and the operations of the SEQ
format (R91). -/

namespace Sys2Proof.Machine

/-- TXBIT(`b`): `SCL0`, SDA to the bit, `D1`, `SCL1`, `D1` (R140). -/
def State.txBit (b : Bit) (s : State) : State := (s.sclLow.sdaSet b).delayQuarter.sclRelease.delayQuarter

/-- `SHIFT <- SHIFT << 1`, and one bit less to do (R142). -/
def State.shiftOut (s : State) : State := { s with shift := shiftOutBit s.shift, bitcnt := s.bitcnt - 1 }

/-- `n` turns of TXBYTE's loop (R142). -/
def State.txBits : Nat → State → State
  | 0, s => s
  | n + 1, s => State.txBits n (s.txBit (topBit s.shift)).shiftOut

/-- TXACK: `SCL0 SDA1 D1 SCL1 D1 SMP(a) D1 SCL0`, `ACKBIT <- a` (R141). -/
def State.txAck (s : State) : State :=
  s.sclLow.sdaRelease.delayQuarter.sclRelease.delayQuarter.sdaSample.captureAck.delayQuarter.sclLow

/-- TXBYTE of the byte in SHIFT: eight TXBIT, then TXACK (R142). -/
def State.txByte (s : State) : State := (State.txBits 8 { s with bitcnt := 8 }).txAck

/-- `call TXBYTE(B)`: `SHIFT <- B` first (R142). -/
def State.sendByte (b : Byte) (s : State) : State := State.txByte { s with shift := b }

/-- `SHIFT <- {SHIFT[6:0], b}` (R144). -/
def State.shiftIn (s : State) : State := { s with shift := shiftInBit s.shift s.sample }

/-- RXBIT: `SCL0 D2 SCL1 D1 SMP(b) D1` (R144). -/
def State.rxBit (s : State) : State :=
  s.sclLow.delayHalf.sclRelease.delayQuarter.sdaSample.shiftIn.delayQuarter

/-- `n` turns of RXBYTE's loop (R146). -/
def State.rxBits : Nat → State → State
  | 0, s => s
  | n + 1, s => State.rxBits n { s.rxBit with bitcnt := s.bitcnt - 1 }

/-- RXACK: `SCL0`, SDA low to acknowledge, `D1 SCL1 D2 SCL0 SDA1` (R145). -/
def State.rxAck (sendAck : Bit) (s : State) : State :=
  (s.sclLow.sdaSet (!sendAck)).delayQuarter.sclRelease.delayHalf.sclLow.sdaRelease

/-- RXBYTE with SEND_ACK from its register: `SDA1`, `SHIFT <- 0`, eight RXBIT, RXACK (R146). -/
def State.rxByte (s : State) : State :=
  State.rxAck s.sendAck (State.rxBits 8 { s.sdaRelease with shift := 0, bitcnt := 8 })

/-- START (R130). -/
def execStart (s : State) : Host.Outcome State Fault Refusal := .next s.startCond

/-- STOP (R131). -/
def execStop (s : State) : Host.Outcome State Fault Refusal := .next s.stopCond

/-- TXBYTE, "operand: the byte in `SHIFT`; result: `ACKBIT`" (R142, R91). R142's entry condition is not
checked, and TXBYTE runs from every state: DESIGN CHOICE, entry 30. -/
def execTxbyte (s : State) : Host.Outcome State Fault Refusal := .next s.txByte

/-- RXBYTE, "operand: `SEND_ACK`; result: the byte in `SHIFT`" (R146, R91). R146's entry condition is not
checked, and RXBYTE runs from every state; entered with SCL released and SDA low, its first event raises
SDA while SCL is high: DESIGN CHOICE, entry 30. -/
def execRxbyte (s : State) : Host.Outcome State Fault Refusal := .next s.rxByte

end Sys2Proof.Machine
end

