-- ==== Sys2Proof/Machine/Commands.lean ====
section
/-! DEFINITION. The four commands (R160 to R163): acceptance (R164), and each command's body from
acceptance to its end. -/

namespace Sys2Proof.Machine

/-! ### Acceptance -/

/-- The sequencer leaves `IDLE` (R164): `BUSY <- 1`, the last status stops being valid (R32). -/
def State.beginCommand (op : BitVec 3) (first : Seq) (s : State) : State :=
  { s with op := op, busy := true, done := false, statusValid := false, seq := first }

/-- The first position of INIT, and that of every transfer (R33). -/
def Seq.firstOfInit : Seq := ⟨.init, .init, 0, false⟩
def Seq.firstOfTransfer : Seq := ⟨.start, .start, 0, false⟩

/-- Why a transfer is not accepted whatever its operands (R164, D10, D11). -/
def State.transferRefusal (s : State) : Option Refusal :=
  if s.busy then some .engineBusy else if s.initialised then none else some .notInitialised

/-- INIT is accepted unless the engine is busy, whatever its operand (R160, R164, R93); `speed` is latched
(R83). -/
def acceptInit (speed : Nat) (s : State) : Except Refusal State :=
  if s.busy then .error .engineBusy
  else .ok (State.beginCommand 0 Seq.firstOfInit { s with speed := latchedSpeed speed })

/-- WRITE (R164, R83, D12, D13). -/
def acceptWrite (addr txLen : Nat) (s : State) : Except Refusal State :=
  if !addrFits addr then .error .addressTooWide
  else if !lenFits txLen then .error .lengthTooWide
  else match s.transferRefusal with
    | some r => .error r
    | none =>
      if s.tx.holds txLen then
        .ok (State.beginCommand 1 Seq.firstOfTransfer
          { s with addr := BitVec.ofNat 7 addr, txLen := BitVec.ofNat 16 txLen })
      else .error .txBufferShort

/-- READ (R164, R83, D12, D13). -/
def acceptRead (addr rxLen : Nat) (s : State) : Except Refusal State :=
  if !addrFits addr then .error .addressTooWide
  else if !lenFits rxLen then .error .lengthTooWide
  else match s.transferRefusal with
    | some r => .error r
    | none =>
      if rxLen ≤ s.rx.size then
        .ok (State.beginCommand 2 Seq.firstOfTransfer
          { s with addr := BitVec.ofNat 7 addr, rxLen := BitVec.ofNat 16 rxLen })
      else .error .rxBufferShort

/-- WRITE_READ (R164, R83, D12, D13). -/
def acceptWriteRead (addr txLen rxLen : Nat) (s : State) : Except Refusal State :=
  if !addrFits addr then .error .addressTooWide
  else if !(lenFits txLen && lenFits rxLen) then .error .lengthTooWide
  else match s.transferRefusal with
    | some r => .error r
    | none =>
      if !s.tx.holds txLen then .error .txBufferShort
      else if rxLen ≤ s.rx.size then
        .ok (State.beginCommand 3 Seq.firstOfTransfer
          { s with addr := BitVec.ofNat 7 addr, txLen := BitVec.ofNat 16 txLen, rxLen := BitVec.ofNat 16 rxLen })
      else .error .rxBufferShort

/-! ### Bodies -/

/-- The events of INIT, then its end (R160). -/
def State.initBody (s : State) : State := s.sdaRelease.sclRelease.latchClear.delayRecovery.endInit

/-- START, then the address byte with the direction bit `rw` (R161, R162). -/
def State.addressPhase (rw : Bit) (s : State) : State := s.startCond.sendByte (addrByte s.addr rw)

/-- The loop of step 3 of WRITE: each byte is fetched, then sent; the first not acknowledged ends it
(R161, R52). -/
def State.sendData : List Byte → State → State
  | [], s => s
  | b :: bs, s =>
    let t := (s.strobeBuf (.fetch s.idx)).sendByte b
    if t.ackbit then t else State.sendData bs { t with idx := t.idx + 1 }

/-- WRITE up to its STOP (R161). -/
def State.writeFrame (s : State) : State :=
  let t := s.addressPhase false
  if t.ackbit then t else State.sendData (t.tx.bytes t.txLen.toNat) { t with idx := 0 }

/-- `MemWrite(RX, IDX, 1, SHIFT)` (R162, R53). -/
def State.storeByte (s : State) : State :=
  State.strobeBuf (.store s.idx s.shift) { s with rx := s.rx.store s.idx.toNat s.shift }

/-- `n` turns of the loop of READ (R162). -/
def State.receiveData : Nat → State → State
  | 0, s => s
  | n + 1, s =>
    let t := s.setSendAck.rxByte.storeByte
    State.receiveData n { t with idx := t.idx + 1 }

/-- READ up to its STOP (R162). -/
def State.readFrame (s : State) : State :=
  let t := s.addressPhase true
  if t.ackbit then t else State.receiveData t.rxLen.toNat { t with idx := 0 }

/-- STOP, then `Nack` if the last transmitted byte was not acknowledged, else `Ok` (R161, R162, R169). -/
def State.finish (s : State) : State := if s.ackbit then s.raiseNack else s.returnOk

/-- WRITE (R161). -/
def State.writeBody (s : State) : State := s.writeFrame.finish

/-- READ (R162). -/
def State.readBody (s : State) : State := s.readFrame.finish

/-- The read phase of a WRITE_READ begins (R33). -/
def State.beginSecond (s : State) : State := { s with seq := { s.seq with second := true } }

/-- WRITE_READ (R163): a NACK in the write phase ends the command after that phase's STOP. -/
def State.writeReadBody (s : State) : State :=
  let t := s.writeFrame
  if t.ackbit then t.raiseNack else t.stopCond.delaySettle.beginSecond.readFrame.finish

/-! ### Meanings -/

/-- INIT (R160). -/
def execInit (speed : Nat) (s : State) : Host.Outcome State Fault Refusal :=
  match acceptInit speed s with
  | .error r => .refused r
  | .ok t => .next t.initBody

/-- WRITE (R161). -/
def execWrite (addr txLen : Nat) (s : State) : Host.Outcome State Fault Refusal :=
  match acceptWrite addr txLen s with
  | .error r => .refused r
  | .ok t => .next t.writeBody

/-- READ (R162). -/
def execRead (addr rxLen : Nat) (s : State) : Host.Outcome State Fault Refusal :=
  match acceptRead addr rxLen s with
  | .error r => .refused r
  | .ok t => .next t.readBody

/-- WRITE_READ (R163). -/
def execWriteRead (addr txLen rxLen : Nat) (s : State) : Host.Outcome State Fault Refusal :=
  match acceptWriteRead addr txLen rxLen s with
  | .error r => .refused r
  | .ok t => .next t.writeReadBody

end Sys2Proof.Machine
end

