-- ==== Sys2Proof/Machine/Pins.lean ====
section
/-! DEFINITION. The pin primitives as operations of the PIN format (R92, R109 to R119). "None of the
primitives can fail". -/

namespace Sys2Proof.Machine

/-- SDA_LOW (R110). -/
def execSdaLow (s : State) : Host.Outcome State Fault Refusal := .next s.sdaLow

/-- SDA_RELEASE (R112). -/
def execSdaRelease (s : State) : Host.Outcome State Fault Refusal := .next s.sdaRelease

/-- SCL_LOW (R111). -/
def execSclLow (s : State) : Host.Outcome State Fault Refusal := .next s.sclLow

/-- SCL_RELEASE (R113). -/
def execSclRelease (s : State) : Host.Outcome State Fault Refusal := .next s.sclRelease

/-- SDA_SAMPLE (R114). -/
def execSdaSample (s : State) : Host.Outcome State Fault Refusal := .next s.sdaSample

/-- DELAY, kind 0 (R115). -/
def execDelayQuarter (s : State) : Host.Outcome State Fault Refusal := .next s.delayQuarter

/-- DELAY, kind 1 (R116). -/
def execDelayHalf (s : State) : Host.Outcome State Fault Refusal := .next s.delayHalf

/-- DELAY, kind 3 (R118). -/
def execDelayRecovery (s : State) : Host.Outcome State Fault Refusal := .next s.delayRecovery

/-- DELAY, kind 4 (R118). -/
def execDelaySettle (s : State) : Host.Outcome State Fault Refusal := .next s.delaySettle

/-- LATCH_CLEAR (R119). -/
def execLatchClear (s : State) : Host.Outcome State Fault Refusal := .next s.latchClear

end Sys2Proof.Machine
end

