-- ==== Sys2Proof/Machine/Wire.lean ====
section
/-! DEFINITION. The WIRE formats as the engine puts them on the bus (R85, R88), and the status codes as
the end of a transfer command (R84, R11). Entries 15 and 16. -/

namespace Sys2Proof.Machine

/-- ADDR_WRITE: the byte `{a, 0}` is sent (R85, R161). -/
def execAddrWrite (a : Addr) (s : State) : Host.Outcome State Fault Refusal :=
  .next (s.sendByte (addrByte a false))

/-- ADDR_READ: the byte `{a, 1}` is sent (R85, R162). -/
def execAddrRead (a : Addr) (s : State) : Host.Outcome State Fault Refusal :=
  .next (s.sendByte (addrByte a true))

/-- DATA_BYTE: the payload byte is sent, bit 7 first (R88, R161). -/
def execDataByte (d : Byte) (s : State) : Host.Outcome State Fault Refusal := .next (s.sendByte d)

/-- ACK: "master drives ACK (SDA low)" in slot 9 (R87, R88, R145). -/
def execAck (s : State) : Host.Outcome State Fault Refusal := .next (s.rxAck true)

/-- NACK: the master leaves SDA released in slot 9 (R87, R88, R145). -/
def execNack (s : State) : Host.Outcome State Fault Refusal := .next (s.rxAck false)

/-- STATUS_OK: `return Ok` (R11, R164, R190). -/
def execStatusOk (s : State) : Host.Outcome State Fault Refusal := .next (s.endTransfer .ok)

/-- STATUS_ERROR: "`Error` is never produced" (R194). -/
def execStatusError (_ : State) : Host.Outcome State Fault Refusal := .refused .statusNeverProduced

/-- STATUS_TIMEOUT: "`Timeout` is never produced" (R193). -/
def execStatusTimeout (_ : State) : Host.Outcome State Fault Refusal := .refused .statusNeverProduced

/-- STATUS_NACK: steps (3) and (4) of R197, after its STOP. -/
def execStatusNack (s : State) : Host.Outcome State Fault Refusal := .next (s.endTransfer .nack)

end Sys2Proof.Machine
end

