-- ==== Sys2Proof/Machine/Dispatch.lean ====
section
/-! DEFINITION. One arm per instruction: a direct call of its meaning. -/

namespace Sys2Proof.Machine

def exec (i : Instr) (s : State) : Host.Outcome State Fault Refusal :=
  match i with
  | .init speed => Sys2Proof.Machine.execInit speed s
  | .write addr txLen => Sys2Proof.Machine.execWrite addr txLen s
  | .read addr rxLen => Sys2Proof.Machine.execRead addr rxLen s
  | .writeRead addr txLen rxLen => Sys2Proof.Machine.execWriteRead addr txLen rxLen s
  | .start => Sys2Proof.Machine.execStart s
  | .stop => Sys2Proof.Machine.execStop s
  | .txbyte => Sys2Proof.Machine.execTxbyte s
  | .rxbyte => Sys2Proof.Machine.execRxbyte s
  | .sdaLow => Sys2Proof.Machine.execSdaLow s
  | .sdaRelease => Sys2Proof.Machine.execSdaRelease s
  | .sclLow => Sys2Proof.Machine.execSclLow s
  | .sclRelease => Sys2Proof.Machine.execSclRelease s
  | .sdaSample => Sys2Proof.Machine.execSdaSample s
  | .delayQuarter => Sys2Proof.Machine.execDelayQuarter s
  | .delayHalf => Sys2Proof.Machine.execDelayHalf s
  | .delayRecovery => Sys2Proof.Machine.execDelayRecovery s
  | .delaySettle => Sys2Proof.Machine.execDelaySettle s
  | .latchClear => Sys2Proof.Machine.execLatchClear s
  | .addrWrite a => Sys2Proof.Machine.execAddrWrite a s
  | .addrRead a => Sys2Proof.Machine.execAddrRead a s
  | .dataByte d => Sys2Proof.Machine.execDataByte d s
  | .ack => Sys2Proof.Machine.execAck s
  | .nack => Sys2Proof.Machine.execNack s
  | .statusOk => Sys2Proof.Machine.execStatusOk s
  | .statusError => Sys2Proof.Machine.execStatusError s
  | .statusTimeout => Sys2Proof.Machine.execStatusTimeout s
  | .statusNack => Sys2Proof.Machine.execStatusNack s

end Sys2Proof.Machine
end

