-- ==== Sys2Proof/Machine/Sequencer.lean ====
section
/-! DEFINITION. The sequencer (R33, R34): while a command runs, SEQ names the next pin primitive; it is
executed, and SEQ moves on. What a rule does between two events (a fetch, a store, a test, the end) is
done with the event before it. Entry 9. -/

namespace Sys2Proof.Machine

/-- SDA to the bit value as a primitive (R87). -/
def primitiveFor : Bit → Instr
  | false => .sdaLow
  | true => .sdaRelease

/-- The event lists, as numbered in R130, R131, R140, R141, R144, R145, R146, R160 and R163. -/
def State.eventList (s : State) : List Instr :=
  match s.seq.sub with
  | .idle => []
  | .init => [.sdaRelease, .sclRelease, .latchClear, .delayRecovery]
  | .start => [.sdaLow, .delayQuarter, .sclLow]
  | .stop => [.sdaLow, .delayQuarter, .sclRelease, .delayQuarter, .sdaRelease]
  | .settle => [.delaySettle]
  | .txbit => [.sclLow, primitiveFor (topBit s.shift), .delayQuarter, .sclRelease, .delayQuarter]
  | .txack =>
    [.sclLow, .sdaRelease, .delayQuarter, .sclRelease, .delayQuarter, .sdaSample, .delayQuarter, .sclLow]
  | .rxPrologue => [.sdaRelease]
  | .rxbit => [.sclLow, .delayHalf, .sclRelease, .delayQuarter, .sdaSample, .delayQuarter]
  | .rxack =>
    [.sclLow, primitiveFor (!s.sendAck), .delayQuarter, .sclRelease, .delayHalf, .sclLow, .sdaRelease]

/-- The pin primitive SEQ names (R33). -/
def State.nextPrimitive (s : State) : Option Instr := s.eventList[s.seq.step]?

/-- SEQ moves to step 0 of an event list. -/
def State.goTo (phase : Phase) (sub : Sub) (s : State) : State :=
  { s with seq := { s.seq with phase := phase, sub := sub, step := 0 } }

/-- "every primitive advances `STEP` by one" (R33). -/
def State.nextStep (s : State) : State := { s with seq := { s.seq with step := s.seq.step + 1 } }

/-- TXBYTE begins: `SHIFT <- B`, eight bits to do (R142). -/
def State.beginTxByte (phase : Phase) (b : Byte) (s : State) : State :=
  State.goTo phase .txbit { s with shift := b, bitcnt := 8 }

/-- Whether the frame in progress is a read frame (R90): READ, or WRITE_READ's second phase. -/
def State.reading (s : State) : Bool := s.op == 2 || (s.op == 3 && s.seq.second)

/-- The loop test of WRITE (R161): the next byte is fetched and sent, or STOP. -/
def State.nextTxByte (s : State) : Host.Outcome State Fault Refusal :=
  if s.idx < s.txLen then
    match s.tx.read s.idx.toNat with
    | some b => .next ((s.strobeBuf (.fetch s.idx)).beginTxByte .txdata b)
    | none => .fault .txByteMissing
  else .next (s.goTo .stopOk .stop)

/-- The loop test of READ (R162): the next byte is received, or STOP. -/
def State.nextRxByte (s : State) : State :=
  if s.idx < s.rxLen then s.setSendAck.goTo .rxdata .rxPrologue else s.goTo .stopOk .stop

/-- After TXACK (R171): `ACKBIT = 1` goes to STOP and `Nack`; else the command goes on. -/
def State.afterTxAck (s : State) : Host.Outcome State Fault Refusal :=
  if s.ackbit then .next (s.goTo .stopNack .stop)
  else if s.seq.phase = .addr then
    if s.reading then .next (State.nextRxByte { s with idx := 0 }) else State.nextTxByte { s with idx := 0 }
  else State.nextTxByte { s with idx := s.idx + 1 }

/-- After RXACK (R162): the byte is stored. -/
def State.afterRxAck (s : State) : Host.Outcome State Fault Refusal :=
  if s.idx.toNat < s.rx.size then .next (State.nextRxByte { s.storeByte with idx := s.idx + 1 })
  else .fault .rxIndexOutside

/-- After STOP (R161 to R163, R197): the command ends, or WRITE_READ waits before its second phase. -/
def State.afterStop (s : State) : State :=
  if s.seq.phase = .stopNack then s.endTransfer .nack
  else if s.op = 3 ∧ s.seq.second = false then s.goTo .settle .settle
  else s.endTransfer .ok

/-- SEQ moves on after the primitive it names. -/
def State.advance (s : State) : Host.Outcome State Fault Refusal :=
  match s.seq.sub, s.seq.step with
  | .init, 3 => .next s.endInit
  | .start, 2 => .next (s.beginTxByte .addr (addrByte s.addr s.reading))
  | .stop, 4 => .next s.afterStop
  | .settle, 0 => .next (s.beginSecond.goTo .start .start)
  | .txbit, 4 =>
    if s.bitcnt = 1 then .next (s.shiftOut.goTo s.seq.phase .txack)
    else .next (s.shiftOut.goTo s.seq.phase .txbit)
  | .txack, 5 => .next s.captureAck.nextStep
  | .txack, 7 => s.afterTxAck
  | .rxPrologue, 0 => .next (State.goTo .rxdata .rxbit { s with shift := 0, bitcnt := 8 })
  | .rxbit, 4 => .next s.shiftIn.nextStep
  | .rxbit, 5 =>
    if s.bitcnt = 1 then .next (State.goTo .rxdata .rxack { s with bitcnt := s.bitcnt - 1 })
    else .next (State.goTo .rxdata .rxbit { s with bitcnt := s.bitcnt - 1 })
  | .rxack, 6 => s.afterRxAck
  | _, _ => .next s.nextStep

/-- One step of a running command: one pin primitive (R9), then SEQ moves on. -/
def tick (s : State) : Host.Outcome State Fault Refusal :=
  match s.nextPrimitive with
  | none => .fault .noSuchPosition
  | some i =>
    match exec i { s with done := false } with
    | .next t => t.advance
    | .fault r => .fault r
    | .refused r => .refused r

end Sys2Proof.Machine
end

