-- ==== Sys2Proof/Machine/Port.lean ====
section
/-! DEFINITION. The host's moves (R203), the output ports (R81), and one step of the block. -/

namespace Sys2Proof.Machine

/-! ### Output ports (R81) -/

/-- `cmd_ready = not BUSY`. -/
def State.cmdReady (s : State) : Bool := !s.busy

/-- `sda_oe`: 1 while the pad is an output. -/
def State.sdaOe (s : State) : Bit := s.sdaDrv == .drivenLow

/-- `sda_out` is `SDA_LATCH`. -/
def State.sdaOut (s : State) : Bit := s.sdaLatch

/-- `scl_oe`, as `sda_oe`. -/
def State.sclOe (s : State) : Bit := s.sclDrv == .drivenLow

/-- `scl_out` is `SCL_LATCH`. -/
def State.sclOut (s : State) : Bit := s.sclLatch

/-- The status codes (R84). -/
def statusCode : Status → BitVec 2
  | .ok => 0b00
  | .error => 0b01
  | .timeout => 0b10
  | .nack => 0b11

/-- `status`: no value while STATUS is not valid (R32, U17). -/
def State.statusPort (s : State) : Option Status := if s.statusValid then some s.status else none

/-! ### The host's moves -/

/-- An operation called: it runs to its end (R95). DELAY of kind 2 is the wait of `T_PAD` (R114), no event
of its own (R92): like every DELAY it "changes nothing and always completes" (R115). Entry 26. -/
def runCall (w : PortWord) (s : State) : Host.Outcome State Fault Refusal :=
  match decode w with
  | .ok i => exec i s
  | .error .padSettlingAlone => .next s
  | .error e => .refused (.undecodable e)

/-- Acceptance alone (R164). Only commands stand on the command port; the last arm is never reached
from it. Entry 8. -/
def acceptInstr (i : Instr) (s : State) : Host.Outcome State Fault Refusal :=
  let accepted : Except Refusal State → Host.Outcome State Fault Refusal := fun r =>
    match r with
    | .ok t => .next t
    | .error e => .refused e
  match i with
  | .init speed => accepted (acceptInit speed s)
  | .write addr txLen => accepted (acceptWrite addr txLen s)
  | .read addr rxLen => accepted (acceptRead addr rxLen s)
  | .writeRead addr txLen rxLen => accepted (acceptWriteRead addr txLen rxLen s)
  | i => exec i s

/-- A command presented with `cmd_valid` while `cmd_ready` (R164). -/
def runStrobe (bits : Nat) (s : State) : Host.Outcome State Fault Refusal :=
  match decode ⟨.cmd, bits⟩ with
  | .ok i => acceptInstr i s
  | .error e => .refused (.undecodable e)

/-- The host's next move while the engine is idle. With none the engine waits: "Between commands
control is with the host" (R171). -/
def idleStep (s : State) : Host.Outcome State Fault Refusal :=
  match s.inbox with
  | [] => .next s
  | .call w :: rest => runCall w { s with inbox := rest }
  | .strobe bits :: rest => runStrobe bits { s with inbox := rest }
  | .loadTx bytes :: rest => .next { s with inbox := rest, tx := Buffer.ofBytes bytes }
  | .giveRx size :: rest => .next { s with inbox := rest, rx := ⟨size, []⟩ }
  | .wait :: rest => .next { s with inbox := rest }
  | .assertReset :: rest => .next (s.applyReset rest)

/-- The host's moves after one step of a running command: a `wait` is over, any other move stays
(R164). -/
def letPass : List Input → List Input
  | .wait :: rest => rest
  | moves => moves

/-- One step. `rst_n` acts at once, also while a command runs (R220, R221); while one runs the host has
no other move, it can only wait (R64, R164); else the host moves. A `done` pulse lasts one step (R81,
entry 23). -/
def engineStep (s : State) : Host.Outcome State Fault Refusal :=
  match s.inbox with
  | .assertReset :: rest => .next (s.applyReset rest)
  | _ => if s.busy then tick { s with inbox := letPass s.inbox } else idleStep { s with done := false }

/-- Whether the word is a transfer command, which is accepted only with `INITIALISED = 1` (R164). -/
def needsInit (p : PortWord) : Bool :=
  match decodes p with
  | some (.write _ _) => true
  | some (.read _ _) => true
  | some (.writeRead _ _ _) => true
  | _ => false

/-- A word ready to be fetched: the host's next move to an idle engine, which INIT has initialised
where the word needs that. Entry 14. -/
def presentWord (s : State) (p : PortWord) : State :=
  { s with inbox := .call p :: s.inbox, busy := false, seq := Seq.idle,
           initialised := s.initialised || needsInit p }

/-- The word to present for table bits: where they are no instruction of any format, the command port's
reading of them, which the engine then refuses (R93). -/
def fetchWord (nbits w : Nat) : PortWord := (tableWord nbits w).getD ⟨.cmd, w⟩

end Sys2Proof.Machine
end

