-- ==== Sys2Proof/Machine/Step.lean ====
section
/-! DEFINITION. The step, and how a table word is placed where the step fetches. -/

namespace Sys2Proof.Machine

/-- One step of the block: see `engineStep`. -/
def step : State → Host.Outcome State Fault Refusal := engineStep

/-- `s` with the table word as the very next thing to run: see `presentWord` and entry 14. -/
def State.withFetchWord (s : State) (nbits w : Nat) : State := presentWord s (fetchWord nbits w)

end Sys2Proof.Machine
end

