-- ==== Sys2Proof/Machine/Trace.lean ====
section
/-! DEFINITION. What is observed of a run: the driver trace L1 and the wire-symbol trace L2 (R12, R88,
R89), and the frames the spec expects (R90). -/

namespace Sys2Proof.Machine

/-- The two drivers, `(SCL_DRV, SDA_DRV)`. -/
structure Drivers where
  scl : Drv
  sda : Drv
  deriving DecidableEq, Repr

/-- Bus idle (R21). -/
def Drivers.idle : Drivers := ⟨.released, .released⟩

/-- The drivers after an event (R110 to R119). -/
def Drivers.after (d : Drivers) : Event → Drivers
  | .sda0 => { d with sda := .drivenLow }
  | .sda1 => { d with sda := .released }
  | .scl0 => { d with scl := .drivenLow }
  | .scl1 => { d with scl := .released }
  | .smp _ => { d with sda := .released }
  | .d1 => d
  | .d2 => d
  | .dr => d
  | .ds => d
  | .lc => d

/-- The drivers after a list of events. -/
def Drivers.afterAll : Drivers → List Event → Drivers
  | d, [] => d
  | d, e :: es => Drivers.afterAll (d.after e) es

/-- L1 from given drivers: the events that change a driver (R12). -/
def l1From : Drivers → List Event → List Event
  | _, [] => []
  | d, e :: es => if d.after e = d then l1From d es else e :: l1From (d.after e) es

/-- The symbols of L2: START, STOP, and the value of a slot (R88, R89). -/
inductive Sym where
  | s
  | p
  | bit (b : Bit)
  deriving DecidableEq, Repr

/-- The reader of L2: the drivers, and the slot that is open, if any, with the sample taken in it, if
any (R88). -/
structure WireReader where
  drivers : Drivers
  slot    : Option (Option Bit)
  deriving DecidableEq, Repr

/-- The reader on an idle bus. -/
def WireReader.idle : WireReader := ⟨Drivers.idle, none⟩

/-- A change of SDA: with SCL released it is a START or a STOP, and that high phase is no slot (R89,
R88); with SCL low it is no symbol. -/
def WireReader.sdaTo (r : WireReader) (d : Drv) : WireReader × List Sym :=
  if r.drivers.sda = d then (r, [])
  else if r.drivers.scl = .released then
    (⟨{ r.drivers with sda := d }, none⟩, [if d = .drivenLow then .s else .p])
  else (⟨{ r.drivers with sda := d }, r.slot⟩, [])

/-- One event read (R88, R89): a slot opens where SCL is released and closes where it goes back; its
value is the sample inside it, else the master's contribution. -/
def WireReader.read (r : WireReader) : Event → WireReader × List Sym
  | .sda0 => r.sdaTo .drivenLow
  | .sda1 => r.sdaTo .released
  | .scl1 =>
    if r.drivers.scl = .released then (r, []) else (⟨{ r.drivers with scl := .released }, some none⟩, [])
  | .scl0 =>
    if r.drivers.scl = .drivenLow then (r, [])
    else
      (⟨{ r.drivers with scl := .drivenLow }, none⟩,
        match r.slot with
        | none => []
        | some v => [.bit (v.getD (contributionOf r.drivers.sda))])
  | .smp b =>
    let q := r.sdaTo .released
    (⟨q.1.drivers, q.1.slot.map fun _ => some b⟩, q.2)
  | .d1 => (r, [])
  | .d2 => (r, [])
  | .dr => (r, [])
  | .ds => (r, [])
  | .lc => (r, [])

/-- The reader after a list of events. -/
def WireReader.readAll : WireReader → List Event → WireReader
  | r, [] => r
  | r, e :: es => WireReader.readAll (r.read e).1 es

/-- L2 of a list of events, from a reader. -/
def l2From : WireReader → List Event → List Sym
  | _, [] => []
  | r, e :: es => (r.read e).2 ++ l2From (r.read e).1 es

/-- L2 of a run that begins on an idle bus (R12). -/
def l2 (es : List Event) : List Sym := l2From WireReader.idle es

/-- The eight bits of a byte, bit 7 first (R55). -/
def bitsOf (b : Byte) : List Bit :=
  [b.getLsbD 7, b.getLsbD 6, b.getLsbD 5, b.getLsbD 4, b.getLsbD 3, b.getLsbD 2, b.getLsbD 1, b.getLsbD 0]

/-- A byte from eight bits, the first in bit 7 (R147). -/
def byteOf (f : Nat → Bit) : Byte :=
  (List.range 8).foldl (fun sh k => shiftInBit sh (f k)) 0

/-- A byte group: eight data slots, then the acknowledge bit (R88). -/
def groupSyms (b : Byte) (ackBit : Bit) : List Sym := (bitsOf b ++ [ackBit]).map Sym.bit

/-- A frame: `S`, byte groups, `P` (R90). -/
def frameSyms (groups : List (Byte × Bit)) : List Sym :=
  .s :: (groups.flatMap fun g => groupSyms g.1 g.2) ++ [.p]

/-- The groups of a transmission whose acknowledge bits are `acks`: it "ends early ... at the first
group whose slot 9 reads 1" (R90). -/
def sentGroups : List Byte → (Nat → Bit) → List (Byte × Bit)
  | [], _ => []
  | b :: bs, acks => (b, acks 0) :: if acks 0 then [] else sentGroups bs fun k => acks (k + 1)

/-- Whether every byte of a transmission is acknowledged (R169). -/
def allAcked (n : Nat) (acks : Nat → Bit) : Bool := (List.range n).all fun k => !acks k

/-- How many bytes of `n` are sent: up to the first not acknowledged, that one included (R60). -/
def sentCount : Nat → (Nat → Bit) → Nat
  | 0, _ => 0
  | n + 1, acks => if acks 0 then 1 else 1 + sentCount n fun k => acks (k + 1)

/-- The `n` bytes received where the answers to their samples are `f`: byte `i` from answers `8 i` to
`8 i + 7` (R54, R147). -/
def receivedBytes (n : Nat) (f : Nat → Bit) : List Byte :=
  (List.range n).map fun i => byteOf fun k => f (8 * i + k)

/-- The groups of received bytes: slot 9 is 0 "for all but the last and 1 for the last" (R90, R86). -/
def receivedGroups (bytes : List Byte) : List (Byte × Bit) :=
  bytes.zipIdx.map fun g => (g.1, decide (g.2 + 1 = bytes.length))

/-! ### The event lists of the spec's tables (L0) -/

/-- "`SDA0` if `b = 0`, `SDA1` if `b = 1`" (R140). -/
def sdaEvent : Bit → Event
  | false => .sda0
  | true => .sda1

/-- START (R130). -/
def startEvents : List Event := [.sda0, .d1, .scl0]

/-- STOP (R131). -/
def stopEvents : List Event := [.sda0, .d1, .scl1, .d1, .sda1]

/-- INIT (R160). -/
def initEvents : List Event := [.sda1, .scl1, .lc, .dr]

/-- TXBIT (R140). -/
def txBitEvents (b : Bit) : List Event := [.scl0, sdaEvent b, .d1, .scl1, .d1]

/-- TXACK that reads `a` (R141). -/
def txAckEvents (a : Bit) : List Event := [.scl0, .sda1, .d1, .scl1, .d1, .smp a, .d1, .scl0]

/-- TXBYTE of `b` that reads `a` (R142). -/
def txByteEvents (b : Byte) (a : Bit) : List Event := (bitsOf b).flatMap txBitEvents ++ txAckEvents a

/-- RXBIT that reads `b` (R144). -/
def rxBitEvents (b : Bit) : List Event := [.scl0, .d2, .scl1, .d1, .smp b, .d1]

/-- RXACK (R145). -/
def rxAckEvents (sendAck : Bit) : List Event := [.scl0, sdaEvent (!sendAck), .d1, .scl1, .d2, .scl0, .sda1]

/-- RXBYTE of the byte `b` (R146). -/
def rxByteEvents (b : Byte) (sendAck : Bit) : List Event :=
  .sda1 :: (bitsOf b).flatMap rxBitEvents ++ rxAckEvents sendAck

/-- The transmitted groups of a frame as events. -/
def sentEvents (groups : List (Byte × Bit)) : List Event := groups.flatMap fun g => txByteEvents g.1 g.2

/-- The received groups of a frame as events; slot 9 is 0 where the master acknowledges (R87). -/
def receivedEvents (groups : List (Byte × Bit)) : List Event := groups.flatMap fun g => rxByteEvents g.1 (!g.2)

/-- The groups of a write frame (R90): the address byte with `RW = 0`, then the payload. -/
def writeGroups (addr : Addr) (payload : List Byte) (acks : Nat → Bit) : List (Byte × Bit) :=
  sentGroups (addrByte addr false :: payload) acks

/-- The received groups of a read frame whose answers are `f`: none where the address is refused
(R90). -/
def readDataGroups (n : Nat) (f : Nat → Bit) : List (Byte × Bit) :=
  if f 0 then [] else receivedGroups (receivedBytes n fun k => f (k + 1))

/-- The groups of a read frame (R90). -/
def readGroups (addr : Addr) (n : Nat) (f : Nat → Bit) : List (Byte × Bit) :=
  (addrByte addr true, f 0) :: readDataGroups n f

/-- The L0 trace of a write frame (R161). -/
def writeFrameEvents (addr : Addr) (payload : List Byte) (acks : Nat → Bit) : List Event :=
  startEvents ++ sentEvents (writeGroups addr payload acks) ++ stopEvents

/-- The L0 trace of a read frame (R162). -/
def readFrameEvents (addr : Addr) (n : Nat) (f : Nat → Bit) : List Event :=
  startEvents ++ (txByteEvents (addrByte addr true) (f 0) ++ receivedEvents (readDataGroups n f)) ++ stopEvents

/-- How many answers a read frame takes (R60). -/
def readSampleCount (n : Nat) (f : Nat → Bit) : Nat := if f 0 then 1 else 1 + 8 * n

end Sys2Proof.Machine
end

