-- ==== Sys2Proof/Machine/Timing.lean ====
section
/-! DEFINITION. Lower bounds on durations (R134, R150, R231). No rule of the model depends on them
(R13); they are functions of the trace. -/

namespace Sys2Proof.Machine

/-- The least time an event takes, in nanoseconds: its delays only (R114 to R118, R231). -/
def eventTime : Event → Nat
  | .d1 => Config.tQ
  | .d2 => 2 * Config.tQ
  | .smp _ => Config.tPad
  | .dr => Config.tRecovery
  | .ds => Config.tSettle
  | .sda0 => 0
  | .sda1 => 0
  | .scl0 => 0
  | .scl1 => 0
  | .lc => 0

/-- The least time a list of events takes. -/
def traceTime (es : List Event) : Nat := (es.map eventTime).sum

/-- Quarter-bit units of delay in a list of events (95_test_vectors.md, `Q`). -/
def eventQuarters : Event → Nat
  | .d1 => 1
  | .d2 => 2
  | _ => 0

/-- `Q` of a trace. -/
def traceQuarters (es : List Event) : Nat := (es.map eventQuarters).sum

end Sys2Proof.Machine
end

