-- ==== Sys2Proof/Safety.lean ====
section
/-! DEFINITION. What claims are stated in: bus idle, the legal states, the line-change invariant, the
latch glitch, and runs of several steps. -/

namespace Sys2Proof.Machine

/-- The two drivers of a state. -/
def State.drivers (s : State) : Drivers := ⟨s.sclDrv, s.sdaDrv⟩

/-- Bus idle (R21): a predicate on the drivers, not on the line levels. -/
abbrev State.busIdle (s : State) : Prop := s.drivers = Drivers.idle

/-- The engine would accept a transfer whose buffers suffice (R164). -/
abbrev State.ready (s : State) : Prop := s.busy = false ∧ s.initialised = true

/-- The drivers at the position SEQ names, before its primitive (the state columns of R130 and R131 and
the effect columns of R140 to R145). -/
def State.driversFit (s : State) : Bool :=
  match s.seq.sub, s.seq.step with
  | .init, n => decide (n < 4) && s.drivers == ⟨.released, .released⟩
  | .start, 0 => s.drivers == ⟨.released, .released⟩
  | .start, 1 => s.drivers == ⟨.released, .drivenLow⟩
  | .start, 2 => s.drivers == ⟨.released, .drivenLow⟩
  | .stop, 0 => s.drivers == ⟨.drivenLow, .released⟩
  | .stop, 1 => s.drivers == ⟨.drivenLow, .drivenLow⟩
  | .stop, 2 => s.drivers == ⟨.drivenLow, .drivenLow⟩
  | .stop, 3 => s.drivers == ⟨.released, .drivenLow⟩
  | .stop, 4 => s.drivers == ⟨.released, .drivenLow⟩
  | .settle, 0 => s.drivers == ⟨.released, .released⟩
  | .txbit, 0 => true
  | .txbit, 1 => s.sclDrv == .drivenLow
  | .txbit, 2 => s.drivers == ⟨.drivenLow, driverOf (topBit s.shift)⟩
  | .txbit, 3 => s.drivers == ⟨.drivenLow, driverOf (topBit s.shift)⟩
  | .txbit, 4 => s.drivers == ⟨.released, driverOf (topBit s.shift)⟩
  | .txack, 0 => true
  | .txack, 1 => s.sclDrv == .drivenLow
  | .txack, 2 => s.drivers == ⟨.drivenLow, .released⟩
  | .txack, 3 => s.drivers == ⟨.drivenLow, .released⟩
  | .txack, 4 => s.drivers == ⟨.released, .released⟩
  | .txack, 5 => s.drivers == ⟨.released, .released⟩
  | .txack, 6 => s.drivers == ⟨.released, .released⟩
  | .txack, 7 => s.drivers == ⟨.released, .released⟩
  | .rxPrologue, 0 => s.drivers == ⟨.drivenLow, .released⟩
  | .rxbit, 0 => s.sdaDrv == .released
  | .rxbit, 1 => s.drivers == ⟨.drivenLow, .released⟩
  | .rxbit, 2 => s.drivers == ⟨.drivenLow, .released⟩
  | .rxbit, 3 => s.drivers == ⟨.released, .released⟩
  | .rxbit, 4 => s.drivers == ⟨.released, .released⟩
  | .rxbit, 5 => s.drivers == ⟨.released, .released⟩
  | .rxack, 0 => s.drivers == ⟨.released, .released⟩
  | .rxack, 1 => s.drivers == ⟨.drivenLow, .released⟩
  | .rxack, 2 => s.drivers == ⟨.drivenLow, driverOf (!s.sendAck)⟩
  | .rxack, 3 => s.drivers == ⟨.drivenLow, driverOf (!s.sendAck)⟩
  | .rxack, 4 => s.drivers == ⟨.released, driverOf (!s.sendAck)⟩
  | .rxack, 5 => s.drivers == ⟨.released, driverOf (!s.sendAck)⟩
  | .rxack, 6 => s.drivers == ⟨.drivenLow, driverOf (!s.sendAck)⟩
  | _, _ => false

/-- BITCNT inside a byte: 8 down to 1 in a data bit (R26). -/
def State.bitcntInData (s : State) : Bool := decide (1 ≤ s.bitcnt.toNat ∧ s.bitcnt.toNat ≤ 8)

/-- The phases in which a byte is sent: the address byte, or a payload byte of a write frame. -/
def State.sending (s : State) : Bool :=
  s.seq.phase == .addr || (s.seq.phase == .txdata && !s.reading && decide (s.idx < s.txLen))

/-- The phase in which a byte is received. -/
def State.receiving (s : State) : Bool := s.seq.phase == .rxdata && s.reading && decide (s.idx < s.rxLen)

/-- PHASE, OP, BITCNT and IDX agree with the event list SEQ is in (R33, R161 to R163). -/
def State.phaseFits (s : State) : Bool :=
  match s.seq.sub with
  | .idle => false
  | .init => s.seq.phase == .init && s.op == 0
  | .start => s.seq.phase == .start && s.op != 0
  | .stop => (s.seq.phase == .stopOk || s.seq.phase == .stopNack) && s.op != 0
  | .settle => s.seq.phase == .settle && s.op == 3 && !s.seq.second
  | .txbit => s.sending && s.bitcntInData && s.op != 0
  | .txack => s.sending && s.bitcnt == 0 && s.op != 0
  | .rxPrologue => s.receiving
  | .rxbit => s.receiving && s.bitcntInData
  | .rxack => s.receiving && s.bitcnt == 0

/-- The buffers suffice for the command in progress (D13). -/
def State.buffersSuffice (s : State) : Bool :=
  ((s.op != 1 && s.op != 3) || s.tx.holds s.txLen.toNat) &&
    ((s.op != 2 && s.op != 3) || decide (s.rxLen.toNat ≤ s.rx.size))

/-- A running command is at a legal position. -/
def State.runningFits (s : State) : Bool :=
  decide (s.op.toNat < 4) && s.driversFit && s.phaseFits && s.buffersSuffice && (!s.seq.second || s.op == 3)

/-- The host keeps to the moves it has: it calls commands only, never an internal selector (R80, R203).
Entry 25. -/
def hostMove : Input → Bool
  | .call w => w.format == .cmd
  | .strobe _ => true
  | .loadTx _ => true
  | .giveRx _ => true
  | .wait => true
  | .assertReset => true

/-- The legal states. -/
structure State.Inv (s : State) : Prop where
  /-- The buffers are in canonical form. -/
  txWf : s.tx.wf = true
  rxWf : s.rx.wf = true
  /-- Between commands the bus is idle and SEQ is at rest (R21, R38). -/
  idle : s.busy = false → s.busIdle ∧ s.seq = Seq.idle
  /-- A running command is at a legal position with the drivers the tables give (R33). -/
  running : s.busy = true → s.runningFits = true
  /-- "After INIT both are 0 forever" (R24), and already at INIT's last event, which follows its `LC`
  (R160). -/
  latches : s.initialised = true ∨ s.seq.sub = .init ∧ s.seq.step = 3 →
    s.sdaLatch = false ∧ s.sclLatch = false
  /-- Only INIT runs before INIT has (R164). -/
  initFirst : s.busy = true → s.op ≠ 0 → s.initialised = true
  /-- A valid status is `Ok` or `Nack`, and none is valid while a command runs (R32, R193, R194). -/
  status : s.statusValid = true → s.busy = false ∧ (s.status = .ok ∨ s.status = .nack)
  /-- The trace accounts for the drivers (R12). -/
  traced : Drivers.idle.afterAll s.trace = s.drivers
  /-- The host keeps its duties (R203). -/
  host : s.inbox.all hostMove = true

/-- Whether the host's next move is `rst_n`. -/
def State.resetPending (s : State) : Bool :=
  match s.inbox with
  | .assertReset :: _ => true
  | _ => false

/-- `n` steps. -/
def stepN : Nat → State → Host.Outcome State Fault Refusal
  | 0, s => .next s
  | n + 1, s =>
    match step s with
    | .next t => stepN n t
    | .fault r => .fault r
    | .refused r => .refused r

/-- The pin primitives (R117). -/
def pinPrimitives : List Instr :=
  [.sdaLow, .sdaRelease, .sclLow, .sclRelease, .sdaSample, .delayQuarter, .delayHalf, .delayRecovery,
    .delaySettle, .latchClear]

/-- The event of a pin primitive whose sample, if it takes one, reads `b` (R110 to R119); no other
instruction is one event. -/
def pinEvent (b : Bit) : Instr → List Event
  | .sdaLow => [.sda0]
  | .sdaRelease => [.sda1]
  | .sclLow => [.scl0]
  | .sclRelease => [.scl1]
  | .sdaSample => [.smp b]
  | .delayQuarter => [.d1]
  | .delayHalf => [.d2]
  | .delayRecovery => [.dr]
  | .delaySettle => [.ds]
  | .latchClear => [.lc]
  | .init _ => []
  | .write _ _ => []
  | .read _ _ => []
  | .writeRead _ _ _ => []
  | .start => []
  | .stop => []
  | .txbyte => []
  | .rxbyte => []
  | .addrWrite _ => []
  | .addrRead _ => []
  | .dataByte _ => []
  | .ack => []
  | .nack => []
  | .statusOk => []
  | .statusError => []
  | .statusTimeout => []
  | .statusNack => []

/-- The command has ended with a status (R164). -/
def State.ended (st : Status) (t : State) : Prop :=
  t.seq = Seq.idle ∧ t.busy = false ∧ t.done = true ∧ t.status = st ∧ t.statusValid = true

/-- A write frame with byte `IDX` next (step 3 of WRITE, R161, R52): that byte is fetched into SHIFT, or
the frame goes to STOP where no byte is left. -/
def State.sendsNext (s t : State) : Prop :=
  if t.idx < s.txLen then
    t.seq = ⟨.txdata, .txbit, 0, s.seq.second⟩ ∧ s.tx.read t.idx.toNat = some t.shift ∧ t.bitcnt = 8 ∧
      t.bufOps = s.bufOps ++ [.fetch t.idx]
  else t.seq = ⟨.stopOk, .stop, 0, s.seq.second⟩ ∧ t.bufOps = s.bufOps

/-- A read frame with byte `IDX` next (step 3 of READ, R162, R86): its RXBYTE begins, acknowledged unless
it is the last, or the frame goes to STOP where no byte is left. -/
def State.receivesNext (s t : State) : Prop :=
  if t.idx < s.rxLen then
    t.seq = ⟨.rxdata, .rxPrologue, 0, s.seq.second⟩ ∧
      t.sendAck = decide (t.idx.toNat + 1 < s.rxLen.toNat)
  else t.seq = ⟨.stopOk, .stop, 0, s.seq.second⟩

/-- What a pin primitive can change of the pins: the drivers and the latches (R117). -/
def State.pins (s : State) : Drivers × Bit × Bit := (s.drivers, s.sdaLatch, s.sclLatch)

/-- A pad that begins to drive while its latch holds 1 drives its line high for an instant (R229). -/
def glitches (s t : State) : Bool :=
  (s.sdaDrv == .released && t.sdaDrv == .drivenLow && s.sdaLatch) ||
    (s.sclDrv == .released && t.sclDrv == .drivenLow && s.sclLatch)

/-- What a transfer command leaves, its data registers apart (R164, R167, R169, R60): `k` answers used
up, the events and the buffer strobes appended, `Ok` if every transmitted byte was acknowledged. -/
def State.transferEnd (s : State) (op : BitVec 3) (acked : Bool) (evs : List Event) (ops : List BufOp)
    (k : Nat) : State :=
  { s with
    op := op, sdaDrv := .released, sclDrv := .released, sdaLatch := false, sclLatch := false, bitcnt := 0,
    ackbit := !acked, status := if acked then .ok else .nack, statusValid := true, busy := false,
    seq := Seq.idle, done := true, answers := s.answers.drop k, samples := s.samples + k,
    trace := s.trace ++ evs, bufOps := s.bufOps ++ ops }

/-- The fetches of a write frame of which `k` bytes are sent, the address byte among them (R52). -/
def fetchOps (k : Nat) : List BufOp := (List.range (k - 1)).map fun i => .fetch (BitVec.ofNat 16 i)

/-- The stores of a read frame, in ascending order, each once (R53). -/
def storeOps (bytes : List Byte) : List BufOp := bytes.zipIdx.map fun g => .store (BitVec.ofNat 16 g.2) g.1

/-- The bytes a read frame delivers: none where its address is refused (R162). -/
def deliveredBytes (n : Nat) (f : Nat → Bit) : List Byte :=
  if f 0 then [] else receivedBytes n fun k => f (k + 1)

/-- `rx` after a command that delivered `bytes` (R53, R54): bytes 0 to `length − 1` are those, every
other index is as before. -/
def Delivered (before after : Buffer) (bytes : List Byte) : Prop :=
  after.size = before.size ∧ after.wf = true ∧
    ∀ i, after.read i = if h : i < bytes.length then some bytes[i] else before.read i

end Sys2Proof.Machine
end

