-- ==== Sys2Proof/Certificates/Slice0/Obligations.lean ====
section
/-! DEFINITION. The statements about the model, each a rule of the spec or a consequence of its rules. -/

open Sys2Proof Sys2Proof.Machine

/-! ### Pin primitives -/

/-- R110: the driver, the latch and nothing else; idempotent and then absent from L1; the line is 0
whatever others do; with the latch at 1 the pad glitches (R229). -/
def Obligations.SdaLowPullsSdaLow : Prop :=
  ∀ s : State,
    decode ⟨.pin, 0b000⟩ = .ok .sdaLow ∧
    exec .sdaLow s = .next { s with sdaLatch := false, sdaDrv := .drivenLow, trace := s.trace ++ [.sda0] } ∧
    (∀ others, lineLevel .drivenLow others = false) ∧
    (s.sdaDrv = .drivenLow → l1From s.drivers [.sda0] = []) ∧
    (s.sdaDrv = .drivenLow → s.sdaLatch = false → exec .sdaLow s = .next { s with trace := s.trace ++ [.sda0] }) ∧
    (∀ t, exec .sdaLow s = .next t → s.sdaDrv = .released → s.sdaLatch = true → glitches s t = true)

/-- R111. -/
def Obligations.SclLowPullsSclLow : Prop :=
  ∀ s : State,
    decode ⟨.pin, 0b010⟩ = .ok .sclLow ∧
    exec .sclLow s = .next { s with sclLatch := false, sclDrv := .drivenLow, trace := s.trace ++ [.scl0] } ∧
    (∀ others, lineLevel .drivenLow others = false) ∧
    (s.sclDrv = .drivenLow → l1From s.drivers [.scl0] = []) ∧
    (s.sclDrv = .drivenLow → s.sclLatch = false → exec .sclLow s = .next { s with trace := s.trace ++ [.scl0] })

/-- R112: "The latch is not changed"; the line is 1 only if no other device pulls it low. -/
def Obligations.SdaReleaseFloatsSda : Prop :=
  ∀ s : State,
    decode ⟨.pin, 0b001⟩ = .ok .sdaRelease ∧
    exec .sdaRelease s = .next { s with sdaDrv := .released, trace := s.trace ++ [.sda1] } ∧
    (∀ others, lineLevel .released others = others) ∧
    (s.sdaDrv = .released → exec .sdaRelease s = .next { s with trace := s.trace ++ [.sda1] })

/-- R113: no answer is consumed. That the step completes whatever the line does, with no wait for SCL to
read 1, is the spec's own choice, decision D8 (entry 19). -/
def Obligations.SclReleaseFloatsScl : Prop :=
  ∀ s : State,
    decode ⟨.pin, 0b011⟩ = .ok .sclRelease ∧
    exec .sclRelease s = .next { s with sclDrv := .released, trace := s.trace ++ [.scl1] } ∧
    (s.sclDrv = .released → exec .sclRelease s = .next { s with trace := s.trace ++ [.scl1] })

/-- R114: SDA is released first; the bit is the environment's next answer, used up. `sample` is the
model's own register for the result (entry 17). -/
def Obligations.SdaSampleReadsTheLine : Prop :=
  ∀ s : State,
    decode ⟨.pin, 0b100⟩ = .ok .sdaSample ∧
    exec .sdaSample s = .next
      { s with sdaDrv := .released, sample := s.upcoming 0, answers := s.answers.drop 1,
               samples := s.samples + 1, trace := s.trace ++ [.smp (s.upcoming 0)] } ∧
    (∀ b rest, s.answers = b :: rest → s.upcoming 0 = b)

/-- R115, R116, R118: each of the four delays only adds its event. The place of `dly_kind` in a word is
the model's choice (entry 13), and so is that time is a bound on the trace (entry 18). -/
def Obligations.DelaysChangeNoState : Prop :=
  ∀ s : State,
    decode ⟨.pin, 0b000101⟩ = .ok .delayQuarter ∧
    decode ⟨.pin, 0b001101⟩ = .ok .delayHalf ∧
    decode ⟨.pin, 0b011101⟩ = .ok .delayRecovery ∧
    decode ⟨.pin, 0b100101⟩ = .ok .delaySettle ∧
    exec .delayQuarter s = .next { s with trace := s.trace ++ [.d1] } ∧
    exec .delayHalf s = .next { s with trace := s.trace ++ [.d2] } ∧
    exec .delayRecovery s = .next { s with trace := s.trace ++ [.dr] } ∧
    exec .delaySettle s = .next { s with trace := s.trace ++ [.ds] } ∧
    eventTime .d1 = Config.tQ ∧ eventTime .d2 = 2 * Config.tQ ∧
    1000000 ≤ eventTime .dr ∧ 500000 ≤ eventTime .ds

/-- R119: neither driver changes, and the event is absent from L1. -/
def Obligations.LatchClearZeroesBothLatches : Prop :=
  ∀ s : State,
    decode ⟨.pin, 0b110⟩ = .ok .latchClear ∧
    exec .latchClear s = .next { s with sdaLatch := false, sclLatch := false, trace := s.trace ++ [.lc] } ∧
    l1From s.drivers [.lc] = []

/-- R117: "applying it twice in a row leaves the state the first application left", and a call on a pin
already in the asked state can be dropped without any change at L1. -/
def Obligations.PinPrimitivesAreIdempotent : Prop :=
  (∀ i ∈ pinPrimitives, ∀ s : State, ∃ t u, exec i s = .next t ∧ exec i t = .next u ∧ u.pins = t.pins) ∧
    ∀ (d : Drivers) (e : Event) (es fs : List Event), (d.afterAll es).after e = d.afterAll es →
      l1From d (es ++ e :: fs) = l1From d (es ++ fs)

/-! ### Bus sequences -/

/-- R130, in every state: the entry condition is not checked. On an idle bus it is the symbol `S`. -/
def Obligations.StartPullsSdaThenScl : Prop :=
  ∀ s : State,
    decode ⟨.seq, 0b00⟩ = .ok .start ∧
    exec .start s = .next
      { s with sdaLatch := false, sdaDrv := .drivenLow, sclLatch := false, sclDrv := .drivenLow,
               trace := s.trace ++ [.sda0, .d1, .scl0] } ∧
    l1From Drivers.idle [.sda0, .d1, .scl0] = [.sda0, .scl0] ∧ l2 [.sda0, .d1, .scl0] = [.s]

/-- R131: five events, from every state; the bus is idle after it; entered with SCL low it is the symbol
`P`, whether SDA is released or already low. The five events are the spec's decision D5 (entry 20). That
STOP runs from every state is the model's choice (entry 30). -/
def Obligations.StopRaisesSdaWhileSclIsHigh : Prop :=
  ∀ s : State,
    decode ⟨.seq, 0b01⟩ = .ok .stop ∧
    exec .stop s = .next
      { s with sdaLatch := false, sdaDrv := .released, sclDrv := .released,
               trace := s.trace ++ [.sda0, .d1, .scl1, .d1, .sda1] } ∧
    (∀ sda, l2From ⟨⟨.drivenLow, sda⟩, none⟩ [.sda0, .d1, .scl1, .d1, .sda1] = [.p]) ∧
    l1From ⟨.drivenLow, .released⟩ [.sda0, .d1, .scl1, .d1, .sda1] = [.sda0, .scl1, .sda1]

/-- R142, R143, R141: TXBYTE of any byte from any state: its 48 events, one sample into ACKBIT, and
nothing else. The SDA latch is cleared unless every bit is 1, since only SDA_LOW writes it. That the
entry condition is not checked is the model's choice (entry 30); `sample` is the model's own register
(entry 17). -/
def Obligations.TxByteSendsEightBitsThenReadsAck : Prop :=
  ∀ s : State,
    exec .txbyte s = .next
      { s with
        sdaDrv := .released, sclDrv := .drivenLow, sdaLatch := s.sdaLatch && s.shift == 0xFF#8,
        sclLatch := false, shift := 0, bitcnt := 0, ackbit := s.upcoming 0, sample := s.upcoming 0,
        answers := s.answers.drop 1, samples := s.samples + 1,
        trace := s.trace ++ txByteEvents s.shift (s.upcoming 0) } ∧
    (txByteEvents s.shift (s.upcoming 0)).length = 48

/-- R144 to R148: RXBYTE from any state: its 56 events, eight samples into SHIFT, the first in bit 7
(R147), nothing of the old SHIFT left, the acknowledge bit from SEND_ACK; a byte sent arrives unchanged.
That the entry condition is not checked is the model's choice (entry 30); `sample` is the model's own
register (entry 17). -/
def Obligations.RxByteReceivesEightBits : Prop :=
  ∀ s : State,
    exec .rxbyte s = .next
      { s with
        sdaDrv := .released, sclDrv := .drivenLow, sdaLatch := s.sdaLatch && !s.sendAck, sclLatch := false,
        shift := byteOf s.upcoming, bitcnt := 0, sample := s.upcoming 7,
        answers := s.answers.drop 8, samples := s.samples + 8,
        trace := s.trace ++ rxByteEvents (byteOf s.upcoming) s.sendAck } ∧
    (rxByteEvents (byteOf s.upcoming) s.sendAck).length = 56 ∧
    bitsOf (byteOf s.upcoming) = (List.range 8).map s.upcoming ∧
    ∀ b : Byte, (List.range 8).map s.upcoming = bitsOf b → byteOf s.upcoming = b

/-- R88, R149, R55: on the wire a byte sequence is nine slots, the eight bits from MSB to LSB and then
the acknowledge bit, and it leaves SCL low and SDA released. -/
def Obligations.ByteSequencesAreNineSlots : Prop :=
  ∀ (b : Byte) (a : Bit) (sda : Drv),
    l2From ⟨⟨.drivenLow, sda⟩, none⟩ (txByteEvents b a) = groupSyms b a ∧
    WireReader.readAll ⟨⟨.drivenLow, sda⟩, none⟩ (txByteEvents b a) = ⟨⟨.drivenLow, .released⟩, none⟩ ∧
    l2From ⟨⟨.drivenLow, sda⟩, none⟩ (rxByteEvents b a) = groupSyms b (!a) ∧
    WireReader.readAll ⟨⟨.drivenLow, sda⟩, none⟩ (rxByteEvents b a) = ⟨⟨.drivenLow, .released⟩, none⟩ ∧
    (txByteEvents b a).count .scl1 = 9 ∧ (rxByteEvents b a).count .scl1 = 9 ∧ (groupSyms b a).length = 9

/-! ### Commands -/

/-- R160, R93: INIT whenever the engine is idle, whatever `INITIALISED` and the operand are; STATUS keeps
its value and stops being valid. SPEED is the operand where that has `SPEED_W` bits, a parameter (entry
1); what it is else is left open (a free value, entry 31). The one-step `done` is the model's choice
(entry 23). That SPEED and OP keep their value after the end is the model's choice (entry 22). -/
def Obligations.InitReleasesAndClears : Prop :=
  ∀ (s : State) (speed : Nat), s.busy = false →
    ∃ latched : BitVec Config.speedW, (speed < 2 ^ Config.speedW → latched = BitVec.ofNat _ speed) ∧
    exec (.init speed) s = .next
      { s with
        op := 0, speed := latched, sdaDrv := .released, sclDrv := .released,
        sdaLatch := false, sclLatch := false, initialised := true, statusValid := false, busy := false,
        seq := Seq.idle, done := true, trace := s.trace ++ [.sda1, .scl1, .lc, .dr] }

/-- R160, law L-14: the operand of INIT changes nothing but SPEED. -/
def Obligations.InitSpeedIsIgnored : Prop :=
  ∀ (s t u : State) (v w : Nat), exec (.init v) s = .next t → exec (.init w) s = .next u →
    { t with speed := u.speed } = u ∧ t.trace = u.trace

/-- R161, R52, R60, R169, R167: a WRITE of `n` bytes from an idle bus: the L0 trace of its frame, cut at
the first byte not acknowledged; the fetches made; the status; and nothing else. What IDX ends with is
left open (entry 22); how answers, trace, strobes and buffers are kept is the model's choice (entries 6,
7, 11). That OP, ADDR, TX_LEN and RX_LEN keep their value after the end, that SHIFT is 0 and SEND_ACK
unchanged, and what `sample` holds, are the model's choice (entries 22 and 17). -/
def Obligations.WriteSendsItsFrame : Prop :=
  ∀ (s : State) (addr n : Nat), addr < 128 → n < 65536 → s.ready → s.tx.holds n = true →
    ∃ ix, exec (.write addr n) s = .next
      { s.transferEnd 1 (allAcked (n + 1) s.upcoming)
          (writeFrameEvents (BitVec.ofNat 7 addr) (s.tx.bytes n) s.upcoming)
          (fetchOps (sentCount (n + 1) s.upcoming)) (sentCount (n + 1) s.upcoming) with
        addr := BitVec.ofNat 7 addr, txLen := BitVec.ofNat 16 n, shift := 0, idx := ix,
        sample := !allAcked (n + 1) s.upcoming }

/-- R162, R53, R54, R60, R169, R167: a READ of `n` bytes: the L0 trace of its frame, the bytes
delivered, the status; `TX` and every other byte of `RX` as before. SHIFT, IDX, SEND_ACK and `sample`
are left open at the end (entry 22). That OP, ADDR, TX_LEN and RX_LEN keep their value after the end is
the model's choice (entry 22). -/
def Obligations.ReadReceivesItsFrame : Prop :=
  ∀ (s : State) (addr n : Nat), addr < 128 → n < 65536 → s.ready → s.rx.wf = true → n ≤ s.rx.size →
    ∃ sh ix sa sm rx', exec (.read addr n) s = .next
      { s.transferEnd 2 (!s.upcoming 0) (readFrameEvents (BitVec.ofNat 7 addr) n s.upcoming)
          (storeOps (deliveredBytes n s.upcoming)) (readSampleCount n s.upcoming) with
        addr := BitVec.ofNat 7 addr, rxLen := BitVec.ofNat 16 n, shift := sh, idx := ix, sendAck := sa,
        sample := sm, rx := rx' } ∧
      Delivered s.rx rx' (deliveredBytes n s.upcoming)

/-- R163, R132: a WRITE_READ whose write phase is acknowledged: the write frame, `DS`, the read frame.
SHIFT, IDX, SEND_ACK and `sample` are left open at the end (entry 22). That OP, ADDR, TX_LEN and RX_LEN
keep their value after the end is the model's choice (entry 22). -/
def Obligations.WriteReadRunsTwoFrames : Prop :=
  ∀ (s : State) (addr m n : Nat), addr < 128 → m < 65536 → n < 65536 → s.ready → s.tx.holds m = true →
    s.rx.wf = true → n ≤ s.rx.size → allAcked (m + 1) s.upcoming = true →
    ∃ sh ix sa sm rx', exec (.writeRead addr m n) s = .next
      { s.transferEnd 3 (!s.upcoming (m + 1))
          (writeFrameEvents (BitVec.ofNat 7 addr) (s.tx.bytes m) s.upcoming ++
            .ds :: readFrameEvents (BitVec.ofNat 7 addr) n fun k => s.upcoming (m + 1 + k))
          (fetchOps (m + 1) ++ storeOps (deliveredBytes n fun k => s.upcoming (m + 1 + k)))
          (m + 1 + readSampleCount n fun k => s.upcoming (m + 1 + k)) with
        addr := BitVec.ofNat 7 addr, txLen := BitVec.ofNat 16 m, rxLen := BitVec.ofNat 16 n, shift := sh,
        idx := ix, sendAck := sa, sample := sm, rx := rx' } ∧
      Delivered s.rx rx' (deliveredBytes n fun k => s.upcoming (m + 1 + k))

/-- R163, R196: a NACK in the write phase ends a WRITE_READ after that phase's STOP: no `DS`, no second
frame, `RX` untouched. What IDX ends with is left open (entry 22). That OP, ADDR, TX_LEN and RX_LEN keep
their value after the end, that SHIFT is 0 and SEND_ACK unchanged, and that `sample` is 1, are the
model's choice (entries 22 and 17). -/
def Obligations.WriteReadStopsAtWriteNack : Prop :=
  ∀ (s : State) (addr m n : Nat), addr < 128 → m < 65536 → n < 65536 → s.ready → s.tx.holds m = true →
    n ≤ s.rx.size → allAcked (m + 1) s.upcoming = false →
    ∃ ix, exec (.writeRead addr m n) s = .next
      { s.transferEnd 3 false (writeFrameEvents (BitVec.ofNat 7 addr) (s.tx.bytes m) s.upcoming)
          (fetchOps (sentCount (m + 1) s.upcoming)) (sentCount (m + 1) s.upcoming) with
        addr := BitVec.ofNat 7 addr, txLen := BitVec.ofNat 16 m, rxLen := BitVec.ofNat 16 n, shift := 0,
        idx := ix, sample := true }

/-- R90, R89, R94, R132, law L-1: the L0 trace of a frame reads on the wire as `S`, its groups, `P`, the
two frames of a WRITE_READ one after the other, and a frame has `2 + 9·(1 + n)` symbols for `n` data
groups. -/
def Obligations.FramesReadAsStartGroupsStop : Prop :=
  ∀ (addr : Addr) (payload : List Byte) (n : Nat) (f g : Nat → Bit),
    l2 (writeFrameEvents addr payload f) = frameSyms (writeGroups addr payload f) ∧
    l2 (readFrameEvents addr n f) = frameSyms (readGroups addr n f) ∧
    l2 (writeFrameEvents addr payload f ++ .ds :: readFrameEvents addr n g) =
      frameSyms (writeGroups addr payload f) ++ frameSyms (readGroups addr n g) ∧
    (∀ groups, (frameSyms groups).length = 2 + 9 * groups.length) ∧
    (readDataGroups n f).length = if f 0 then 0 else n

/-- R197, R191, law L-5: an address byte not acknowledged ends WRITE and READ with `Nack`: on the wire
the address group and nothing more; no fetch, no store. -/
def Obligations.RefusedAddressEndsTheCommand : Prop :=
  ∀ (s : State) (addr n : Nat), addr < 128 → n < 65536 → s.ready → s.upcoming 0 = true →
    (s.tx.holds n = true → ∃ t evs, exec (.write addr n) s = .next t ∧ t.statusPort = some .nack ∧
      t.busIdle ∧ t.tx = s.tx ∧ t.rx = s.rx ∧ t.bufOps = s.bufOps ∧ t.trace = s.trace ++ evs ∧
      l2 evs = frameSyms [(addrByte (BitVec.ofNat 7 addr) false, true)]) ∧
    (n ≤ s.rx.size → ∃ t evs, exec (.read addr n) s = .next t ∧ t.statusPort = some .nack ∧
      t.busIdle ∧ t.tx = s.tx ∧ t.rx = s.rx ∧ t.bufOps = s.bufOps ∧ t.trace = s.trace ++ evs ∧
      l2 evs = frameSyms [(addrByte (BitVec.ofNat 7 addr) true, true)])

/-- R197: `raise Nack` is STOP, `STATUS <- Nack`, the end of the command, and nothing else. The one-step
`done` is the model's choice (entry 23). -/
def Obligations.NackAbortIsStopThenNack : Prop :=
  ∀ s : State, s.raiseNack =
    { s with
      sdaLatch := false, sdaDrv := .released, sclDrv := .released, trace := s.trace ++ stopEvents,
      status := .nack, statusValid := true, busy := false, seq := Seq.idle, done := true }

/-- R167: every command, on every path and from every state, leaves the bus idle, the engine free and
`TX` unchanged. -/
def Obligations.CommandsReturnWithTheBusIdle : Prop :=
  ∀ (s t : State) (addr m n speed : Nat),
    (exec (.init speed) s = .next t ∨ exec (.write addr m) s = .next t ∨ exec (.read addr n) s = .next t ∨
      exec (.writeRead addr m n) s = .next t) →
    t.busIdle ∧ t.busy = false ∧ t.seq = Seq.idle ∧ t.tx = s.tx ∧ t.initialised = true

/-- R164, R62, R51, with decisions D10 to D13: a command is executed exactly when it is accepted (the
refusals are named in BusyAndUninitialisedAreRefused and OperandsAndBuffersAreChecked). The checks of
lengths are the model's choice (entry 12), and so are what a buffer holds (entry 11) and that INIT runs
with an operand wider than its port (entry 31). -/
def Obligations.CommandsRunExactlyWhenAccepted : Prop :=
  ∀ (s : State) (addr m n speed : Nat),
    ((∃ t, exec (.init speed) s = .next t) ↔ s.busy = false) ∧
    ((∃ t, exec (.write addr m) s = .next t) ↔ addr < 128 ∧ m < 65536 ∧ s.ready ∧ s.tx.holds m = true) ∧
    ((∃ t, exec (.read addr n) s = .next t) ↔ addr < 128 ∧ n < 65536 ∧ s.ready ∧ n ≤ s.rx.size) ∧
    ((∃ t, exec (.writeRead addr m n) s = .next t) ↔
      addr < 128 ∧ m < 65536 ∧ n < 65536 ∧ s.ready ∧ s.tx.holds m = true ∧ n ≤ s.rx.size)

/-- R164, D11, D10: with addresses and lengths in range, a busy engine refuses every command and an idle
one that INIT has not run on refuses every transfer. The order of the checks is the model's choice (entry 28). -/
def Obligations.BusyAndUninitialisedAreRefused : Prop :=
  ∀ (s : State) (addr m n speed : Nat), addr < 128 → m < 65536 → n < 65536 →
    (s.busy = true → exec (.init speed) s = .refused .engineBusy ∧
      exec (.write addr m) s = .refused .engineBusy ∧ exec (.read addr n) s = .refused .engineBusy ∧
      exec (.writeRead addr m n) s = .refused .engineBusy) ∧
    (s.busy = false → s.initialised = false → exec (.write addr m) s = .refused .notInitialised ∧
      exec (.read addr n) s = .refused .notInitialised ∧
      exec (.writeRead addr m n) s = .refused .notInitialised)

/-- D12, D13, R51, R62: a transfer with an address or a length that does not fit its port, or a buffer
shorter than its length, is refused under a name of its own. INIT has no such check: an idle engine runs
it with every operand (R93). The checks of lengths and the order of all checks are the model's choice
(entries 12 and 28), and so are what a buffer holds (entry 11) and that INIT runs with an operand wider
than its port (entry 31). -/
def Obligations.OperandsAndBuffersAreChecked : Prop :=
  ∀ (s : State) (addr m n speed : Nat),
    (128 ≤ addr → exec (.write addr m) s = .refused .addressTooWide ∧
      exec (.read addr n) s = .refused .addressTooWide ∧
      exec (.writeRead addr m n) s = .refused .addressTooWide) ∧
    (addr < 128 → 65536 ≤ m → exec (.write addr m) s = .refused .lengthTooWide ∧
      exec (.read addr m) s = .refused .lengthTooWide ∧
      exec (.writeRead addr m n) s = .refused .lengthTooWide ∧
      exec (.writeRead addr n m) s = .refused .lengthTooWide) ∧
    (s.busy = false → ∃ t, exec (.init speed) s = .next t) ∧
    (addr < 128 → m < 65536 → n < 65536 → s.ready → s.tx.holds m = false →
      exec (.write addr m) s = .refused .txBufferShort ∧
      exec (.writeRead addr m n) s = .refused .txBufferShort) ∧
    (addr < 128 → n < 65536 → s.ready → s.rx.size < n → exec (.read addr n) s = .refused .rxBufferShort ∧
      (m < 65536 → s.tx.holds m = true → exec (.writeRead addr m n) s = .refused .rxBufferShort))

/-- R193, R194, U1, U2: no instruction makes STATUS `Error` or `Timeout`. -/
def Obligations.StatusIsNeverErrorNorTimeout : Prop :=
  ∀ (i : Instr) (s t : State), exec i s = .next t → t.status = s.status ∨ t.status = .ok ∨ t.status = .nack

/-- R161, R162, R60, R166: events and samples of frames whose bytes are acknowledged, and of a refused
address. -/
def Obligations.FrameEventAndSampleCounts : Prop :=
  ∀ (addr : Addr) (payload : List Byte) (n : Nat) (f : Nat → Bit),
    (allAcked (payload.length + 1) f = true →
      (writeFrameEvents addr payload f).length = 56 + 48 * payload.length ∧
      sentCount (payload.length + 1) f = payload.length + 1) ∧
    (f 0 = false → (readFrameEvents addr n f).length = 56 + 56 * n ∧ readSampleCount n f = 1 + 8 * n) ∧
    (f 0 = true → (writeFrameEvents addr payload f).length = 56 ∧ (readFrameEvents addr n f).length = 56 ∧
      sentCount (payload.length + 1) f = 1 ∧ readSampleCount n f = 1)

/-- R231, R150, R134: the least durations of the byte sequences and of whole frames. The open durations
are free values (entry 18). -/
def Obligations.FrameDurationsAreBounded : Prop :=
  ∀ (addr : Addr) (b : Byte) (a : Bit) (payload : List Byte) (n : Nat) (f : Nat → Bit),
    traceTime (txByteEvents b a) = 19 * Config.tQ + Config.tPad ∧
    traceTime (rxByteEvents b a) = 35 * Config.tQ + 8 * Config.tPad ∧
    (allAcked (payload.length + 1) f = true → traceTime (writeFrameEvents addr payload f) =
      (22 + 19 * payload.length) * Config.tQ + (payload.length + 1) * Config.tPad) ∧
    (f 0 = false → traceTime (readFrameEvents addr n f) =
      (22 + 35 * n) * Config.tQ + (1 + 8 * n) * Config.tPad) ∧
    (f 0 = true → traceTime (writeFrameEvents addr payload f) = 22 * Config.tQ + Config.tPad ∧
      traceTime (readFrameEvents addr n f) = 22 * Config.tQ + Config.tPad) ∧
    1000000 ≤ traceTime initEvents

/-- R166: every command ends within a bound on its events. -/
def Obligations.CommandsEndWithinTheirBounds : Prop :=
  ∀ (s t : State) (addr m n speed : Nat),
    (exec (.init speed) s = .next t → t.trace.length = s.trace.length + 4) ∧
    (exec (.write addr m) s = .next t → t.trace.length ≤ s.trace.length + 3145736) ∧
    (exec (.read addr n) s = .next t → t.trace.length ≤ s.trace.length + 3670016) ∧
    (exec (.writeRead addr m n) s = .next t → t.trace.length ≤ s.trace.length + (3145736 + 3670016 + 1))

/-! ### Wire formats and status codes -/

/-- R85: the address byte is `{ADDR, RW}`, which is `2·ADDR + RW` and loses nothing. -/
def Obligations.AddressByteIsAddressThenDirection : Prop :=
  ∀ (a : Addr) (rw : Bit),
    (addrByte a rw).toNat = 2 * a.toNat + rw.toNat ∧ (addrByte a rw).getLsbD 0 = rw ∧
    (addrByte a rw).extractLsb' 1 7 = a ∧ bitsOf (addrByte a rw) =
      [a.getLsbD 6, a.getLsbD 5, a.getLsbD 4, a.getLsbD 3, a.getLsbD 2, a.getLsbD 1, a.getLsbD 0, rw]

/-- R85, R88: the byte formats put their byte on the wire, whatever SHIFT held. The model's reading of a
wire format as an operation of the engine is its own (entry 15). `sample` is the model's own register
(entry 17), and no entry condition is checked (entry 30). -/
def Obligations.WireBytesAreTransmitted : Prop :=
  ∀ (s : State) (i : Instr) (b : Byte),
    ((∃ a, i = .addrWrite a ∧ b = addrByte a false) ∨ (∃ a, i = .addrRead a ∧ b = addrByte a true) ∨
      i = .dataByte b) →
    exec i s = .next
      { s with
        sdaDrv := .released, sclDrv := .drivenLow, sdaLatch := s.sdaLatch && b == 0xFF#8,
        sclLatch := false, shift := 0, bitcnt := 0, ackbit := s.upcoming 0, sample := s.upcoming 0,
        answers := s.answers.drop 1, samples := s.samples + 1,
        trace := s.trace ++ txByteEvents b (s.upcoming 0) }

/-- R145, R87: ACK and NACK as the master sends them in slot 9: no sample, no flag. The model's reading
of a wire format as an operation of the engine is its own (entry 15). No entry condition is checked
(entry 30). -/
def Obligations.AckAndNackFillSlotNine : Prop :=
  ∀ s : State,
    exec .ack s = .next
      { s with
        sdaDrv := .released, sclDrv := .drivenLow, sdaLatch := false, sclLatch := false,
        trace := s.trace ++ [.scl0, .sda0, .d1, .scl1, .d2, .scl0, .sda1] } ∧
    exec .nack s = .next
      { s with
        sdaDrv := .released, sclDrv := .drivenLow, sclLatch := false,
        trace := s.trace ++ [.scl0, .sda1, .d1, .scl1, .d2, .scl0, .sda1] } ∧
    l2From ⟨⟨.released, .released⟩, none⟩ [.scl0, .sda0, .d1, .scl1, .d2, .scl0, .sda1] = [.bit false] ∧
    l2From ⟨⟨.released, .released⟩, none⟩ [.scl0, .sda1, .d1, .scl1, .d2, .scl0, .sda1] = [.bit true]

/-- R11, R164: `return s` writes STATUS and ends the command. The model's reading of a status code as an
operation is its own (entry 16). -/
def Obligations.ReturnedStatusEndsTheCommand : Prop :=
  ∀ s : State,
    exec .statusOk s = .next
      { s with status := .ok, statusValid := true, busy := false, seq := Seq.idle, done := true } ∧
    exec .statusNack s = .next
      { s with status := .nack, statusValid := true, busy := false, seq := Seq.idle, done := true } ∧
    statusCode .ok = 0b00#2 ∧ statusCode .error = 0b01#2 ∧ statusCode .timeout = 0b10#2 ∧
    statusCode .nack = 0b11#2

/-- R193, R194: "`Timeout` is never produced", "`Error` is never produced": the engine never issues
them, so they stop by name. The refusal is the model's form of that (entry 16). -/
def Obligations.ErrorAndTimeoutAreNeverProduced : Prop :=
  ∀ s : State,
    exec .statusError s = .refused .statusNeverProduced ∧ exec .statusTimeout s = .refused .statusNeverProduced

/-! ### Steps -/

/-- An idle engine runs the instruction its next call decodes to. The host's moves and the end of the
`done` pulse are the model's choice (entries 8 and 23). -/
def Obligations.StepRunsTheCalledInstruction : Prop :=
  ∀ (s : State) (w : PortWord) (i : Instr) (rest : List Input),
    s.busy = false → s.inbox = .call w :: rest → decode w = .ok i →
    step s = exec i { s with done := false, inbox := rest }

/-- R9, R33: a busy engine's step runs the pin primitive `i` that SEQ names: it adds exactly the event
of `i`, the drivers, latches and answers are those `i` leaves, and nothing the host owns changes but RX.
Inside an event list STEP is one more, and only the bit sampled goes where its rule puts it (R141,
R144); at the end of a list STEP is 0. What SEQ does between events is the model's choice (entry 9). So
is, at the list end that ends a command, that OP, ADDR, TX_LEN, RX_LEN, SPEED and ACKBIT keep their
value (entry 22); `sample` is the model's own register (entry 17), and a wait that is over after the
step is the model's form of the host's moves (entry 8). -/
def Obligations.StepRunsThePrimitiveOfSeq : Prop :=
  ∀ (s : State) (i : Instr), s.busy = true → s.resetPending = false → s.nextPrimitive = some i →
    ∃ u, exec i { s with done := false, inbox := letPass s.inbox } = .next u ∧
      u.trace = s.trace ++ pinEvent (s.upcoming 0) i ∧ (pinEvent (s.upcoming 0) i).length = 1 ∧
      (s.seq.step + 1 < s.eventList.length → step s = .next
        { u with
          seq := { s.seq with step := s.seq.step + 1 },
          ackbit := if s.seq.sub = .txack ∧ s.seq.step = 5 then u.sample else s.ackbit,
          shift := if s.seq.sub = .rxbit ∧ s.seq.step = 4 then shiftInBit s.shift u.sample else s.shift }) ∧
      (s.seq.step + 1 = s.eventList.length → ∀ t, step s = .next t →
        t.seq.step = 0 ∧ t.trace = u.trace ∧ t.drivers = u.drivers ∧ t.sdaLatch = u.sdaLatch ∧
        t.sclLatch = u.sclLatch ∧ t.answers = u.answers ∧ t.samples = u.samples ∧ t.sample = u.sample ∧
        t.ackbit = s.ackbit ∧ t.op = s.op ∧ t.addr = s.addr ∧ t.txLen = s.txLen ∧ t.rxLen = s.rxLen ∧
        t.speed = s.speed ∧ t.tx = s.tx ∧ t.inbox = letPass s.inbox ∧
        (s.seq.sub ≠ .rxack → t.rx = s.rx))

/-- The event lists SEQ walks are those of the tables: INIT (R160), START (R130), STOP (R131), the wait
of WRITE_READ (R163), TXBIT of bit 7 of SHIFT (R140, R142), TXACK (R141), the prologue of RXBYTE (R146),
RXBIT (R144) and RXACK by SEND_ACK (R145). -/
def Obligations.EventListsAreTheTables : Prop :=
  ∀ (s : State) (b : Bit),
    (s.seq.sub = .init → s.eventList.flatMap (pinEvent b) = initEvents) ∧
    (s.seq.sub = .start → s.eventList.flatMap (pinEvent b) = startEvents) ∧
    (s.seq.sub = .stop → s.eventList.flatMap (pinEvent b) = stopEvents) ∧
    (s.seq.sub = .settle → s.eventList.flatMap (pinEvent b) = [.ds]) ∧
    (s.seq.sub = .txbit → s.eventList.flatMap (pinEvent b) = txBitEvents (s.shift.getLsbD 7)) ∧
    (s.seq.sub = .txack → s.eventList.flatMap (pinEvent b) = txAckEvents b) ∧
    (s.seq.sub = .rxPrologue → s.eventList.flatMap (pinEvent b) = [.sda1]) ∧
    (s.seq.sub = .rxbit → s.eventList.flatMap (pinEvent b) = rxBitEvents b) ∧
    (s.seq.sub = .rxack → s.eventList.flatMap (pinEvent b) = rxAckEvents s.sendAck)

/-- R33, R34, R171: where an event list ends, PHASE and the next list are as the rule of the command in
progress says: INIT ends (R160); START leads to the address byte (R161, R162); a data bit to the next or
to the acknowledge clock (R142, R146); an acknowledge clock that read 1 to STOP and Nack, one that read
0 to the next byte, the data phase or STOP (R161, R162); a received byte is stored and the next one
begins or STOP (R162, R53); STOP ends the command (R164, R197) or leads to the wait of WRITE_READ, and
that to its read phase (R163). When a fetch and a store are made is the model's choice (entry 9). The
one-step `done` is too (entry 23). -/
def Obligations.PhaseMovesAsTheCommandSays : Prop :=
  ∀ s t : State, s.busy = true → s.resetPending = false → s.seq.step + 1 = s.eventList.length →
    step s = .next t →
    (s.seq.sub = .init → t.seq = Seq.idle ∧ t.busy = false ∧ t.done = true ∧ t.initialised = true ∧
      t.status = s.status ∧ t.statusValid = s.statusValid) ∧
    (s.seq.sub = .start → t.seq = ⟨.addr, .txbit, 0, s.seq.second⟩ ∧ t.bitcnt = 8 ∧
      t.shift = addrByte s.addr (s.op == 2 || (s.op == 3 && s.seq.second))) ∧
    (s.seq.sub = .txbit → t.shift = s.shift <<< 1 ∧ t.bitcnt = s.bitcnt - 1 ∧
      t.seq = ⟨s.seq.phase, if s.bitcnt = 1 then .txack else .txbit, 0, s.seq.second⟩) ∧
    (s.seq.sub = .txack → s.ackbit = true → t.seq = ⟨.stopNack, .stop, 0, s.seq.second⟩) ∧
    (s.seq.sub = .txack → s.ackbit = false → s.seq.phase = .addr →
      t.idx = 0 ∧ if s.op == 2 || (s.op == 3 && s.seq.second) then s.receivesNext t else s.sendsNext t) ∧
    (s.seq.sub = .txack → s.ackbit = false → s.seq.phase ≠ .addr → t.idx = s.idx + 1 ∧ s.sendsNext t) ∧
    (s.seq.sub = .rxPrologue → t.shift = 0 ∧ t.bitcnt = 8 ∧ t.seq = ⟨.rxdata, .rxbit, 0, s.seq.second⟩) ∧
    (s.seq.sub = .rxbit → t.shift = s.shift ∧ t.bitcnt = s.bitcnt - 1 ∧
      t.seq = ⟨.rxdata, if s.bitcnt = 1 then .rxack else .rxbit, 0, s.seq.second⟩) ∧
    (s.seq.sub = .rxack → t.rx = s.rx.store s.idx.toNat s.shift ∧
      t.bufOps = s.bufOps ++ [.store s.idx s.shift] ∧ t.idx = s.idx + 1 ∧ s.receivesNext t) ∧
    (s.seq.sub = .stop → s.seq.phase = .stopNack → t.ended .nack) ∧
    (s.seq.sub = .stop → s.seq.phase ≠ .stopNack → s.op = 3 → s.seq.second = false →
      t.seq = ⟨.settle, .settle, 0, false⟩ ∧ t.busy = true) ∧
    (s.seq.sub = .stop → s.seq.phase ≠ .stopNack → (s.op ≠ 3 ∨ s.seq.second = true) → t.ended .ok) ∧
    (s.seq.sub = .settle → t.seq = ⟨.start, .start, 0, true⟩)

/-- R164, R83, R32, R81: the step that takes a strobed command accepts it: its operands are latched,
BUSY is 1, STATUS is no longer valid, SEQ is at the first position, and nothing else changes, no event
is added; where the command is not acceptable the step is refused. The host's strobe and the order of
its moves are the model's choice (entry 8), and so is the layout of the word (entry 13). The one-step
`done` is the model's choice too (entry 23). What SPEED latches of an operand wider than `SPEED_W` bits
is left open (a free value, entry 31). -/
def Obligations.StrobedCommandsAreAccepted : Prop :=
  ∀ (s : State) (addr m n speed : Nat) (rest : List Input), s.busy = false → addr < 128 → m < 65536 →
    n < 65536 →
    (∃ latched : BitVec Config.speedW, (speed < 2 ^ Config.speedW → latched = BitVec.ofNat _ speed) ∧
      step { s with inbox := .strobe (encode (.init speed)).bits :: rest } = .next
        { s with op := 0, speed := latched, busy := true, done := false, statusValid := false,
                 seq := ⟨.init, .init, 0, false⟩, inbox := rest }) ∧
    (s.initialised = true → s.tx.holds m = true →
      step { s with inbox := .strobe (encode (.write addr m)).bits :: rest } = .next
        { s with op := 1, addr := BitVec.ofNat 7 addr, txLen := BitVec.ofNat 16 m, busy := true,
                 done := false, statusValid := false, seq := ⟨.start, .start, 0, false⟩, inbox := rest }) ∧
    (s.initialised = true → n ≤ s.rx.size →
      step { s with inbox := .strobe (encode (.read addr n)).bits :: rest } = .next
        { s with op := 2, addr := BitVec.ofNat 7 addr, rxLen := BitVec.ofNat 16 n, busy := true,
                 done := false, statusValid := false, seq := ⟨.start, .start, 0, false⟩, inbox := rest }) ∧
    (s.initialised = true → s.tx.holds m = true → n ≤ s.rx.size →
      step { s with inbox := .strobe (encode (.writeRead addr m n)).bits :: rest } = .next
        { s with op := 3, addr := BitVec.ofNat 7 addr, txLen := BitVec.ofNat 16 m,
                 rxLen := BitVec.ofNat 16 n, busy := true, done := false, statusValid := false,
                 seq := ⟨.start, .start, 0, false⟩, inbox := rest }) ∧
    (¬(s.initialised = true ∧ s.tx.holds m = true) →
      ∃ r, step { s with inbox := .strobe (encode (.write addr m)).bits :: rest } = .refused r) ∧
    (¬(s.initialised = true ∧ n ≤ s.rx.size) →
      ∃ r, step { s with inbox := .strobe (encode (.read addr n)).bits :: rest } = .refused r) ∧
    (¬(s.initialised = true ∧ s.tx.holds m = true ∧ n ≤ s.rx.size) →
      ∃ r, step { s with inbox := .strobe (encode (.writeRead addr m n)).bits :: rest } = .refused r)

/-- R203, R171: an idle engine waits for the host; the host fills `TX` and provides `RX`. The form of
these moves is the model's choice (entries 8, 11 and 27). -/
def Obligations.HostMovesBetweenCommands : Prop :=
  ∀ (s : State) (bytes : List Byte) (size : Nat) (rest : List Input), s.busy = false →
    (s.inbox = [] → step s = .next { s with done := false }) ∧
    (s.inbox = .wait :: rest → step s = .next { s with done := false, inbox := rest }) ∧
    (s.inbox = .loadTx bytes :: rest → ∃ tx', step s = .next { s with done := false, inbox := rest, tx := tx' } ∧
      tx'.wf = true ∧ tx'.size = bytes.length ∧ ∀ i, tx'.read i = bytes[i]?) ∧
    (s.inbox = .giveRx size :: rest → ∃ rx', step s = .next { s with done := false, inbox := rest, rx := rx' } ∧
      rx'.wf = true ∧ rx'.size = size ∧ ∀ i, rx'.read i = none)

/-- R220, R221: `rst_n` releases both lines and gives the reset state, also while a command runs. That
TX, RX, the answers and the host's later moves stay as they were is no rule of the spec but the model's
choice (entry 10), and so is the event list of an idle SEQ (entry 9). Nothing is claimed of the
registers the spec leaves unspecified at reset (entries 2 to 5), nor of the trace. -/
def Obligations.ResetReleasesBothLinesAtOnce : Prop :=
  ∀ (s : State) (rest : List Input), s.inbox = .assertReset :: rest →
    ∃ t, step s = .next t ∧ t.busIdle ∧ t.busy = false ∧ t.initialised = false ∧ t.seq = Seq.idle ∧
      t.statusPort = none ∧ t.tx = s.tx ∧ t.rx = s.rx ∧ t.answers = s.answers ∧ t.inbox = rest

/-- R220, R221, D9: reset is asynchronous: at every point of a running command, after any number `k` of
its `n` primitives short of all of them, `rst_n` can come, and that step gives the reset state. `t` is
where the command ends without it. The host's waits are the model's form of this (entry 8). What the
reset leaves beside R38's values, the buffers and the registers the spec leaves unspecified, is the
model's choice (entries 2 to 5, 10 and 23). -/
def Obligations.ResetReachesEveryPointOfACommand : Prop :=
  ∀ (s t : State) (i : Instr) (rest : List Input) (k : Nat),
    (encode i).format = .cmd → i.wellFormed = true → s.busy = false →
    step { s with inbox := .call (encode i) :: rest } = .next t → s.trace.length + k < t.trace.length →
    ∃ u, stepN (k + 1)
        { s with inbox := .strobe (encode i).bits :: (List.replicate k .wait ++ .assertReset :: rest) } =
          .next u ∧
      u.busy = true ∧ u.trace = t.trace.take (s.trace.length + k) ∧ step u = .next (u.applyReset rest)

/-- R164, vector V-X4: what the host presents while the engine is busy is not accepted, and the running
command is unaffected; only a wait of the host's is over. The list of the host's moves is the model's
choice (entry 8). -/
def Obligations.CommandsWaitWhileBusy : Prop :=
  ∀ (s t : State), s.busy = true → s.resetPending = false → step s = .next t →
    ((∀ rest, s.inbox ≠ .wait :: rest) → t.inbox = s.inbox) ∧
    (∀ rest, s.inbox = .wait :: rest → t.inbox = rest) ∧
    step { s with inbox := [] } = .next { t with inbox := [] }

/-! ### Legal states -/

/-- R38, R220: the state after reset: the drivers released, `INITIALISED` and `BUSY` 0, SEQ idle, STATUS
not valid; and it is a legal state. SECOND and the event list in SEQ idle are the model's choice (entry
9). -/
def Obligations.ResetStateIsLegal : Prop :=
  State.reset.Inv ∧ State.reset.busIdle ∧ State.reset.busy = false ∧ State.reset.initialised = false ∧
    State.reset.seq = Seq.idle ∧ State.reset.statusPort = none

/-- Every step from a legal state leads to a legal state: bus idle between commands (R21), the drivers
of the tables inside one (R33, R130, R131, R140 to R145), latches 0 after INIT (R24), a valid status
`Ok` or `Nack` (R193, R194), buffers in canonical form. The positions of SEQ are the model's (entry 9),
and so are the host's moves (entries 8 and 25). -/
def Obligations.StepsKeepLegalStates : Prop :=
  ∀ s t : State, s.Inv → step s = .next t → t.Inv

/-- R22, law L-9: while a command runs, a step changes SDA with SCL released only as the first event of
START, falling, or the last of STOP, rising. -/
def Obligations.SdaChangesOnlyInStartAndStop : Prop :=
  ∀ s t : State, s.Inv → s.busy = true → s.resetPending = false → step s = .next t →
    s.sdaDrv ≠ t.sdaDrv → s.sclDrv = .released →
    (s.seq.sub = .start ∧ s.seq.step = 0 ∧ t.sdaDrv = .drivenLow) ∨
      (s.seq.sub = .stop ∧ s.seq.step = 4 ∧ t.sdaDrv = .released)

/-- R114, R236, law L-15: every sample of a running command is taken with both lines released. -/
def Obligations.SamplesAreTakenWithLinesReleased : Prop :=
  ∀ s : State, s.Inv → s.busy = true → s.nextPrimitive = some .sdaSample → s.busIdle

/-- R229, R24, law L-16: from a legal state no step makes a pad drive with its latch at 1. -/
def Obligations.NoPadGlitches : Prop :=
  ∀ s t : State, s.Inv → step s = .next t → glitches s t = false

/-- R199: from a legal state a running command never stops: each step takes it on. -/
def Obligations.RunningCommandsNeverStop : Prop :=
  ∀ s : State, s.Inv → s.busy = true → ∃ t, step s = .next t

/-- R33, R9: a command strobed on the port and run one primitive a step ends, after as many steps as it
has events and the one that accepts it, in the very state the call ends in; the host may wait `k` of
those steps, or be about to make another move than `rst_n`. That both renderings are in the model is its
choice (entries 8 and 9). -/
def Obligations.StrobedCommandsEndAsCalled : Prop :=
  ∀ (s t : State) (i : Instr) (rest : List Input) (k : Nat),
    (encode i).format = .cmd → i.wellFormed = true → s.busy = false →
    step { s with inbox := .call (encode i) :: rest } = .next t → s.trace.length + k ≤ t.trace.length →
    (s.trace.length + k = t.trace.length ∨
      State.resetPending { s with inbox := rest } = false ∧ letPass rest = rest) →
    stepN (t.trace.length - s.trace.length + 1)
      { s with inbox := .strobe (encode i).bits :: (List.replicate k .wait ++ rest) } = .next t

/-! ### Encodings -/

/-- Decoding the word of a well-formed instruction gives the instruction: every operand at every value
of its range (R82 to R85, R88, R91, R92). The layout of a command's fields and of `dly_kind` on one
word is the model's choice (entry 13). -/
def Obligations.DecodeInvertsEncode : Prop :=
  ∀ i : Instr, i.wellFormed = true → decode (encode i) = .ok i

/-- A decoded instruction is well formed, and its own word decodes to it: no operand of a word is read
out of range (R62, R83). The layout of a word is the model's choice (entry 13). -/
def Obligations.DecodedInstructionsAreWellFormed : Prop :=
  ∀ (w : PortWord) (i : Instr), decode w = .ok i →
    i.wellFormed = true ∧ (encode i).format = w.format ∧ decode (encode i) = .ok i

/-- R93, R92, R82: reserved codes are refused by name, whatever else the word holds, and a call of such
a word is no step. The layout of a word is the model's choice (entry 13). -/
def Obligations.ReservedCodesAreRefused : Prop :=
  ∀ (w : PortWord) (s : State) (rest : List Input),
    (w.format = .cmd → 4 ≤ w.cmdOp.toNat →
      decode w = .error (.reservedOperation w.cmdOp)) ∧
    (w.format = .pin → w.bits < 64 → w.pinCode = 0b111#3 → decode w = .error .reservedPinCode) ∧
    (w.format = .pin → w.bits < 64 → w.pinCode = 0b101#3 → 5 ≤ w.dlyKind.toNat →
      decode w = .error (.reservedDelayKind w.dlyKind)) ∧
    (s.busy = false → s.inbox = .call w :: rest → w.format = .cmd → 4 ≤ w.cmdOp.toNat →
      step s = .refused (.undecodable (.reservedOperation w.cmdOp)))

/-- R92, R114, R115: DELAY of kind 2, pad settling, called by itself, is the wait of `T_PAD`: it completes,
adds no event and changes nothing but that the call is over. That it can be called at all, and the place
of `dly_kind` in the word, are the model's choice (entries 26, 25 and 13). -/
def Obligations.PadSettlingIsAWaitWithoutEvent : Prop :=
  ∀ (w : PortWord) (s : State) (rest : List Input),
    w.format = .pin → w.bits < 64 → w.pinCode = 0b101#3 → w.dlyKind = 2#3 →
    s.busy = false → s.inbox = .call w :: rest →
    step s = .next { s with done := false, inbox := rest }

/-- R82, R84, R85, R88, R91: words written out from the spec's codes. The layout of a command's fields
and of `dly_kind` on one word is the model's choice (entry 13). -/
def Obligations.WordsOfTheSpecDecode : Prop :=
  decode ⟨.cmd, 0b000⟩ = .ok (.init 0) ∧
  decode ⟨.cmd, 0b0000000000000001_1010101_001⟩ = .ok (.write 0x55 1) ∧
  decode ⟨.cmd, 0b0000000000000010_0000000000000000_1010101_010⟩ = .ok (.read 0x55 2) ∧
  decode ⟨.cmd, 0b0000000000000001_0000000000000001_1010101_011⟩ = .ok (.writeRead 0x55 1 1) ∧
  decode ⟨.seq, 0b10⟩ = .ok .txbyte ∧ decode ⟨.seq, 0b11⟩ = .ok .rxbyte ∧
  decode ⟨.pin, 0b011_101⟩ = .ok .delayRecovery ∧
  decode ⟨.wireAddr, 0xAA⟩ = .ok (.addrWrite 0x55) ∧ decode ⟨.wireAddr, 0xAB⟩ = .ok (.addrRead 0x55) ∧
  decode ⟨.wireData, 0xFE⟩ = .ok (.dataByte 0xFE) ∧
  decode ⟨.wireAck, 0⟩ = .ok .ack ∧ decode ⟨.wireAck, 1⟩ = .ok .nack ∧
  decode ⟨.status, 0b11⟩ = .ok .statusNack

/-! ### Buffers and flags -/

/-- R53, R58: a store writes its byte, leaves every other byte alone, and keeps the canonical form. The
form of a buffer is the model's choice (entry 11). -/
def Obligations.StoreWritesOneByte : Prop :=
  ∀ (b : Buffer) (i j : Nat) (v : Byte), b.wf = true →
    (b.store i v).read j = (if j = i then some v else b.read j) ∧ (b.store i v).size = b.size ∧
    (i < b.size → (b.store i v).wf = true)

/-- R86, law L-4: SEND_ACK is 1 for every byte of a read but the last; an addition never wraps. -/
def Obligations.EveryByteButTheLastIsAcknowledged : Prop :=
  ∀ i len : Nat, len < 65536 → i < len →
    sendAckFor (BitVec.ofNat 16 i) (BitVec.ofNat 16 len) = decide (i + 1 < len)
end

