-- ==== Sys2Proof/Laws/Operands.lean ====
section
/-! SUPPORT. The bit-level laws: the order of bits in and out of SHIFT, the answers still to come. -/

namespace Sys2Proof.Machine

/-- An operand of `SPEED_W` bits is latched as it is (R160). -/
theorem latchedSpeed_of_lt {v : Nat} (h : v < 2 ^ Config.speedW) : latchedSpeed v = BitVec.ofNat _ v := if_pos h

@[simp] theorem lineLevel_released (b : Bit) : lineLevel .released b = b := rfl

@[simp] theorem lineLevel_drivenLow (b : Bit) : lineLevel .drivenLow b = false := rfl

/-- The answers still to come depend on the list and the count only. -/
theorem upcoming_congr {s t : State} {n : Nat} (h1 : t.answers = s.answers.drop n)
    (h2 : t.samples = s.samples + n) (k : Nat) : t.upcoming k = s.upcoming (n + k) := by
  simp [State.upcoming, h1, h2, Nat.add_assoc]

theorem getLsbD_shiftOutBit (sh : Byte) (i : Nat) (hi : i < 7) :
    (shiftOutBit sh).getLsbD (i + 1) = sh.getLsbD i := by
  simp [shiftOutBit]
  omega

/-- The first bit out, then those of the byte shifted once (R142). -/
theorem bitsOf_shiftOut (sh : Byte) :
    bitsOf sh = topBit sh :: (bitsOf (shiftOutBit sh)).take 7 := by
  simp only [bitsOf, topBit, List.take, List.cons.injEq, and_true, true_and]
  refine ⟨?_, ?_, ?_, ?_, ?_, ?_, ?_⟩ <;> exact (getLsbD_shiftOutBit sh _ (by omega)).symm

/-- The `n` first bits out. -/
theorem take_bitsOf_succ (sh : Byte) (n : Nat) (hn : n < 8) :
    (bitsOf sh).take (n + 1) = topBit sh :: (bitsOf (shiftOutBit sh)).take n := by
  rw [bitsOf_shiftOut sh, List.take_succ_cons, List.take_take]
  congr 2
  omega

/-- After eight shifts nothing is left (R142). -/
theorem shiftOut_eight (sh : Byte) :
    shiftOutBit (shiftOutBit (shiftOutBit (shiftOutBit (shiftOutBit (shiftOutBit (shiftOutBit
      (shiftOutBit sh))))))) = 0 := by
  ext i hi
  simp [shiftOutBit]

theorem getLsbD_shiftInBit_zero (sh : Byte) (b : Bit) : (shiftInBit sh b).getLsbD 0 = b := by
  simp [shiftInBit]

theorem getLsbD_shiftInBit_succ (sh : Byte) (b : Bit) (i : Nat) (hi : i < 7) :
    (shiftInBit sh b).getLsbD (i + 1) = sh.getLsbD i := by
  simp [shiftInBit, hi]

/-- The byte of eight samples, the first in bit 7 (R147). -/
theorem bitsOf_byteOf (f : Nat → Bit) : bitsOf (byteOf f) = (List.range 8).map f := by
  simp only [bitsOf, byteOf, List.range, List.range.loop, List.foldl, List.map]
  simp only [getLsbD_shiftInBit_zero, getLsbD_shiftInBit_succ, Nat.reduceLT]

/-- What eight shifts in leave, whatever SHIFT held (R147). -/
theorem byteOf_eq_foldl (sh : Byte) (f : Nat → Bit) :
    (List.range 8).foldl (fun x k => shiftInBit x (f k)) sh = byteOf f := by
  apply BitVec.eq_of_getLsbD_eq
  intro i hi
  simp only [byteOf, List.range, List.range.loop, List.foldl]
  have : i = 0 ∨ i = 1 ∨ i = 2 ∨ i = 3 ∨ i = 4 ∨ i = 5 ∨ i = 6 ∨ i = 7 := by omega
  rcases this with rfl | rfl | rfl | rfl | rfl | rfl | rfl | rfl <;>
    simp only [getLsbD_shiftInBit_zero, getLsbD_shiftInBit_succ, Nat.reduceLT]

theorem byteOf_congr {f g : Nat → Bit} (h : ∀ k, k < 8 → f k = g k) : byteOf f = byteOf g := by
  simp [byteOf, List.range, List.range.loop, h]

end Sys2Proof.Machine
end

