-- ==== Sys2Proof/Laws/State.lean ====
section
/-! SUPPORT. One lemma per field per update of State: what each named operation does to each field, so
that no proof unfolds a record update. -/

namespace Sys2Proof.Machine

/-! ### emit -/

@[simp] theorem emit_sdaDrv (e : Event) (s : State) : (s.emit e).sdaDrv = s.sdaDrv := rfl
@[simp] theorem emit_sclDrv (e : Event) (s : State) : (s.emit e).sclDrv = s.sclDrv := rfl
@[simp] theorem emit_sdaLatch (e : Event) (s : State) : (s.emit e).sdaLatch = s.sdaLatch := rfl
@[simp] theorem emit_sclLatch (e : Event) (s : State) : (s.emit e).sclLatch = s.sclLatch := rfl
@[simp] theorem emit_shift (e : Event) (s : State) : (s.emit e).shift = s.shift := rfl
@[simp] theorem emit_bitcnt (e : Event) (s : State) : (s.emit e).bitcnt = s.bitcnt := rfl
@[simp] theorem emit_idx (e : Event) (s : State) : (s.emit e).idx = s.idx := rfl
@[simp] theorem emit_ackbit (e : Event) (s : State) : (s.emit e).ackbit = s.ackbit := rfl
@[simp] theorem emit_sendAck (e : Event) (s : State) : (s.emit e).sendAck = s.sendAck := rfl
@[simp] theorem emit_op (e : Event) (s : State) : (s.emit e).op = s.op := rfl
@[simp] theorem emit_addr (e : Event) (s : State) : (s.emit e).addr = s.addr := rfl
@[simp] theorem emit_txLen (e : Event) (s : State) : (s.emit e).txLen = s.txLen := rfl
@[simp] theorem emit_rxLen (e : Event) (s : State) : (s.emit e).rxLen = s.rxLen := rfl
@[simp] theorem emit_speed (e : Event) (s : State) : (s.emit e).speed = s.speed := rfl
@[simp] theorem emit_status (e : Event) (s : State) : (s.emit e).status = s.status := rfl
@[simp] theorem emit_statusValid (e : Event) (s : State) : (s.emit e).statusValid = s.statusValid := rfl
@[simp] theorem emit_busy (e : Event) (s : State) : (s.emit e).busy = s.busy := rfl
@[simp] theorem emit_initialised (e : Event) (s : State) : (s.emit e).initialised = s.initialised := rfl
@[simp] theorem emit_seq (e : Event) (s : State) : (s.emit e).seq = s.seq := rfl
@[simp] theorem emit_done (e : Event) (s : State) : (s.emit e).done = s.done := rfl
@[simp] theorem emit_sample (e : Event) (s : State) : (s.emit e).sample = s.sample := rfl
@[simp] theorem emit_tx (e : Event) (s : State) : (s.emit e).tx = s.tx := rfl
@[simp] theorem emit_rx (e : Event) (s : State) : (s.emit e).rx = s.rx := rfl
@[simp] theorem emit_answers (e : Event) (s : State) : (s.emit e).answers = s.answers := rfl
@[simp] theorem emit_samples (e : Event) (s : State) : (s.emit e).samples = s.samples := rfl
@[simp] theorem emit_trace (e : Event) (s : State) : (s.emit e).trace = s.trace ++ [e] := rfl
@[simp] theorem emit_bufOps (e : Event) (s : State) : (s.emit e).bufOps = s.bufOps := rfl
@[simp] theorem emit_inbox (e : Event) (s : State) : (s.emit e).inbox = s.inbox := rfl

/-! ### strobeBuf -/

@[simp] theorem strobeBuf_sdaDrv (o : BufOp) (s : State) : (s.strobeBuf o).sdaDrv = s.sdaDrv := rfl
@[simp] theorem strobeBuf_sclDrv (o : BufOp) (s : State) : (s.strobeBuf o).sclDrv = s.sclDrv := rfl
@[simp] theorem strobeBuf_sdaLatch (o : BufOp) (s : State) : (s.strobeBuf o).sdaLatch = s.sdaLatch := rfl
@[simp] theorem strobeBuf_sclLatch (o : BufOp) (s : State) : (s.strobeBuf o).sclLatch = s.sclLatch := rfl
@[simp] theorem strobeBuf_shift (o : BufOp) (s : State) : (s.strobeBuf o).shift = s.shift := rfl
@[simp] theorem strobeBuf_bitcnt (o : BufOp) (s : State) : (s.strobeBuf o).bitcnt = s.bitcnt := rfl
@[simp] theorem strobeBuf_idx (o : BufOp) (s : State) : (s.strobeBuf o).idx = s.idx := rfl
@[simp] theorem strobeBuf_ackbit (o : BufOp) (s : State) : (s.strobeBuf o).ackbit = s.ackbit := rfl
@[simp] theorem strobeBuf_sendAck (o : BufOp) (s : State) : (s.strobeBuf o).sendAck = s.sendAck := rfl
@[simp] theorem strobeBuf_op (o : BufOp) (s : State) : (s.strobeBuf o).op = s.op := rfl
@[simp] theorem strobeBuf_addr (o : BufOp) (s : State) : (s.strobeBuf o).addr = s.addr := rfl
@[simp] theorem strobeBuf_txLen (o : BufOp) (s : State) : (s.strobeBuf o).txLen = s.txLen := rfl
@[simp] theorem strobeBuf_rxLen (o : BufOp) (s : State) : (s.strobeBuf o).rxLen = s.rxLen := rfl
@[simp] theorem strobeBuf_speed (o : BufOp) (s : State) : (s.strobeBuf o).speed = s.speed := rfl
@[simp] theorem strobeBuf_status (o : BufOp) (s : State) : (s.strobeBuf o).status = s.status := rfl
@[simp] theorem strobeBuf_statusValid (o : BufOp) (s : State) : (s.strobeBuf o).statusValid = s.statusValid := rfl
@[simp] theorem strobeBuf_busy (o : BufOp) (s : State) : (s.strobeBuf o).busy = s.busy := rfl
@[simp] theorem strobeBuf_initialised (o : BufOp) (s : State) : (s.strobeBuf o).initialised = s.initialised := rfl
@[simp] theorem strobeBuf_seq (o : BufOp) (s : State) : (s.strobeBuf o).seq = s.seq := rfl
@[simp] theorem strobeBuf_done (o : BufOp) (s : State) : (s.strobeBuf o).done = s.done := rfl
@[simp] theorem strobeBuf_sample (o : BufOp) (s : State) : (s.strobeBuf o).sample = s.sample := rfl
@[simp] theorem strobeBuf_tx (o : BufOp) (s : State) : (s.strobeBuf o).tx = s.tx := rfl
@[simp] theorem strobeBuf_rx (o : BufOp) (s : State) : (s.strobeBuf o).rx = s.rx := rfl
@[simp] theorem strobeBuf_answers (o : BufOp) (s : State) : (s.strobeBuf o).answers = s.answers := rfl
@[simp] theorem strobeBuf_samples (o : BufOp) (s : State) : (s.strobeBuf o).samples = s.samples := rfl
@[simp] theorem strobeBuf_trace (o : BufOp) (s : State) : (s.strobeBuf o).trace = s.trace := rfl
@[simp] theorem strobeBuf_bufOps (o : BufOp) (s : State) : (s.strobeBuf o).bufOps = s.bufOps ++ [o] := rfl
@[simp] theorem strobeBuf_inbox (o : BufOp) (s : State) : (s.strobeBuf o).inbox = s.inbox := rfl

/-! ### consumeAnswer -/

@[simp] theorem consumeAnswer_sdaDrv (s : State) : (s.consumeAnswer).sdaDrv = s.sdaDrv := rfl
@[simp] theorem consumeAnswer_sclDrv (s : State) : (s.consumeAnswer).sclDrv = s.sclDrv := rfl
@[simp] theorem consumeAnswer_sdaLatch (s : State) : (s.consumeAnswer).sdaLatch = s.sdaLatch := rfl
@[simp] theorem consumeAnswer_sclLatch (s : State) : (s.consumeAnswer).sclLatch = s.sclLatch := rfl
@[simp] theorem consumeAnswer_shift (s : State) : (s.consumeAnswer).shift = s.shift := rfl
@[simp] theorem consumeAnswer_bitcnt (s : State) : (s.consumeAnswer).bitcnt = s.bitcnt := rfl
@[simp] theorem consumeAnswer_idx (s : State) : (s.consumeAnswer).idx = s.idx := rfl
@[simp] theorem consumeAnswer_ackbit (s : State) : (s.consumeAnswer).ackbit = s.ackbit := rfl
@[simp] theorem consumeAnswer_sendAck (s : State) : (s.consumeAnswer).sendAck = s.sendAck := rfl
@[simp] theorem consumeAnswer_op (s : State) : (s.consumeAnswer).op = s.op := rfl
@[simp] theorem consumeAnswer_addr (s : State) : (s.consumeAnswer).addr = s.addr := rfl
@[simp] theorem consumeAnswer_txLen (s : State) : (s.consumeAnswer).txLen = s.txLen := rfl
@[simp] theorem consumeAnswer_rxLen (s : State) : (s.consumeAnswer).rxLen = s.rxLen := rfl
@[simp] theorem consumeAnswer_speed (s : State) : (s.consumeAnswer).speed = s.speed := rfl
@[simp] theorem consumeAnswer_status (s : State) : (s.consumeAnswer).status = s.status := rfl
@[simp] theorem consumeAnswer_statusValid (s : State) : (s.consumeAnswer).statusValid = s.statusValid := rfl
@[simp] theorem consumeAnswer_busy (s : State) : (s.consumeAnswer).busy = s.busy := rfl
@[simp] theorem consumeAnswer_initialised (s : State) : (s.consumeAnswer).initialised = s.initialised := rfl
@[simp] theorem consumeAnswer_seq (s : State) : (s.consumeAnswer).seq = s.seq := rfl
@[simp] theorem consumeAnswer_done (s : State) : (s.consumeAnswer).done = s.done := rfl
@[simp] theorem consumeAnswer_sample (s : State) : (s.consumeAnswer).sample = s.sample := rfl
@[simp] theorem consumeAnswer_tx (s : State) : (s.consumeAnswer).tx = s.tx := rfl
@[simp] theorem consumeAnswer_rx (s : State) : (s.consumeAnswer).rx = s.rx := rfl
@[simp] theorem consumeAnswer_answers (s : State) : (s.consumeAnswer).answers = s.answers.tail := rfl
@[simp] theorem consumeAnswer_samples (s : State) : (s.consumeAnswer).samples = s.samples + 1 := rfl
@[simp] theorem consumeAnswer_trace (s : State) : (s.consumeAnswer).trace = s.trace := rfl
@[simp] theorem consumeAnswer_bufOps (s : State) : (s.consumeAnswer).bufOps = s.bufOps := rfl
@[simp] theorem consumeAnswer_inbox (s : State) : (s.consumeAnswer).inbox = s.inbox := rfl

/-! ### sdaLow -/

@[simp] theorem sdaLow_sdaDrv (s : State) : (s.sdaLow).sdaDrv = .drivenLow := rfl
@[simp] theorem sdaLow_sclDrv (s : State) : (s.sdaLow).sclDrv = s.sclDrv := rfl
@[simp] theorem sdaLow_sdaLatch (s : State) : (s.sdaLow).sdaLatch = false := rfl
@[simp] theorem sdaLow_sclLatch (s : State) : (s.sdaLow).sclLatch = s.sclLatch := rfl
@[simp] theorem sdaLow_shift (s : State) : (s.sdaLow).shift = s.shift := rfl
@[simp] theorem sdaLow_bitcnt (s : State) : (s.sdaLow).bitcnt = s.bitcnt := rfl
@[simp] theorem sdaLow_idx (s : State) : (s.sdaLow).idx = s.idx := rfl
@[simp] theorem sdaLow_ackbit (s : State) : (s.sdaLow).ackbit = s.ackbit := rfl
@[simp] theorem sdaLow_sendAck (s : State) : (s.sdaLow).sendAck = s.sendAck := rfl
@[simp] theorem sdaLow_op (s : State) : (s.sdaLow).op = s.op := rfl
@[simp] theorem sdaLow_addr (s : State) : (s.sdaLow).addr = s.addr := rfl
@[simp] theorem sdaLow_txLen (s : State) : (s.sdaLow).txLen = s.txLen := rfl
@[simp] theorem sdaLow_rxLen (s : State) : (s.sdaLow).rxLen = s.rxLen := rfl
@[simp] theorem sdaLow_speed (s : State) : (s.sdaLow).speed = s.speed := rfl
@[simp] theorem sdaLow_status (s : State) : (s.sdaLow).status = s.status := rfl
@[simp] theorem sdaLow_statusValid (s : State) : (s.sdaLow).statusValid = s.statusValid := rfl
@[simp] theorem sdaLow_busy (s : State) : (s.sdaLow).busy = s.busy := rfl
@[simp] theorem sdaLow_initialised (s : State) : (s.sdaLow).initialised = s.initialised := rfl
@[simp] theorem sdaLow_seq (s : State) : (s.sdaLow).seq = s.seq := rfl
@[simp] theorem sdaLow_done (s : State) : (s.sdaLow).done = s.done := rfl
@[simp] theorem sdaLow_sample (s : State) : (s.sdaLow).sample = s.sample := rfl
@[simp] theorem sdaLow_tx (s : State) : (s.sdaLow).tx = s.tx := rfl
@[simp] theorem sdaLow_rx (s : State) : (s.sdaLow).rx = s.rx := rfl
@[simp] theorem sdaLow_answers (s : State) : (s.sdaLow).answers = s.answers := rfl
@[simp] theorem sdaLow_samples (s : State) : (s.sdaLow).samples = s.samples := rfl
@[simp] theorem sdaLow_trace (s : State) : (s.sdaLow).trace = s.trace ++ [.sda0] := rfl
@[simp] theorem sdaLow_bufOps (s : State) : (s.sdaLow).bufOps = s.bufOps := rfl
@[simp] theorem sdaLow_inbox (s : State) : (s.sdaLow).inbox = s.inbox := rfl

/-! ### sclLow -/

@[simp] theorem sclLow_sdaDrv (s : State) : (s.sclLow).sdaDrv = s.sdaDrv := rfl
@[simp] theorem sclLow_sclDrv (s : State) : (s.sclLow).sclDrv = .drivenLow := rfl
@[simp] theorem sclLow_sdaLatch (s : State) : (s.sclLow).sdaLatch = s.sdaLatch := rfl
@[simp] theorem sclLow_sclLatch (s : State) : (s.sclLow).sclLatch = false := rfl
@[simp] theorem sclLow_shift (s : State) : (s.sclLow).shift = s.shift := rfl
@[simp] theorem sclLow_bitcnt (s : State) : (s.sclLow).bitcnt = s.bitcnt := rfl
@[simp] theorem sclLow_idx (s : State) : (s.sclLow).idx = s.idx := rfl
@[simp] theorem sclLow_ackbit (s : State) : (s.sclLow).ackbit = s.ackbit := rfl
@[simp] theorem sclLow_sendAck (s : State) : (s.sclLow).sendAck = s.sendAck := rfl
@[simp] theorem sclLow_op (s : State) : (s.sclLow).op = s.op := rfl
@[simp] theorem sclLow_addr (s : State) : (s.sclLow).addr = s.addr := rfl
@[simp] theorem sclLow_txLen (s : State) : (s.sclLow).txLen = s.txLen := rfl
@[simp] theorem sclLow_rxLen (s : State) : (s.sclLow).rxLen = s.rxLen := rfl
@[simp] theorem sclLow_speed (s : State) : (s.sclLow).speed = s.speed := rfl
@[simp] theorem sclLow_status (s : State) : (s.sclLow).status = s.status := rfl
@[simp] theorem sclLow_statusValid (s : State) : (s.sclLow).statusValid = s.statusValid := rfl
@[simp] theorem sclLow_busy (s : State) : (s.sclLow).busy = s.busy := rfl
@[simp] theorem sclLow_initialised (s : State) : (s.sclLow).initialised = s.initialised := rfl
@[simp] theorem sclLow_seq (s : State) : (s.sclLow).seq = s.seq := rfl
@[simp] theorem sclLow_done (s : State) : (s.sclLow).done = s.done := rfl
@[simp] theorem sclLow_sample (s : State) : (s.sclLow).sample = s.sample := rfl
@[simp] theorem sclLow_tx (s : State) : (s.sclLow).tx = s.tx := rfl
@[simp] theorem sclLow_rx (s : State) : (s.sclLow).rx = s.rx := rfl
@[simp] theorem sclLow_answers (s : State) : (s.sclLow).answers = s.answers := rfl
@[simp] theorem sclLow_samples (s : State) : (s.sclLow).samples = s.samples := rfl
@[simp] theorem sclLow_trace (s : State) : (s.sclLow).trace = s.trace ++ [.scl0] := rfl
@[simp] theorem sclLow_bufOps (s : State) : (s.sclLow).bufOps = s.bufOps := rfl
@[simp] theorem sclLow_inbox (s : State) : (s.sclLow).inbox = s.inbox := rfl

/-! ### sdaRelease -/

@[simp] theorem sdaRelease_sdaDrv (s : State) : (s.sdaRelease).sdaDrv = .released := rfl
@[simp] theorem sdaRelease_sclDrv (s : State) : (s.sdaRelease).sclDrv = s.sclDrv := rfl
@[simp] theorem sdaRelease_sdaLatch (s : State) : (s.sdaRelease).sdaLatch = s.sdaLatch := rfl
@[simp] theorem sdaRelease_sclLatch (s : State) : (s.sdaRelease).sclLatch = s.sclLatch := rfl
@[simp] theorem sdaRelease_shift (s : State) : (s.sdaRelease).shift = s.shift := rfl
@[simp] theorem sdaRelease_bitcnt (s : State) : (s.sdaRelease).bitcnt = s.bitcnt := rfl
@[simp] theorem sdaRelease_idx (s : State) : (s.sdaRelease).idx = s.idx := rfl
@[simp] theorem sdaRelease_ackbit (s : State) : (s.sdaRelease).ackbit = s.ackbit := rfl
@[simp] theorem sdaRelease_sendAck (s : State) : (s.sdaRelease).sendAck = s.sendAck := rfl
@[simp] theorem sdaRelease_op (s : State) : (s.sdaRelease).op = s.op := rfl
@[simp] theorem sdaRelease_addr (s : State) : (s.sdaRelease).addr = s.addr := rfl
@[simp] theorem sdaRelease_txLen (s : State) : (s.sdaRelease).txLen = s.txLen := rfl
@[simp] theorem sdaRelease_rxLen (s : State) : (s.sdaRelease).rxLen = s.rxLen := rfl
@[simp] theorem sdaRelease_speed (s : State) : (s.sdaRelease).speed = s.speed := rfl
@[simp] theorem sdaRelease_status (s : State) : (s.sdaRelease).status = s.status := rfl
@[simp] theorem sdaRelease_statusValid (s : State) : (s.sdaRelease).statusValid = s.statusValid := rfl
@[simp] theorem sdaRelease_busy (s : State) : (s.sdaRelease).busy = s.busy := rfl
@[simp] theorem sdaRelease_initialised (s : State) : (s.sdaRelease).initialised = s.initialised := rfl
@[simp] theorem sdaRelease_seq (s : State) : (s.sdaRelease).seq = s.seq := rfl
@[simp] theorem sdaRelease_done (s : State) : (s.sdaRelease).done = s.done := rfl
@[simp] theorem sdaRelease_sample (s : State) : (s.sdaRelease).sample = s.sample := rfl
@[simp] theorem sdaRelease_tx (s : State) : (s.sdaRelease).tx = s.tx := rfl
@[simp] theorem sdaRelease_rx (s : State) : (s.sdaRelease).rx = s.rx := rfl
@[simp] theorem sdaRelease_answers (s : State) : (s.sdaRelease).answers = s.answers := rfl
@[simp] theorem sdaRelease_samples (s : State) : (s.sdaRelease).samples = s.samples := rfl
@[simp] theorem sdaRelease_trace (s : State) : (s.sdaRelease).trace = s.trace ++ [.sda1] := rfl
@[simp] theorem sdaRelease_bufOps (s : State) : (s.sdaRelease).bufOps = s.bufOps := rfl
@[simp] theorem sdaRelease_inbox (s : State) : (s.sdaRelease).inbox = s.inbox := rfl

/-! ### sclRelease -/

@[simp] theorem sclRelease_sdaDrv (s : State) : (s.sclRelease).sdaDrv = s.sdaDrv := rfl
@[simp] theorem sclRelease_sclDrv (s : State) : (s.sclRelease).sclDrv = .released := rfl
@[simp] theorem sclRelease_sdaLatch (s : State) : (s.sclRelease).sdaLatch = s.sdaLatch := rfl
@[simp] theorem sclRelease_sclLatch (s : State) : (s.sclRelease).sclLatch = s.sclLatch := rfl
@[simp] theorem sclRelease_shift (s : State) : (s.sclRelease).shift = s.shift := rfl
@[simp] theorem sclRelease_bitcnt (s : State) : (s.sclRelease).bitcnt = s.bitcnt := rfl
@[simp] theorem sclRelease_idx (s : State) : (s.sclRelease).idx = s.idx := rfl
@[simp] theorem sclRelease_ackbit (s : State) : (s.sclRelease).ackbit = s.ackbit := rfl
@[simp] theorem sclRelease_sendAck (s : State) : (s.sclRelease).sendAck = s.sendAck := rfl
@[simp] theorem sclRelease_op (s : State) : (s.sclRelease).op = s.op := rfl
@[simp] theorem sclRelease_addr (s : State) : (s.sclRelease).addr = s.addr := rfl
@[simp] theorem sclRelease_txLen (s : State) : (s.sclRelease).txLen = s.txLen := rfl
@[simp] theorem sclRelease_rxLen (s : State) : (s.sclRelease).rxLen = s.rxLen := rfl
@[simp] theorem sclRelease_speed (s : State) : (s.sclRelease).speed = s.speed := rfl
@[simp] theorem sclRelease_status (s : State) : (s.sclRelease).status = s.status := rfl
@[simp] theorem sclRelease_statusValid (s : State) : (s.sclRelease).statusValid = s.statusValid := rfl
@[simp] theorem sclRelease_busy (s : State) : (s.sclRelease).busy = s.busy := rfl
@[simp] theorem sclRelease_initialised (s : State) : (s.sclRelease).initialised = s.initialised := rfl
@[simp] theorem sclRelease_seq (s : State) : (s.sclRelease).seq = s.seq := rfl
@[simp] theorem sclRelease_done (s : State) : (s.sclRelease).done = s.done := rfl
@[simp] theorem sclRelease_sample (s : State) : (s.sclRelease).sample = s.sample := rfl
@[simp] theorem sclRelease_tx (s : State) : (s.sclRelease).tx = s.tx := rfl
@[simp] theorem sclRelease_rx (s : State) : (s.sclRelease).rx = s.rx := rfl
@[simp] theorem sclRelease_answers (s : State) : (s.sclRelease).answers = s.answers := rfl
@[simp] theorem sclRelease_samples (s : State) : (s.sclRelease).samples = s.samples := rfl
@[simp] theorem sclRelease_trace (s : State) : (s.sclRelease).trace = s.trace ++ [.scl1] := rfl
@[simp] theorem sclRelease_bufOps (s : State) : (s.sclRelease).bufOps = s.bufOps := rfl
@[simp] theorem sclRelease_inbox (s : State) : (s.sclRelease).inbox = s.inbox := rfl

/-! ### sdaSample -/

@[simp] theorem sdaSample_sdaDrv (s : State) : (s.sdaSample).sdaDrv = .released := rfl
@[simp] theorem sdaSample_sclDrv (s : State) : (s.sdaSample).sclDrv = s.sclDrv := rfl
@[simp] theorem sdaSample_sdaLatch (s : State) : (s.sdaSample).sdaLatch = s.sdaLatch := rfl
@[simp] theorem sdaSample_sclLatch (s : State) : (s.sdaSample).sclLatch = s.sclLatch := rfl
@[simp] theorem sdaSample_shift (s : State) : (s.sdaSample).shift = s.shift := rfl
@[simp] theorem sdaSample_bitcnt (s : State) : (s.sdaSample).bitcnt = s.bitcnt := rfl
@[simp] theorem sdaSample_idx (s : State) : (s.sdaSample).idx = s.idx := rfl
@[simp] theorem sdaSample_ackbit (s : State) : (s.sdaSample).ackbit = s.ackbit := rfl
@[simp] theorem sdaSample_sendAck (s : State) : (s.sdaSample).sendAck = s.sendAck := rfl
@[simp] theorem sdaSample_op (s : State) : (s.sdaSample).op = s.op := rfl
@[simp] theorem sdaSample_addr (s : State) : (s.sdaSample).addr = s.addr := rfl
@[simp] theorem sdaSample_txLen (s : State) : (s.sdaSample).txLen = s.txLen := rfl
@[simp] theorem sdaSample_rxLen (s : State) : (s.sdaSample).rxLen = s.rxLen := rfl
@[simp] theorem sdaSample_speed (s : State) : (s.sdaSample).speed = s.speed := rfl
@[simp] theorem sdaSample_status (s : State) : (s.sdaSample).status = s.status := rfl
@[simp] theorem sdaSample_statusValid (s : State) : (s.sdaSample).statusValid = s.statusValid := rfl
@[simp] theorem sdaSample_busy (s : State) : (s.sdaSample).busy = s.busy := rfl
@[simp] theorem sdaSample_initialised (s : State) : (s.sdaSample).initialised = s.initialised := rfl
@[simp] theorem sdaSample_seq (s : State) : (s.sdaSample).seq = s.seq := rfl
@[simp] theorem sdaSample_done (s : State) : (s.sdaSample).done = s.done := rfl
@[simp] theorem sdaSample_sample (s : State) : (s.sdaSample).sample = lineLevel .released (s.upcoming 0) := rfl
@[simp] theorem sdaSample_tx (s : State) : (s.sdaSample).tx = s.tx := rfl
@[simp] theorem sdaSample_rx (s : State) : (s.sdaSample).rx = s.rx := rfl
@[simp] theorem sdaSample_answers (s : State) : (s.sdaSample).answers = s.answers.tail := rfl
@[simp] theorem sdaSample_samples (s : State) : (s.sdaSample).samples = s.samples + 1 := rfl
@[simp] theorem sdaSample_trace (s : State) : (s.sdaSample).trace = s.trace ++ [.smp (lineLevel .released (s.upcoming 0))] := rfl
@[simp] theorem sdaSample_bufOps (s : State) : (s.sdaSample).bufOps = s.bufOps := rfl
@[simp] theorem sdaSample_inbox (s : State) : (s.sdaSample).inbox = s.inbox := rfl

/-! ### delayQuarter -/

@[simp] theorem delayQuarter_sdaDrv (s : State) : (s.delayQuarter).sdaDrv = s.sdaDrv := rfl
@[simp] theorem delayQuarter_sclDrv (s : State) : (s.delayQuarter).sclDrv = s.sclDrv := rfl
@[simp] theorem delayQuarter_sdaLatch (s : State) : (s.delayQuarter).sdaLatch = s.sdaLatch := rfl
@[simp] theorem delayQuarter_sclLatch (s : State) : (s.delayQuarter).sclLatch = s.sclLatch := rfl
@[simp] theorem delayQuarter_shift (s : State) : (s.delayQuarter).shift = s.shift := rfl
@[simp] theorem delayQuarter_bitcnt (s : State) : (s.delayQuarter).bitcnt = s.bitcnt := rfl
@[simp] theorem delayQuarter_idx (s : State) : (s.delayQuarter).idx = s.idx := rfl
@[simp] theorem delayQuarter_ackbit (s : State) : (s.delayQuarter).ackbit = s.ackbit := rfl
@[simp] theorem delayQuarter_sendAck (s : State) : (s.delayQuarter).sendAck = s.sendAck := rfl
@[simp] theorem delayQuarter_op (s : State) : (s.delayQuarter).op = s.op := rfl
@[simp] theorem delayQuarter_addr (s : State) : (s.delayQuarter).addr = s.addr := rfl
@[simp] theorem delayQuarter_txLen (s : State) : (s.delayQuarter).txLen = s.txLen := rfl
@[simp] theorem delayQuarter_rxLen (s : State) : (s.delayQuarter).rxLen = s.rxLen := rfl
@[simp] theorem delayQuarter_speed (s : State) : (s.delayQuarter).speed = s.speed := rfl
@[simp] theorem delayQuarter_status (s : State) : (s.delayQuarter).status = s.status := rfl
@[simp] theorem delayQuarter_statusValid (s : State) : (s.delayQuarter).statusValid = s.statusValid := rfl
@[simp] theorem delayQuarter_busy (s : State) : (s.delayQuarter).busy = s.busy := rfl
@[simp] theorem delayQuarter_initialised (s : State) : (s.delayQuarter).initialised = s.initialised := rfl
@[simp] theorem delayQuarter_seq (s : State) : (s.delayQuarter).seq = s.seq := rfl
@[simp] theorem delayQuarter_done (s : State) : (s.delayQuarter).done = s.done := rfl
@[simp] theorem delayQuarter_sample (s : State) : (s.delayQuarter).sample = s.sample := rfl
@[simp] theorem delayQuarter_tx (s : State) : (s.delayQuarter).tx = s.tx := rfl
@[simp] theorem delayQuarter_rx (s : State) : (s.delayQuarter).rx = s.rx := rfl
@[simp] theorem delayQuarter_answers (s : State) : (s.delayQuarter).answers = s.answers := rfl
@[simp] theorem delayQuarter_samples (s : State) : (s.delayQuarter).samples = s.samples := rfl
@[simp] theorem delayQuarter_trace (s : State) : (s.delayQuarter).trace = s.trace ++ [.d1] := rfl
@[simp] theorem delayQuarter_bufOps (s : State) : (s.delayQuarter).bufOps = s.bufOps := rfl
@[simp] theorem delayQuarter_inbox (s : State) : (s.delayQuarter).inbox = s.inbox := rfl

/-! ### delayHalf -/

@[simp] theorem delayHalf_sdaDrv (s : State) : (s.delayHalf).sdaDrv = s.sdaDrv := rfl
@[simp] theorem delayHalf_sclDrv (s : State) : (s.delayHalf).sclDrv = s.sclDrv := rfl
@[simp] theorem delayHalf_sdaLatch (s : State) : (s.delayHalf).sdaLatch = s.sdaLatch := rfl
@[simp] theorem delayHalf_sclLatch (s : State) : (s.delayHalf).sclLatch = s.sclLatch := rfl
@[simp] theorem delayHalf_shift (s : State) : (s.delayHalf).shift = s.shift := rfl
@[simp] theorem delayHalf_bitcnt (s : State) : (s.delayHalf).bitcnt = s.bitcnt := rfl
@[simp] theorem delayHalf_idx (s : State) : (s.delayHalf).idx = s.idx := rfl
@[simp] theorem delayHalf_ackbit (s : State) : (s.delayHalf).ackbit = s.ackbit := rfl
@[simp] theorem delayHalf_sendAck (s : State) : (s.delayHalf).sendAck = s.sendAck := rfl
@[simp] theorem delayHalf_op (s : State) : (s.delayHalf).op = s.op := rfl
@[simp] theorem delayHalf_addr (s : State) : (s.delayHalf).addr = s.addr := rfl
@[simp] theorem delayHalf_txLen (s : State) : (s.delayHalf).txLen = s.txLen := rfl
@[simp] theorem delayHalf_rxLen (s : State) : (s.delayHalf).rxLen = s.rxLen := rfl
@[simp] theorem delayHalf_speed (s : State) : (s.delayHalf).speed = s.speed := rfl
@[simp] theorem delayHalf_status (s : State) : (s.delayHalf).status = s.status := rfl
@[simp] theorem delayHalf_statusValid (s : State) : (s.delayHalf).statusValid = s.statusValid := rfl
@[simp] theorem delayHalf_busy (s : State) : (s.delayHalf).busy = s.busy := rfl
@[simp] theorem delayHalf_initialised (s : State) : (s.delayHalf).initialised = s.initialised := rfl
@[simp] theorem delayHalf_seq (s : State) : (s.delayHalf).seq = s.seq := rfl
@[simp] theorem delayHalf_done (s : State) : (s.delayHalf).done = s.done := rfl
@[simp] theorem delayHalf_sample (s : State) : (s.delayHalf).sample = s.sample := rfl
@[simp] theorem delayHalf_tx (s : State) : (s.delayHalf).tx = s.tx := rfl
@[simp] theorem delayHalf_rx (s : State) : (s.delayHalf).rx = s.rx := rfl
@[simp] theorem delayHalf_answers (s : State) : (s.delayHalf).answers = s.answers := rfl
@[simp] theorem delayHalf_samples (s : State) : (s.delayHalf).samples = s.samples := rfl
@[simp] theorem delayHalf_trace (s : State) : (s.delayHalf).trace = s.trace ++ [.d2] := rfl
@[simp] theorem delayHalf_bufOps (s : State) : (s.delayHalf).bufOps = s.bufOps := rfl
@[simp] theorem delayHalf_inbox (s : State) : (s.delayHalf).inbox = s.inbox := rfl

/-! ### delayRecovery -/

@[simp] theorem delayRecovery_sdaDrv (s : State) : (s.delayRecovery).sdaDrv = s.sdaDrv := rfl
@[simp] theorem delayRecovery_sclDrv (s : State) : (s.delayRecovery).sclDrv = s.sclDrv := rfl
@[simp] theorem delayRecovery_sdaLatch (s : State) : (s.delayRecovery).sdaLatch = s.sdaLatch := rfl
@[simp] theorem delayRecovery_sclLatch (s : State) : (s.delayRecovery).sclLatch = s.sclLatch := rfl
@[simp] theorem delayRecovery_shift (s : State) : (s.delayRecovery).shift = s.shift := rfl
@[simp] theorem delayRecovery_bitcnt (s : State) : (s.delayRecovery).bitcnt = s.bitcnt := rfl
@[simp] theorem delayRecovery_idx (s : State) : (s.delayRecovery).idx = s.idx := rfl
@[simp] theorem delayRecovery_ackbit (s : State) : (s.delayRecovery).ackbit = s.ackbit := rfl
@[simp] theorem delayRecovery_sendAck (s : State) : (s.delayRecovery).sendAck = s.sendAck := rfl
@[simp] theorem delayRecovery_op (s : State) : (s.delayRecovery).op = s.op := rfl
@[simp] theorem delayRecovery_addr (s : State) : (s.delayRecovery).addr = s.addr := rfl
@[simp] theorem delayRecovery_txLen (s : State) : (s.delayRecovery).txLen = s.txLen := rfl
@[simp] theorem delayRecovery_rxLen (s : State) : (s.delayRecovery).rxLen = s.rxLen := rfl
@[simp] theorem delayRecovery_speed (s : State) : (s.delayRecovery).speed = s.speed := rfl
@[simp] theorem delayRecovery_status (s : State) : (s.delayRecovery).status = s.status := rfl
@[simp] theorem delayRecovery_statusValid (s : State) : (s.delayRecovery).statusValid = s.statusValid := rfl
@[simp] theorem delayRecovery_busy (s : State) : (s.delayRecovery).busy = s.busy := rfl
@[simp] theorem delayRecovery_initialised (s : State) : (s.delayRecovery).initialised = s.initialised := rfl
@[simp] theorem delayRecovery_seq (s : State) : (s.delayRecovery).seq = s.seq := rfl
@[simp] theorem delayRecovery_done (s : State) : (s.delayRecovery).done = s.done := rfl
@[simp] theorem delayRecovery_sample (s : State) : (s.delayRecovery).sample = s.sample := rfl
@[simp] theorem delayRecovery_tx (s : State) : (s.delayRecovery).tx = s.tx := rfl
@[simp] theorem delayRecovery_rx (s : State) : (s.delayRecovery).rx = s.rx := rfl
@[simp] theorem delayRecovery_answers (s : State) : (s.delayRecovery).answers = s.answers := rfl
@[simp] theorem delayRecovery_samples (s : State) : (s.delayRecovery).samples = s.samples := rfl
@[simp] theorem delayRecovery_trace (s : State) : (s.delayRecovery).trace = s.trace ++ [.dr] := rfl
@[simp] theorem delayRecovery_bufOps (s : State) : (s.delayRecovery).bufOps = s.bufOps := rfl
@[simp] theorem delayRecovery_inbox (s : State) : (s.delayRecovery).inbox = s.inbox := rfl

/-! ### delaySettle -/

@[simp] theorem delaySettle_sdaDrv (s : State) : (s.delaySettle).sdaDrv = s.sdaDrv := rfl
@[simp] theorem delaySettle_sclDrv (s : State) : (s.delaySettle).sclDrv = s.sclDrv := rfl
@[simp] theorem delaySettle_sdaLatch (s : State) : (s.delaySettle).sdaLatch = s.sdaLatch := rfl
@[simp] theorem delaySettle_sclLatch (s : State) : (s.delaySettle).sclLatch = s.sclLatch := rfl
@[simp] theorem delaySettle_shift (s : State) : (s.delaySettle).shift = s.shift := rfl
@[simp] theorem delaySettle_bitcnt (s : State) : (s.delaySettle).bitcnt = s.bitcnt := rfl
@[simp] theorem delaySettle_idx (s : State) : (s.delaySettle).idx = s.idx := rfl
@[simp] theorem delaySettle_ackbit (s : State) : (s.delaySettle).ackbit = s.ackbit := rfl
@[simp] theorem delaySettle_sendAck (s : State) : (s.delaySettle).sendAck = s.sendAck := rfl
@[simp] theorem delaySettle_op (s : State) : (s.delaySettle).op = s.op := rfl
@[simp] theorem delaySettle_addr (s : State) : (s.delaySettle).addr = s.addr := rfl
@[simp] theorem delaySettle_txLen (s : State) : (s.delaySettle).txLen = s.txLen := rfl
@[simp] theorem delaySettle_rxLen (s : State) : (s.delaySettle).rxLen = s.rxLen := rfl
@[simp] theorem delaySettle_speed (s : State) : (s.delaySettle).speed = s.speed := rfl
@[simp] theorem delaySettle_status (s : State) : (s.delaySettle).status = s.status := rfl
@[simp] theorem delaySettle_statusValid (s : State) : (s.delaySettle).statusValid = s.statusValid := rfl
@[simp] theorem delaySettle_busy (s : State) : (s.delaySettle).busy = s.busy := rfl
@[simp] theorem delaySettle_initialised (s : State) : (s.delaySettle).initialised = s.initialised := rfl
@[simp] theorem delaySettle_seq (s : State) : (s.delaySettle).seq = s.seq := rfl
@[simp] theorem delaySettle_done (s : State) : (s.delaySettle).done = s.done := rfl
@[simp] theorem delaySettle_sample (s : State) : (s.delaySettle).sample = s.sample := rfl
@[simp] theorem delaySettle_tx (s : State) : (s.delaySettle).tx = s.tx := rfl
@[simp] theorem delaySettle_rx (s : State) : (s.delaySettle).rx = s.rx := rfl
@[simp] theorem delaySettle_answers (s : State) : (s.delaySettle).answers = s.answers := rfl
@[simp] theorem delaySettle_samples (s : State) : (s.delaySettle).samples = s.samples := rfl
@[simp] theorem delaySettle_trace (s : State) : (s.delaySettle).trace = s.trace ++ [.ds] := rfl
@[simp] theorem delaySettle_bufOps (s : State) : (s.delaySettle).bufOps = s.bufOps := rfl
@[simp] theorem delaySettle_inbox (s : State) : (s.delaySettle).inbox = s.inbox := rfl

/-! ### latchClear -/

@[simp] theorem latchClear_sdaDrv (s : State) : (s.latchClear).sdaDrv = s.sdaDrv := rfl
@[simp] theorem latchClear_sclDrv (s : State) : (s.latchClear).sclDrv = s.sclDrv := rfl
@[simp] theorem latchClear_sdaLatch (s : State) : (s.latchClear).sdaLatch = false := rfl
@[simp] theorem latchClear_sclLatch (s : State) : (s.latchClear).sclLatch = false := rfl
@[simp] theorem latchClear_shift (s : State) : (s.latchClear).shift = s.shift := rfl
@[simp] theorem latchClear_bitcnt (s : State) : (s.latchClear).bitcnt = s.bitcnt := rfl
@[simp] theorem latchClear_idx (s : State) : (s.latchClear).idx = s.idx := rfl
@[simp] theorem latchClear_ackbit (s : State) : (s.latchClear).ackbit = s.ackbit := rfl
@[simp] theorem latchClear_sendAck (s : State) : (s.latchClear).sendAck = s.sendAck := rfl
@[simp] theorem latchClear_op (s : State) : (s.latchClear).op = s.op := rfl
@[simp] theorem latchClear_addr (s : State) : (s.latchClear).addr = s.addr := rfl
@[simp] theorem latchClear_txLen (s : State) : (s.latchClear).txLen = s.txLen := rfl
@[simp] theorem latchClear_rxLen (s : State) : (s.latchClear).rxLen = s.rxLen := rfl
@[simp] theorem latchClear_speed (s : State) : (s.latchClear).speed = s.speed := rfl
@[simp] theorem latchClear_status (s : State) : (s.latchClear).status = s.status := rfl
@[simp] theorem latchClear_statusValid (s : State) : (s.latchClear).statusValid = s.statusValid := rfl
@[simp] theorem latchClear_busy (s : State) : (s.latchClear).busy = s.busy := rfl
@[simp] theorem latchClear_initialised (s : State) : (s.latchClear).initialised = s.initialised := rfl
@[simp] theorem latchClear_seq (s : State) : (s.latchClear).seq = s.seq := rfl
@[simp] theorem latchClear_done (s : State) : (s.latchClear).done = s.done := rfl
@[simp] theorem latchClear_sample (s : State) : (s.latchClear).sample = s.sample := rfl
@[simp] theorem latchClear_tx (s : State) : (s.latchClear).tx = s.tx := rfl
@[simp] theorem latchClear_rx (s : State) : (s.latchClear).rx = s.rx := rfl
@[simp] theorem latchClear_answers (s : State) : (s.latchClear).answers = s.answers := rfl
@[simp] theorem latchClear_samples (s : State) : (s.latchClear).samples = s.samples := rfl
@[simp] theorem latchClear_trace (s : State) : (s.latchClear).trace = s.trace ++ [.lc] := rfl
@[simp] theorem latchClear_bufOps (s : State) : (s.latchClear).bufOps = s.bufOps := rfl
@[simp] theorem latchClear_inbox (s : State) : (s.latchClear).inbox = s.inbox := rfl

/-! ### captureAck -/

@[simp] theorem captureAck_sdaDrv (s : State) : (s.captureAck).sdaDrv = s.sdaDrv := rfl
@[simp] theorem captureAck_sclDrv (s : State) : (s.captureAck).sclDrv = s.sclDrv := rfl
@[simp] theorem captureAck_sdaLatch (s : State) : (s.captureAck).sdaLatch = s.sdaLatch := rfl
@[simp] theorem captureAck_sclLatch (s : State) : (s.captureAck).sclLatch = s.sclLatch := rfl
@[simp] theorem captureAck_shift (s : State) : (s.captureAck).shift = s.shift := rfl
@[simp] theorem captureAck_bitcnt (s : State) : (s.captureAck).bitcnt = s.bitcnt := rfl
@[simp] theorem captureAck_idx (s : State) : (s.captureAck).idx = s.idx := rfl
@[simp] theorem captureAck_ackbit (s : State) : (s.captureAck).ackbit = s.sample := rfl
@[simp] theorem captureAck_sendAck (s : State) : (s.captureAck).sendAck = s.sendAck := rfl
@[simp] theorem captureAck_op (s : State) : (s.captureAck).op = s.op := rfl
@[simp] theorem captureAck_addr (s : State) : (s.captureAck).addr = s.addr := rfl
@[simp] theorem captureAck_txLen (s : State) : (s.captureAck).txLen = s.txLen := rfl
@[simp] theorem captureAck_rxLen (s : State) : (s.captureAck).rxLen = s.rxLen := rfl
@[simp] theorem captureAck_speed (s : State) : (s.captureAck).speed = s.speed := rfl
@[simp] theorem captureAck_status (s : State) : (s.captureAck).status = s.status := rfl
@[simp] theorem captureAck_statusValid (s : State) : (s.captureAck).statusValid = s.statusValid := rfl
@[simp] theorem captureAck_busy (s : State) : (s.captureAck).busy = s.busy := rfl
@[simp] theorem captureAck_initialised (s : State) : (s.captureAck).initialised = s.initialised := rfl
@[simp] theorem captureAck_seq (s : State) : (s.captureAck).seq = s.seq := rfl
@[simp] theorem captureAck_done (s : State) : (s.captureAck).done = s.done := rfl
@[simp] theorem captureAck_sample (s : State) : (s.captureAck).sample = s.sample := rfl
@[simp] theorem captureAck_tx (s : State) : (s.captureAck).tx = s.tx := rfl
@[simp] theorem captureAck_rx (s : State) : (s.captureAck).rx = s.rx := rfl
@[simp] theorem captureAck_answers (s : State) : (s.captureAck).answers = s.answers := rfl
@[simp] theorem captureAck_samples (s : State) : (s.captureAck).samples = s.samples := rfl
@[simp] theorem captureAck_trace (s : State) : (s.captureAck).trace = s.trace := rfl
@[simp] theorem captureAck_bufOps (s : State) : (s.captureAck).bufOps = s.bufOps := rfl
@[simp] theorem captureAck_inbox (s : State) : (s.captureAck).inbox = s.inbox := rfl

/-! ### setSendAck -/

@[simp] theorem setSendAck_sdaDrv (s : State) : (s.setSendAck).sdaDrv = s.sdaDrv := rfl
@[simp] theorem setSendAck_sclDrv (s : State) : (s.setSendAck).sclDrv = s.sclDrv := rfl
@[simp] theorem setSendAck_sdaLatch (s : State) : (s.setSendAck).sdaLatch = s.sdaLatch := rfl
@[simp] theorem setSendAck_sclLatch (s : State) : (s.setSendAck).sclLatch = s.sclLatch := rfl
@[simp] theorem setSendAck_shift (s : State) : (s.setSendAck).shift = s.shift := rfl
@[simp] theorem setSendAck_bitcnt (s : State) : (s.setSendAck).bitcnt = s.bitcnt := rfl
@[simp] theorem setSendAck_idx (s : State) : (s.setSendAck).idx = s.idx := rfl
@[simp] theorem setSendAck_ackbit (s : State) : (s.setSendAck).ackbit = s.ackbit := rfl
@[simp] theorem setSendAck_sendAck (s : State) : (s.setSendAck).sendAck = sendAckFor s.idx s.rxLen := rfl
@[simp] theorem setSendAck_op (s : State) : (s.setSendAck).op = s.op := rfl
@[simp] theorem setSendAck_addr (s : State) : (s.setSendAck).addr = s.addr := rfl
@[simp] theorem setSendAck_txLen (s : State) : (s.setSendAck).txLen = s.txLen := rfl
@[simp] theorem setSendAck_rxLen (s : State) : (s.setSendAck).rxLen = s.rxLen := rfl
@[simp] theorem setSendAck_speed (s : State) : (s.setSendAck).speed = s.speed := rfl
@[simp] theorem setSendAck_status (s : State) : (s.setSendAck).status = s.status := rfl
@[simp] theorem setSendAck_statusValid (s : State) : (s.setSendAck).statusValid = s.statusValid := rfl
@[simp] theorem setSendAck_busy (s : State) : (s.setSendAck).busy = s.busy := rfl
@[simp] theorem setSendAck_initialised (s : State) : (s.setSendAck).initialised = s.initialised := rfl
@[simp] theorem setSendAck_seq (s : State) : (s.setSendAck).seq = s.seq := rfl
@[simp] theorem setSendAck_done (s : State) : (s.setSendAck).done = s.done := rfl
@[simp] theorem setSendAck_sample (s : State) : (s.setSendAck).sample = s.sample := rfl
@[simp] theorem setSendAck_tx (s : State) : (s.setSendAck).tx = s.tx := rfl
@[simp] theorem setSendAck_rx (s : State) : (s.setSendAck).rx = s.rx := rfl
@[simp] theorem setSendAck_answers (s : State) : (s.setSendAck).answers = s.answers := rfl
@[simp] theorem setSendAck_samples (s : State) : (s.setSendAck).samples = s.samples := rfl
@[simp] theorem setSendAck_trace (s : State) : (s.setSendAck).trace = s.trace := rfl
@[simp] theorem setSendAck_bufOps (s : State) : (s.setSendAck).bufOps = s.bufOps := rfl
@[simp] theorem setSendAck_inbox (s : State) : (s.setSendAck).inbox = s.inbox := rfl

/-! ### shiftOut -/

@[simp] theorem shiftOut_sdaDrv (s : State) : (s.shiftOut).sdaDrv = s.sdaDrv := rfl
@[simp] theorem shiftOut_sclDrv (s : State) : (s.shiftOut).sclDrv = s.sclDrv := rfl
@[simp] theorem shiftOut_sdaLatch (s : State) : (s.shiftOut).sdaLatch = s.sdaLatch := rfl
@[simp] theorem shiftOut_sclLatch (s : State) : (s.shiftOut).sclLatch = s.sclLatch := rfl
@[simp] theorem shiftOut_shift (s : State) : (s.shiftOut).shift = shiftOutBit s.shift := rfl
@[simp] theorem shiftOut_bitcnt (s : State) : (s.shiftOut).bitcnt = s.bitcnt - 1 := rfl
@[simp] theorem shiftOut_idx (s : State) : (s.shiftOut).idx = s.idx := rfl
@[simp] theorem shiftOut_ackbit (s : State) : (s.shiftOut).ackbit = s.ackbit := rfl
@[simp] theorem shiftOut_sendAck (s : State) : (s.shiftOut).sendAck = s.sendAck := rfl
@[simp] theorem shiftOut_op (s : State) : (s.shiftOut).op = s.op := rfl
@[simp] theorem shiftOut_addr (s : State) : (s.shiftOut).addr = s.addr := rfl
@[simp] theorem shiftOut_txLen (s : State) : (s.shiftOut).txLen = s.txLen := rfl
@[simp] theorem shiftOut_rxLen (s : State) : (s.shiftOut).rxLen = s.rxLen := rfl
@[simp] theorem shiftOut_speed (s : State) : (s.shiftOut).speed = s.speed := rfl
@[simp] theorem shiftOut_status (s : State) : (s.shiftOut).status = s.status := rfl
@[simp] theorem shiftOut_statusValid (s : State) : (s.shiftOut).statusValid = s.statusValid := rfl
@[simp] theorem shiftOut_busy (s : State) : (s.shiftOut).busy = s.busy := rfl
@[simp] theorem shiftOut_initialised (s : State) : (s.shiftOut).initialised = s.initialised := rfl
@[simp] theorem shiftOut_seq (s : State) : (s.shiftOut).seq = s.seq := rfl
@[simp] theorem shiftOut_done (s : State) : (s.shiftOut).done = s.done := rfl
@[simp] theorem shiftOut_sample (s : State) : (s.shiftOut).sample = s.sample := rfl
@[simp] theorem shiftOut_tx (s : State) : (s.shiftOut).tx = s.tx := rfl
@[simp] theorem shiftOut_rx (s : State) : (s.shiftOut).rx = s.rx := rfl
@[simp] theorem shiftOut_answers (s : State) : (s.shiftOut).answers = s.answers := rfl
@[simp] theorem shiftOut_samples (s : State) : (s.shiftOut).samples = s.samples := rfl
@[simp] theorem shiftOut_trace (s : State) : (s.shiftOut).trace = s.trace := rfl
@[simp] theorem shiftOut_bufOps (s : State) : (s.shiftOut).bufOps = s.bufOps := rfl
@[simp] theorem shiftOut_inbox (s : State) : (s.shiftOut).inbox = s.inbox := rfl

/-! ### shiftIn -/

@[simp] theorem shiftIn_sdaDrv (s : State) : (s.shiftIn).sdaDrv = s.sdaDrv := rfl
@[simp] theorem shiftIn_sclDrv (s : State) : (s.shiftIn).sclDrv = s.sclDrv := rfl
@[simp] theorem shiftIn_sdaLatch (s : State) : (s.shiftIn).sdaLatch = s.sdaLatch := rfl
@[simp] theorem shiftIn_sclLatch (s : State) : (s.shiftIn).sclLatch = s.sclLatch := rfl
@[simp] theorem shiftIn_shift (s : State) : (s.shiftIn).shift = shiftInBit s.shift s.sample := rfl
@[simp] theorem shiftIn_bitcnt (s : State) : (s.shiftIn).bitcnt = s.bitcnt := rfl
@[simp] theorem shiftIn_idx (s : State) : (s.shiftIn).idx = s.idx := rfl
@[simp] theorem shiftIn_ackbit (s : State) : (s.shiftIn).ackbit = s.ackbit := rfl
@[simp] theorem shiftIn_sendAck (s : State) : (s.shiftIn).sendAck = s.sendAck := rfl
@[simp] theorem shiftIn_op (s : State) : (s.shiftIn).op = s.op := rfl
@[simp] theorem shiftIn_addr (s : State) : (s.shiftIn).addr = s.addr := rfl
@[simp] theorem shiftIn_txLen (s : State) : (s.shiftIn).txLen = s.txLen := rfl
@[simp] theorem shiftIn_rxLen (s : State) : (s.shiftIn).rxLen = s.rxLen := rfl
@[simp] theorem shiftIn_speed (s : State) : (s.shiftIn).speed = s.speed := rfl
@[simp] theorem shiftIn_status (s : State) : (s.shiftIn).status = s.status := rfl
@[simp] theorem shiftIn_statusValid (s : State) : (s.shiftIn).statusValid = s.statusValid := rfl
@[simp] theorem shiftIn_busy (s : State) : (s.shiftIn).busy = s.busy := rfl
@[simp] theorem shiftIn_initialised (s : State) : (s.shiftIn).initialised = s.initialised := rfl
@[simp] theorem shiftIn_seq (s : State) : (s.shiftIn).seq = s.seq := rfl
@[simp] theorem shiftIn_done (s : State) : (s.shiftIn).done = s.done := rfl
@[simp] theorem shiftIn_sample (s : State) : (s.shiftIn).sample = s.sample := rfl
@[simp] theorem shiftIn_tx (s : State) : (s.shiftIn).tx = s.tx := rfl
@[simp] theorem shiftIn_rx (s : State) : (s.shiftIn).rx = s.rx := rfl
@[simp] theorem shiftIn_answers (s : State) : (s.shiftIn).answers = s.answers := rfl
@[simp] theorem shiftIn_samples (s : State) : (s.shiftIn).samples = s.samples := rfl
@[simp] theorem shiftIn_trace (s : State) : (s.shiftIn).trace = s.trace := rfl
@[simp] theorem shiftIn_bufOps (s : State) : (s.shiftIn).bufOps = s.bufOps := rfl
@[simp] theorem shiftIn_inbox (s : State) : (s.shiftIn).inbox = s.inbox := rfl

/-! ### endTransfer -/

@[simp] theorem endTransfer_sdaDrv (st : Status) (s : State) : (s.endTransfer st).sdaDrv = s.sdaDrv := rfl
@[simp] theorem endTransfer_sclDrv (st : Status) (s : State) : (s.endTransfer st).sclDrv = s.sclDrv := rfl
@[simp] theorem endTransfer_sdaLatch (st : Status) (s : State) : (s.endTransfer st).sdaLatch = s.sdaLatch := rfl
@[simp] theorem endTransfer_sclLatch (st : Status) (s : State) : (s.endTransfer st).sclLatch = s.sclLatch := rfl
@[simp] theorem endTransfer_shift (st : Status) (s : State) : (s.endTransfer st).shift = s.shift := rfl
@[simp] theorem endTransfer_bitcnt (st : Status) (s : State) : (s.endTransfer st).bitcnt = s.bitcnt := rfl
@[simp] theorem endTransfer_idx (st : Status) (s : State) : (s.endTransfer st).idx = s.idx := rfl
@[simp] theorem endTransfer_ackbit (st : Status) (s : State) : (s.endTransfer st).ackbit = s.ackbit := rfl
@[simp] theorem endTransfer_sendAck (st : Status) (s : State) : (s.endTransfer st).sendAck = s.sendAck := rfl
@[simp] theorem endTransfer_op (st : Status) (s : State) : (s.endTransfer st).op = s.op := rfl
@[simp] theorem endTransfer_addr (st : Status) (s : State) : (s.endTransfer st).addr = s.addr := rfl
@[simp] theorem endTransfer_txLen (st : Status) (s : State) : (s.endTransfer st).txLen = s.txLen := rfl
@[simp] theorem endTransfer_rxLen (st : Status) (s : State) : (s.endTransfer st).rxLen = s.rxLen := rfl
@[simp] theorem endTransfer_speed (st : Status) (s : State) : (s.endTransfer st).speed = s.speed := rfl
@[simp] theorem endTransfer_status (st : Status) (s : State) : (s.endTransfer st).status = st := rfl
@[simp] theorem endTransfer_statusValid (st : Status) (s : State) : (s.endTransfer st).statusValid = true := rfl
@[simp] theorem endTransfer_busy (st : Status) (s : State) : (s.endTransfer st).busy = false := rfl
@[simp] theorem endTransfer_initialised (st : Status) (s : State) : (s.endTransfer st).initialised = s.initialised := rfl
@[simp] theorem endTransfer_seq (st : Status) (s : State) : (s.endTransfer st).seq = Seq.idle := rfl
@[simp] theorem endTransfer_done (st : Status) (s : State) : (s.endTransfer st).done = true := rfl
@[simp] theorem endTransfer_sample (st : Status) (s : State) : (s.endTransfer st).sample = s.sample := rfl
@[simp] theorem endTransfer_tx (st : Status) (s : State) : (s.endTransfer st).tx = s.tx := rfl
@[simp] theorem endTransfer_rx (st : Status) (s : State) : (s.endTransfer st).rx = s.rx := rfl
@[simp] theorem endTransfer_answers (st : Status) (s : State) : (s.endTransfer st).answers = s.answers := rfl
@[simp] theorem endTransfer_samples (st : Status) (s : State) : (s.endTransfer st).samples = s.samples := rfl
@[simp] theorem endTransfer_trace (st : Status) (s : State) : (s.endTransfer st).trace = s.trace := rfl
@[simp] theorem endTransfer_bufOps (st : Status) (s : State) : (s.endTransfer st).bufOps = s.bufOps := rfl
@[simp] theorem endTransfer_inbox (st : Status) (s : State) : (s.endTransfer st).inbox = s.inbox := rfl

/-! ### endInit -/

@[simp] theorem endInit_sdaDrv (s : State) : (s.endInit).sdaDrv = s.sdaDrv := rfl
@[simp] theorem endInit_sclDrv (s : State) : (s.endInit).sclDrv = s.sclDrv := rfl
@[simp] theorem endInit_sdaLatch (s : State) : (s.endInit).sdaLatch = s.sdaLatch := rfl
@[simp] theorem endInit_sclLatch (s : State) : (s.endInit).sclLatch = s.sclLatch := rfl
@[simp] theorem endInit_shift (s : State) : (s.endInit).shift = s.shift := rfl
@[simp] theorem endInit_bitcnt (s : State) : (s.endInit).bitcnt = s.bitcnt := rfl
@[simp] theorem endInit_idx (s : State) : (s.endInit).idx = s.idx := rfl
@[simp] theorem endInit_ackbit (s : State) : (s.endInit).ackbit = s.ackbit := rfl
@[simp] theorem endInit_sendAck (s : State) : (s.endInit).sendAck = s.sendAck := rfl
@[simp] theorem endInit_op (s : State) : (s.endInit).op = s.op := rfl
@[simp] theorem endInit_addr (s : State) : (s.endInit).addr = s.addr := rfl
@[simp] theorem endInit_txLen (s : State) : (s.endInit).txLen = s.txLen := rfl
@[simp] theorem endInit_rxLen (s : State) : (s.endInit).rxLen = s.rxLen := rfl
@[simp] theorem endInit_speed (s : State) : (s.endInit).speed = s.speed := rfl
@[simp] theorem endInit_status (s : State) : (s.endInit).status = s.status := rfl
@[simp] theorem endInit_statusValid (s : State) : (s.endInit).statusValid = s.statusValid := rfl
@[simp] theorem endInit_busy (s : State) : (s.endInit).busy = false := rfl
@[simp] theorem endInit_initialised (s : State) : (s.endInit).initialised = true := rfl
@[simp] theorem endInit_seq (s : State) : (s.endInit).seq = Seq.idle := rfl
@[simp] theorem endInit_done (s : State) : (s.endInit).done = true := rfl
@[simp] theorem endInit_sample (s : State) : (s.endInit).sample = s.sample := rfl
@[simp] theorem endInit_tx (s : State) : (s.endInit).tx = s.tx := rfl
@[simp] theorem endInit_rx (s : State) : (s.endInit).rx = s.rx := rfl
@[simp] theorem endInit_answers (s : State) : (s.endInit).answers = s.answers := rfl
@[simp] theorem endInit_samples (s : State) : (s.endInit).samples = s.samples := rfl
@[simp] theorem endInit_trace (s : State) : (s.endInit).trace = s.trace := rfl
@[simp] theorem endInit_bufOps (s : State) : (s.endInit).bufOps = s.bufOps := rfl
@[simp] theorem endInit_inbox (s : State) : (s.endInit).inbox = s.inbox := rfl

/-! ### beginCommand -/

@[simp] theorem beginCommand_sdaDrv (o : BitVec 3) (q : Seq) (s : State) : (s.beginCommand o q).sdaDrv = s.sdaDrv := rfl
@[simp] theorem beginCommand_sclDrv (o : BitVec 3) (q : Seq) (s : State) : (s.beginCommand o q).sclDrv = s.sclDrv := rfl
@[simp] theorem beginCommand_sdaLatch (o : BitVec 3) (q : Seq) (s : State) : (s.beginCommand o q).sdaLatch = s.sdaLatch := rfl
@[simp] theorem beginCommand_sclLatch (o : BitVec 3) (q : Seq) (s : State) : (s.beginCommand o q).sclLatch = s.sclLatch := rfl
@[simp] theorem beginCommand_shift (o : BitVec 3) (q : Seq) (s : State) : (s.beginCommand o q).shift = s.shift := rfl
@[simp] theorem beginCommand_bitcnt (o : BitVec 3) (q : Seq) (s : State) : (s.beginCommand o q).bitcnt = s.bitcnt := rfl
@[simp] theorem beginCommand_idx (o : BitVec 3) (q : Seq) (s : State) : (s.beginCommand o q).idx = s.idx := rfl
@[simp] theorem beginCommand_ackbit (o : BitVec 3) (q : Seq) (s : State) : (s.beginCommand o q).ackbit = s.ackbit := rfl
@[simp] theorem beginCommand_sendAck (o : BitVec 3) (q : Seq) (s : State) : (s.beginCommand o q).sendAck = s.sendAck := rfl
@[simp] theorem beginCommand_op (o : BitVec 3) (q : Seq) (s : State) : (s.beginCommand o q).op = o := rfl
@[simp] theorem beginCommand_addr (o : BitVec 3) (q : Seq) (s : State) : (s.beginCommand o q).addr = s.addr := rfl
@[simp] theorem beginCommand_txLen (o : BitVec 3) (q : Seq) (s : State) : (s.beginCommand o q).txLen = s.txLen := rfl
@[simp] theorem beginCommand_rxLen (o : BitVec 3) (q : Seq) (s : State) : (s.beginCommand o q).rxLen = s.rxLen := rfl
@[simp] theorem beginCommand_speed (o : BitVec 3) (q : Seq) (s : State) : (s.beginCommand o q).speed = s.speed := rfl
@[simp] theorem beginCommand_status (o : BitVec 3) (q : Seq) (s : State) : (s.beginCommand o q).status = s.status := rfl
@[simp] theorem beginCommand_statusValid (o : BitVec 3) (q : Seq) (s : State) : (s.beginCommand o q).statusValid = false := rfl
@[simp] theorem beginCommand_busy (o : BitVec 3) (q : Seq) (s : State) : (s.beginCommand o q).busy = true := rfl
@[simp] theorem beginCommand_initialised (o : BitVec 3) (q : Seq) (s : State) : (s.beginCommand o q).initialised = s.initialised := rfl
@[simp] theorem beginCommand_seq (o : BitVec 3) (q : Seq) (s : State) : (s.beginCommand o q).seq = q := rfl
@[simp] theorem beginCommand_done (o : BitVec 3) (q : Seq) (s : State) : (s.beginCommand o q).done = false := rfl
@[simp] theorem beginCommand_sample (o : BitVec 3) (q : Seq) (s : State) : (s.beginCommand o q).sample = s.sample := rfl
@[simp] theorem beginCommand_tx (o : BitVec 3) (q : Seq) (s : State) : (s.beginCommand o q).tx = s.tx := rfl
@[simp] theorem beginCommand_rx (o : BitVec 3) (q : Seq) (s : State) : (s.beginCommand o q).rx = s.rx := rfl
@[simp] theorem beginCommand_answers (o : BitVec 3) (q : Seq) (s : State) : (s.beginCommand o q).answers = s.answers := rfl
@[simp] theorem beginCommand_samples (o : BitVec 3) (q : Seq) (s : State) : (s.beginCommand o q).samples = s.samples := rfl
@[simp] theorem beginCommand_trace (o : BitVec 3) (q : Seq) (s : State) : (s.beginCommand o q).trace = s.trace := rfl
@[simp] theorem beginCommand_bufOps (o : BitVec 3) (q : Seq) (s : State) : (s.beginCommand o q).bufOps = s.bufOps := rfl
@[simp] theorem beginCommand_inbox (o : BitVec 3) (q : Seq) (s : State) : (s.beginCommand o q).inbox = s.inbox := rfl

/-! ### storeByte -/

@[simp] theorem storeByte_sdaDrv (s : State) : (s.storeByte).sdaDrv = s.sdaDrv := rfl
@[simp] theorem storeByte_sclDrv (s : State) : (s.storeByte).sclDrv = s.sclDrv := rfl
@[simp] theorem storeByte_sdaLatch (s : State) : (s.storeByte).sdaLatch = s.sdaLatch := rfl
@[simp] theorem storeByte_sclLatch (s : State) : (s.storeByte).sclLatch = s.sclLatch := rfl
@[simp] theorem storeByte_shift (s : State) : (s.storeByte).shift = s.shift := rfl
@[simp] theorem storeByte_bitcnt (s : State) : (s.storeByte).bitcnt = s.bitcnt := rfl
@[simp] theorem storeByte_idx (s : State) : (s.storeByte).idx = s.idx := rfl
@[simp] theorem storeByte_ackbit (s : State) : (s.storeByte).ackbit = s.ackbit := rfl
@[simp] theorem storeByte_sendAck (s : State) : (s.storeByte).sendAck = s.sendAck := rfl
@[simp] theorem storeByte_op (s : State) : (s.storeByte).op = s.op := rfl
@[simp] theorem storeByte_addr (s : State) : (s.storeByte).addr = s.addr := rfl
@[simp] theorem storeByte_txLen (s : State) : (s.storeByte).txLen = s.txLen := rfl
@[simp] theorem storeByte_rxLen (s : State) : (s.storeByte).rxLen = s.rxLen := rfl
@[simp] theorem storeByte_speed (s : State) : (s.storeByte).speed = s.speed := rfl
@[simp] theorem storeByte_status (s : State) : (s.storeByte).status = s.status := rfl
@[simp] theorem storeByte_statusValid (s : State) : (s.storeByte).statusValid = s.statusValid := rfl
@[simp] theorem storeByte_busy (s : State) : (s.storeByte).busy = s.busy := rfl
@[simp] theorem storeByte_initialised (s : State) : (s.storeByte).initialised = s.initialised := rfl
@[simp] theorem storeByte_seq (s : State) : (s.storeByte).seq = s.seq := rfl
@[simp] theorem storeByte_done (s : State) : (s.storeByte).done = s.done := rfl
@[simp] theorem storeByte_sample (s : State) : (s.storeByte).sample = s.sample := rfl
@[simp] theorem storeByte_tx (s : State) : (s.storeByte).tx = s.tx := rfl
@[simp] theorem storeByte_rx (s : State) : (s.storeByte).rx = s.rx.store s.idx.toNat s.shift := rfl
@[simp] theorem storeByte_answers (s : State) : (s.storeByte).answers = s.answers := rfl
@[simp] theorem storeByte_samples (s : State) : (s.storeByte).samples = s.samples := rfl
@[simp] theorem storeByte_trace (s : State) : (s.storeByte).trace = s.trace := rfl
@[simp] theorem storeByte_bufOps (s : State) : (s.storeByte).bufOps = s.bufOps ++ [.store s.idx s.shift] := rfl
@[simp] theorem storeByte_inbox (s : State) : (s.storeByte).inbox = s.inbox := rfl

/-! ### beginSecond -/

@[simp] theorem beginSecond_sdaDrv (s : State) : (s.beginSecond).sdaDrv = s.sdaDrv := rfl
@[simp] theorem beginSecond_sclDrv (s : State) : (s.beginSecond).sclDrv = s.sclDrv := rfl
@[simp] theorem beginSecond_sdaLatch (s : State) : (s.beginSecond).sdaLatch = s.sdaLatch := rfl
@[simp] theorem beginSecond_sclLatch (s : State) : (s.beginSecond).sclLatch = s.sclLatch := rfl
@[simp] theorem beginSecond_shift (s : State) : (s.beginSecond).shift = s.shift := rfl
@[simp] theorem beginSecond_bitcnt (s : State) : (s.beginSecond).bitcnt = s.bitcnt := rfl
@[simp] theorem beginSecond_idx (s : State) : (s.beginSecond).idx = s.idx := rfl
@[simp] theorem beginSecond_ackbit (s : State) : (s.beginSecond).ackbit = s.ackbit := rfl
@[simp] theorem beginSecond_sendAck (s : State) : (s.beginSecond).sendAck = s.sendAck := rfl
@[simp] theorem beginSecond_op (s : State) : (s.beginSecond).op = s.op := rfl
@[simp] theorem beginSecond_addr (s : State) : (s.beginSecond).addr = s.addr := rfl
@[simp] theorem beginSecond_txLen (s : State) : (s.beginSecond).txLen = s.txLen := rfl
@[simp] theorem beginSecond_rxLen (s : State) : (s.beginSecond).rxLen = s.rxLen := rfl
@[simp] theorem beginSecond_speed (s : State) : (s.beginSecond).speed = s.speed := rfl
@[simp] theorem beginSecond_status (s : State) : (s.beginSecond).status = s.status := rfl
@[simp] theorem beginSecond_statusValid (s : State) : (s.beginSecond).statusValid = s.statusValid := rfl
@[simp] theorem beginSecond_busy (s : State) : (s.beginSecond).busy = s.busy := rfl
@[simp] theorem beginSecond_initialised (s : State) : (s.beginSecond).initialised = s.initialised := rfl
@[simp] theorem beginSecond_seq (s : State) : (s.beginSecond).seq = { s.seq with second := true } := rfl
@[simp] theorem beginSecond_done (s : State) : (s.beginSecond).done = s.done := rfl
@[simp] theorem beginSecond_sample (s : State) : (s.beginSecond).sample = s.sample := rfl
@[simp] theorem beginSecond_tx (s : State) : (s.beginSecond).tx = s.tx := rfl
@[simp] theorem beginSecond_rx (s : State) : (s.beginSecond).rx = s.rx := rfl
@[simp] theorem beginSecond_answers (s : State) : (s.beginSecond).answers = s.answers := rfl
@[simp] theorem beginSecond_samples (s : State) : (s.beginSecond).samples = s.samples := rfl
@[simp] theorem beginSecond_trace (s : State) : (s.beginSecond).trace = s.trace := rfl
@[simp] theorem beginSecond_bufOps (s : State) : (s.beginSecond).bufOps = s.bufOps := rfl
@[simp] theorem beginSecond_inbox (s : State) : (s.beginSecond).inbox = s.inbox := rfl

/-! ### goTo -/

@[simp] theorem goTo_sdaDrv (p : Phase) (u : Sub) (s : State) : (s.goTo p u).sdaDrv = s.sdaDrv := rfl
@[simp] theorem goTo_sclDrv (p : Phase) (u : Sub) (s : State) : (s.goTo p u).sclDrv = s.sclDrv := rfl
@[simp] theorem goTo_sdaLatch (p : Phase) (u : Sub) (s : State) : (s.goTo p u).sdaLatch = s.sdaLatch := rfl
@[simp] theorem goTo_sclLatch (p : Phase) (u : Sub) (s : State) : (s.goTo p u).sclLatch = s.sclLatch := rfl
@[simp] theorem goTo_shift (p : Phase) (u : Sub) (s : State) : (s.goTo p u).shift = s.shift := rfl
@[simp] theorem goTo_bitcnt (p : Phase) (u : Sub) (s : State) : (s.goTo p u).bitcnt = s.bitcnt := rfl
@[simp] theorem goTo_idx (p : Phase) (u : Sub) (s : State) : (s.goTo p u).idx = s.idx := rfl
@[simp] theorem goTo_ackbit (p : Phase) (u : Sub) (s : State) : (s.goTo p u).ackbit = s.ackbit := rfl
@[simp] theorem goTo_sendAck (p : Phase) (u : Sub) (s : State) : (s.goTo p u).sendAck = s.sendAck := rfl
@[simp] theorem goTo_op (p : Phase) (u : Sub) (s : State) : (s.goTo p u).op = s.op := rfl
@[simp] theorem goTo_addr (p : Phase) (u : Sub) (s : State) : (s.goTo p u).addr = s.addr := rfl
@[simp] theorem goTo_txLen (p : Phase) (u : Sub) (s : State) : (s.goTo p u).txLen = s.txLen := rfl
@[simp] theorem goTo_rxLen (p : Phase) (u : Sub) (s : State) : (s.goTo p u).rxLen = s.rxLen := rfl
@[simp] theorem goTo_speed (p : Phase) (u : Sub) (s : State) : (s.goTo p u).speed = s.speed := rfl
@[simp] theorem goTo_status (p : Phase) (u : Sub) (s : State) : (s.goTo p u).status = s.status := rfl
@[simp] theorem goTo_statusValid (p : Phase) (u : Sub) (s : State) : (s.goTo p u).statusValid = s.statusValid := rfl
@[simp] theorem goTo_busy (p : Phase) (u : Sub) (s : State) : (s.goTo p u).busy = s.busy := rfl
@[simp] theorem goTo_initialised (p : Phase) (u : Sub) (s : State) : (s.goTo p u).initialised = s.initialised := rfl
@[simp] theorem goTo_seq (p : Phase) (u : Sub) (s : State) : (s.goTo p u).seq = { s.seq with phase := p, sub := u, step := 0 } := rfl
@[simp] theorem goTo_done (p : Phase) (u : Sub) (s : State) : (s.goTo p u).done = s.done := rfl
@[simp] theorem goTo_sample (p : Phase) (u : Sub) (s : State) : (s.goTo p u).sample = s.sample := rfl
@[simp] theorem goTo_tx (p : Phase) (u : Sub) (s : State) : (s.goTo p u).tx = s.tx := rfl
@[simp] theorem goTo_rx (p : Phase) (u : Sub) (s : State) : (s.goTo p u).rx = s.rx := rfl
@[simp] theorem goTo_answers (p : Phase) (u : Sub) (s : State) : (s.goTo p u).answers = s.answers := rfl
@[simp] theorem goTo_samples (p : Phase) (u : Sub) (s : State) : (s.goTo p u).samples = s.samples := rfl
@[simp] theorem goTo_trace (p : Phase) (u : Sub) (s : State) : (s.goTo p u).trace = s.trace := rfl
@[simp] theorem goTo_bufOps (p : Phase) (u : Sub) (s : State) : (s.goTo p u).bufOps = s.bufOps := rfl
@[simp] theorem goTo_inbox (p : Phase) (u : Sub) (s : State) : (s.goTo p u).inbox = s.inbox := rfl

/-! ### nextStep -/

@[simp] theorem nextStep_sdaDrv (s : State) : (s.nextStep).sdaDrv = s.sdaDrv := rfl
@[simp] theorem nextStep_sclDrv (s : State) : (s.nextStep).sclDrv = s.sclDrv := rfl
@[simp] theorem nextStep_sdaLatch (s : State) : (s.nextStep).sdaLatch = s.sdaLatch := rfl
@[simp] theorem nextStep_sclLatch (s : State) : (s.nextStep).sclLatch = s.sclLatch := rfl
@[simp] theorem nextStep_shift (s : State) : (s.nextStep).shift = s.shift := rfl
@[simp] theorem nextStep_bitcnt (s : State) : (s.nextStep).bitcnt = s.bitcnt := rfl
@[simp] theorem nextStep_idx (s : State) : (s.nextStep).idx = s.idx := rfl
@[simp] theorem nextStep_ackbit (s : State) : (s.nextStep).ackbit = s.ackbit := rfl
@[simp] theorem nextStep_sendAck (s : State) : (s.nextStep).sendAck = s.sendAck := rfl
@[simp] theorem nextStep_op (s : State) : (s.nextStep).op = s.op := rfl
@[simp] theorem nextStep_addr (s : State) : (s.nextStep).addr = s.addr := rfl
@[simp] theorem nextStep_txLen (s : State) : (s.nextStep).txLen = s.txLen := rfl
@[simp] theorem nextStep_rxLen (s : State) : (s.nextStep).rxLen = s.rxLen := rfl
@[simp] theorem nextStep_speed (s : State) : (s.nextStep).speed = s.speed := rfl
@[simp] theorem nextStep_status (s : State) : (s.nextStep).status = s.status := rfl
@[simp] theorem nextStep_statusValid (s : State) : (s.nextStep).statusValid = s.statusValid := rfl
@[simp] theorem nextStep_busy (s : State) : (s.nextStep).busy = s.busy := rfl
@[simp] theorem nextStep_initialised (s : State) : (s.nextStep).initialised = s.initialised := rfl
@[simp] theorem nextStep_seq (s : State) : (s.nextStep).seq = { s.seq with step := s.seq.step + 1 } := rfl
@[simp] theorem nextStep_done (s : State) : (s.nextStep).done = s.done := rfl
@[simp] theorem nextStep_sample (s : State) : (s.nextStep).sample = s.sample := rfl
@[simp] theorem nextStep_tx (s : State) : (s.nextStep).tx = s.tx := rfl
@[simp] theorem nextStep_rx (s : State) : (s.nextStep).rx = s.rx := rfl
@[simp] theorem nextStep_answers (s : State) : (s.nextStep).answers = s.answers := rfl
@[simp] theorem nextStep_samples (s : State) : (s.nextStep).samples = s.samples := rfl
@[simp] theorem nextStep_trace (s : State) : (s.nextStep).trace = s.trace := rfl
@[simp] theorem nextStep_bufOps (s : State) : (s.nextStep).bufOps = s.bufOps := rfl
@[simp] theorem nextStep_inbox (s : State) : (s.nextStep).inbox = s.inbox := rfl

end Sys2Proof.Machine
end

