-- ==== Sys2Proof/Laws/Bytes.lean ====
section
/-! SUPPORT. What each bus sequence does to the state, said once: every field it writes, and by the record
update nothing else. -/

namespace Sys2Proof.Machine

theorem sdaSet_eq (b : Bit) (s : State) :
    s.sdaSet b = { s with sdaDrv := driverOf b, sdaLatch := s.sdaLatch && b, trace := s.trace ++ [sdaEvent b] } := by
  cases b <;> simp [State.sdaSet, State.sdaLow, State.sdaRelease, State.emit, driverOf, sdaEvent]

theorem startCond_eq (s : State) :
    s.startCond =
      { s with sdaLatch := false, sdaDrv := .drivenLow, sclLatch := false, sclDrv := .drivenLow,
               trace := s.trace ++ startEvents } := by
  simp [State.startCond, State.sdaLow, State.sclLow, State.delayQuarter, State.emit, startEvents]

theorem stopCond_eq (s : State) :
    s.stopCond =
      { s with sdaLatch := false, sdaDrv := .released, sclDrv := .released, trace := s.trace ++ stopEvents } := by
  simp [State.stopCond, State.sdaLow, State.sclRelease, State.sdaRelease, State.delayQuarter, State.emit,
    stopEvents]

theorem txBit_eq (b : Bit) (s : State) :
    s.txBit b =
      { s with sclDrv := .released, sclLatch := false, sdaDrv := driverOf b, sdaLatch := s.sdaLatch && b,
               trace := s.trace ++ txBitEvents b } := by
  simp [State.txBit, sdaSet_eq, State.sclLow, State.sclRelease, State.delayQuarter, State.emit, txBitEvents]

theorem txAck_eq (s : State) :
    s.txAck =
      { s with sclDrv := .drivenLow, sclLatch := false, sdaDrv := .released, ackbit := s.upcoming 0,
               sample := s.upcoming 0, answers := s.answers.tail, samples := s.samples + 1,
               trace := s.trace ++ txAckEvents (s.upcoming 0) } := by
  simp [State.txAck, State.captureAck, State.sdaSample, State.consumeAnswer, State.sdaRelease, State.sclLow,
    State.sclRelease, State.delayQuarter, State.emit, State.upcoming, txAckEvents]

/-- SHIFT after `n` shifts out. -/
def shiftedOut : Nat → Byte → Byte
  | 0, sh => sh
  | n + 1, sh => shiftedOut n (shiftOutBit sh)

/-- BITCNT counts down (R26). -/
theorem bitcnt_countdown (x : BitVec 4) (n : Nat) : x - 1#4 - BitVec.ofNat 4 n = x - BitVec.ofNat 4 (n + 1) := by
  rw [BitVec.sub_sub, BitVec.ofNat_add, BitVec.add_comm]

/-- `n` turns of TXBYTE's loop, `n` at most 8: `n` bits from the top are sent. -/
theorem txBits_eq (n : Nat) (hn : n ≤ 8) (s : State) (h0 : 0 < n) :
    State.txBits n s =
      { s with
        sclDrv := .released, sclLatch := false, shift := shiftedOut n s.shift,
        bitcnt := s.bitcnt - BitVec.ofNat 4 n,
        sdaDrv := driverOf (((bitsOf s.shift).take n).getLastD false),
        sdaLatch := s.sdaLatch && ((bitsOf s.shift).take n).all id,
        trace := s.trace ++ ((bitsOf s.shift).take n).flatMap txBitEvents } := by
  induction n generalizing s with
  | zero => omega
  | succ n ih =>
    rw [State.txBits, take_bitsOf_succ s.shift n (by omega), txBit_eq, State.shiftOut]
    rcases Nat.eq_zero_or_pos n with rfl | hpos
    · simp [State.txBits, shiftedOut]
    · rw [ih (by omega) _ hpos]
      have hne : ((bitsOf (shiftOutBit s.shift)).take n) ≠ [] := by
        rw [ne_eq, List.take_eq_nil_iff]
        simp [bitsOf]
        omega
      obtain ⟨y, ys, hy⟩ := List.exists_cons_of_ne_nil hne
      simp [shiftedOut, hy, bitcnt_countdown, Bool.and_assoc, List.append_assoc]

theorem all_bitsOf (b : Byte) : (bitsOf b).all id = (b == 0xFF#8) := by
  revert b
  decide

/-- TXBYTE (R142, R143). -/
theorem txByte_eq (s : State) :
    s.txByte =
      { s with
        sdaDrv := .released, sclDrv := .drivenLow, sdaLatch := s.sdaLatch && s.shift == 0xFF#8,
        sclLatch := false, shift := 0, bitcnt := 0, ackbit := s.upcoming 0, sample := s.upcoming 0,
        answers := s.answers.drop 1, samples := s.samples + 1,
        trace := s.trace ++ txByteEvents s.shift (s.upcoming 0) } := by
  have hall : (bitsOf s.shift).take 8 = bitsOf s.shift := rfl
  have hz : shiftedOut 8 s.shift = 0 := shiftOut_eight s.shift
  rw [State.txByte, txBits_eq 8 (by omega) _ (by omega), txAck_eq]
  simp only [hall, hz, all_bitsOf, txByteEvents, State.upcoming, List.append_assoc, List.drop_one]
  rfl

/-- RXBIT (R144). -/
theorem rxBit_eq (s : State) :
    s.rxBit =
      { s with
        sclDrv := .released, sclLatch := false, sdaDrv := .released, shift := shiftInBit s.shift (s.upcoming 0),
        sample := s.upcoming 0, answers := s.answers.tail, samples := s.samples + 1,
        trace := s.trace ++ rxBitEvents (s.upcoming 0) } := by
  simp [State.rxBit, State.shiftIn, State.sdaSample, State.consumeAnswer, State.sclLow, State.sclRelease,
    State.delayQuarter, State.delayHalf, State.emit, State.upcoming, rxBitEvents]

/-- RXACK (R145). -/
theorem rxAck_eq (a : Bit) (s : State) :
    s.rxAck a =
      { s with
        sdaDrv := .released, sclDrv := .drivenLow, sdaLatch := s.sdaLatch && !a, sclLatch := false,
        trace := s.trace ++ rxAckEvents a } := by
  simp [State.rxAck, sdaSet_eq, State.sclLow, State.sclRelease, State.sdaRelease, State.delayQuarter,
    State.delayHalf, State.emit, rxAckEvents]

/-- `n` turns of RXBYTE's loop: `n` answers are shifted in. -/
theorem rxBits_eq (n : Nat) (s : State) (h0 : 0 < n) :
    State.rxBits n s =
      { s with
        sclDrv := .released, sclLatch := false, sdaDrv := .released,
        shift := (List.range n).foldl (fun x k => shiftInBit x (s.upcoming k)) s.shift,
        bitcnt := s.bitcnt - BitVec.ofNat 4 n, sample := s.upcoming (n - 1),
        answers := s.answers.drop n, samples := s.samples + n,
        trace := s.trace ++ ((List.range n).map s.upcoming).flatMap rxBitEvents } := by
  induction n generalizing s with
  | zero => omega
  | succ n ih =>
    rw [State.rxBits, rxBit_eq]
    rcases Nat.eq_zero_or_pos n with rfl | hpos
    · simp [State.rxBits]
    · rw [ih _ hpos]
      have hu : State.upcoming
          { s with
            sclDrv := .released, sclLatch := false, sdaDrv := .released,
            shift := shiftInBit s.shift (s.upcoming 0), bitcnt := s.bitcnt - 1,
            sample := s.upcoming 0, answers := s.answers.tail, samples := s.samples + 1,
            trace := s.trace ++ rxBitEvents (s.upcoming 0) } = s.upcoming ∘ Nat.succ := by
        funext k
        rw [upcoming_congr (s := s) (n := 1) (by simp) rfl, Nat.add_comm]
        rfl
      simp only [hu, List.range_succ_eq_map, List.foldl_cons, List.foldl_map, List.map_cons,
        List.map_map, List.flatMap_cons, List.append_assoc, List.drop_tail, Function.comp_apply,
        show (n - 1).succ = n + 1 - 1 by omega, show s.samples + 1 + n = s.samples + (n + 1) by omega]
      rw [show s.bitcnt - 1 = s.bitcnt - 1#4 from rfl, bitcnt_countdown]

/-- RXBYTE (R146 to R148). -/
theorem rxByte_eq (s : State) :
    s.rxByte =
      { s with
        sdaDrv := .released, sclDrv := .drivenLow, sdaLatch := s.sdaLatch && !s.sendAck, sclLatch := false,
        shift := byteOf s.upcoming, bitcnt := 0, sample := s.upcoming 7,
        answers := s.answers.drop 8, samples := s.samples + 8,
        trace := s.trace ++ rxByteEvents (byteOf s.upcoming) s.sendAck } := by
  rw [State.rxByte, rxBits_eq 8 _ (by omega), rxAck_eq]
  simp only [rxByteEvents, bitsOf_byteOf, State.sdaRelease, State.emit, State.upcoming, List.append_assoc,
    List.cons_append, List.nil_append]
  rfl

theorem length_txByteEvents (b : Byte) (a : Bit) : (txByteEvents b a).length = 48 := by
  simp [txByteEvents, bitsOf, txBitEvents, txAckEvents]

theorem length_rxByteEvents (b : Byte) (a : Bit) : (rxByteEvents b a).length = 56 := by
  simp [rxByteEvents, bitsOf, rxBitEvents, rxAckEvents]

end Sys2Proof.Machine
end

