-- ==== Sys2Proof/Laws/Memory.lean ====
section
/-! SUPPORT. The laws of the payload buffers: every operation keeps the canonical form, and what a store
does to each index. -/

namespace Sys2Proof.Machine

theorem Memory.risingFrom_mono {m : List Host.Cell} {lo lo' : Nat} (h : lo' ≤ lo)
    (hm : Memory.risingFrom lo m = true) : Memory.risingFrom lo' m = true := by
  cases m with
  | nil => rfl
  | cons c m =>
    simp only [Memory.risingFrom, Bool.and_eq_true, decide_eq_true_eq] at hm ⊢
    exact ⟨by omega, hm.2⟩

/-- A store keeps the indexes rising. -/
theorem Memory.risingFrom_write {m : List Host.Cell} {lo i : Nat} {v : Byte} (hi : lo ≤ i)
    (hm : Memory.risingFrom lo m = true) : Memory.risingFrom lo (Memory.write m i v) = true := by
  induction m generalizing lo with
  | nil => simpa [Memory.write, Memory.risingFrom] using hi
  | cons c m ih =>
    obtain ⟨a, w⟩ := c
    simp only [Memory.risingFrom, Bool.and_eq_true, decide_eq_true_eq] at hm
    simp only [Memory.write]
    split_ifs with h1 h2
    · simp only [Memory.risingFrom, Bool.and_eq_true, decide_eq_true_eq]
      exact ⟨hi, by omega, hm.2⟩
    · subst h2
      simp only [Memory.risingFrom, Bool.and_eq_true, decide_eq_true_eq]
      exact ⟨hi, hm.2⟩
    · simp only [Memory.risingFrom, Bool.and_eq_true, decide_eq_true_eq]
      exact ⟨hm.1, ih (by omega) hm.2⟩

/-- An index below every listed one has no value. -/
theorem Memory.read_of_lt {m : List Host.Cell} {lo i : Nat} (hi : i < lo)
    (hm : Memory.risingFrom lo m = true) : Memory.read m i = none := by
  induction m generalizing lo with
  | nil => rfl
  | cons c m ih =>
    obtain ⟨a, w⟩ := c
    simp only [Memory.risingFrom, Bool.and_eq_true, decide_eq_true_eq] at hm
    have : a ≠ i := by omega
    simp only [Memory.read, this, if_false]
    exact ih (by omega) hm.2

/-- What a read gives after a store. -/
theorem Memory.read_write {m : List Host.Cell} {lo i j : Nat} {v : Byte}
    (hm : Memory.risingFrom lo m = true) :
    Memory.read (Memory.write m i v) j = if j = i then some v else Memory.read m j := by
  induction m generalizing lo with
  | nil => simp [Memory.write, Memory.read, Memory.unlisted, eq_comm]
  | cons c m ih =>
    obtain ⟨a, w⟩ := c
    simp only [Memory.risingFrom, Bool.and_eq_true, decide_eq_true_eq] at hm
    simp only [Memory.write]
    split_ifs with h1 h2 h3 h4 h5
    · simp [Memory.read, h2]
    · simp [Memory.read, Ne.symm h2]
    · simp [Memory.read, h4]
    · subst h3
      simp [Memory.read, Ne.symm h4]
    · subst h5
      simp only [Memory.read, show ¬ a = j from fun h => h3 h.symm, if_false, ih hm.2, if_true]
    · simp only [Memory.read, ih hm.2, h5, if_false]

theorem Memory.all_write {m : List Host.Cell} {i n : Nat} {v : Byte} (hi : i < n)
    (hm : (m.all fun c => decide (c.1 < n)) = true) :
    ((Memory.write m i v).all fun c => decide (c.1 < n)) = true := by
  induction m with
  | nil => simpa [Memory.write] using hi
  | cons c m ih =>
    obtain ⟨a, w⟩ := c
    simp only [List.all_cons, Bool.and_eq_true, decide_eq_true_eq] at hm
    simp only [Memory.write]
    split_ifs
    · simp only [List.all_cons, Bool.and_eq_true, decide_eq_true_eq]
      exact ⟨hi, hm.1, hm.2⟩
    · simp only [List.all_cons, Bool.and_eq_true, decide_eq_true_eq]
      exact ⟨hi, hm.2⟩
    · simp only [List.all_cons, Bool.and_eq_true, decide_eq_true_eq]
      exact ⟨hm.1, ih hm.2⟩

/-- A store inside the buffer keeps its canonical form. -/
theorem Buffer.store_wf {b : Buffer} {i : Nat} {v : Byte} (hb : b.wf = true) (hi : i < b.size) :
    (b.store i v).wf = true := by
  simp only [Buffer.wf, Buffer.store, Bool.and_eq_true] at hb ⊢
  exact ⟨Memory.risingFrom_write (Nat.zero_le _) hb.1, Memory.all_write hi hb.2⟩

@[simp] theorem Buffer.store_size (b : Buffer) (i : Nat) (v : Byte) : (b.store i v).size = b.size := rfl

theorem Buffer.risingFrom_cellsFrom (i : Nat) (vs : List Byte) :
    Memory.risingFrom i (Buffer.cellsFrom i vs) = true := by
  induction vs generalizing i with
  | nil => rfl
  | cons v vs ih => simp [Buffer.cellsFrom, Memory.risingFrom, ih]

theorem Buffer.read_cellsFrom (i j : Nat) (vs : List Byte) :
    Memory.read (Buffer.cellsFrom i vs) (i + j) = vs[j]? := by
  induction vs generalizing i j with
  | nil => rfl
  | cons v vs ih =>
    cases j with
    | zero => simp [Buffer.cellsFrom, Memory.read]
    | succ j =>
      have := ih (i + 1) j
      simp only [Buffer.cellsFrom, Memory.read, List.getElem?_cons_succ]
      rw [if_neg (by omega), ← this]
      congr 1
      omega

theorem Buffer.all_cellsFrom (i n : Nat) (vs : List Byte) (h : i + vs.length ≤ n) :
    ((Buffer.cellsFrom i vs).all fun c => decide (c.1 < n)) = true := by
  induction vs generalizing i with
  | nil => rfl
  | cons v vs ih =>
    simp only [List.length_cons] at h
    simp only [Buffer.cellsFrom, List.all_cons, Bool.and_eq_true, decide_eq_true_eq]
    exact ⟨by omega, ih (i + 1) (by omega)⟩

/-- A buffer the host fills is in canonical form. -/
theorem Buffer.ofBytes_wf (vs : List Byte) : (Buffer.ofBytes vs).wf = true := by
  simp only [Buffer.wf, Buffer.ofBytes, Bool.and_eq_true]
  exact ⟨Buffer.risingFrom_cellsFrom 0 vs, Buffer.all_cellsFrom 0 _ vs (by simp)⟩

/-- A buffer without values is in canonical form. -/
theorem Buffer.empty_wf (n : Nat) : (Buffer.mk n []).wf = true := rfl

/-- The buffers of the reset state are in canonical form. -/
theorem reset_buffers_wf : State.reset.tx.wf = true ∧ State.reset.rx.wf = true := ⟨rfl, rfl⟩

/-- A byte of a buffer that holds `n` bytes. -/
theorem Buffer.holds_read {b : Buffer} {n i : Nat} (h : b.holds n = true) (hi : i < n) :
    ∃ v, b.read i = some v := by
  simp only [Buffer.holds, List.all_eq_true, List.mem_range] at h
  exact Option.isSome_iff_exists.mp (h i hi)

/-- The bytes of a buffer that holds `n` bytes: one more is the byte at that index. -/
theorem Buffer.bytes_succ {b : Buffer} {n : Nat} {v : Byte} (h : b.read n = some v) :
    b.bytes (n + 1) = b.bytes n ++ [v] := by
  simp [Buffer.bytes, List.range_succ, List.filterMap_append, h]

theorem Buffer.length_bytes {b : Buffer} {n : Nat} (h : b.holds n = true) : (b.bytes n).length = n := by
  induction n with
  | zero => rfl
  | succ n ih =>
    obtain ⟨v, hv⟩ := Buffer.holds_read h (Nat.lt_succ_self n)
    rw [Buffer.bytes_succ hv, List.length_append, ih, List.length_singleton]
    simp only [Buffer.holds, List.all_eq_true, List.mem_range] at h ⊢
    exact fun i hi => h i (by omega)

theorem Buffer.holds_mono {b : Buffer} {m n : Nat} (h : b.holds n = true) (hm : m ≤ n) :
    b.holds m = true := by
  simp only [Buffer.holds, List.all_eq_true, List.mem_range] at h ⊢
  exact fun i hi => h i (by omega)

/-- Byte `i` of the bytes of a buffer is what it reads at `i`. -/
theorem Buffer.getElem?_bytes {b : Buffer} {n i : Nat} (h : b.holds n = true) (hi : i < n) :
    (b.bytes n)[i]? = b.read i := by
  induction n with
  | zero => omega
  | succ n ih =>
    have hn := Buffer.holds_mono h (Nat.le_succ n)
    obtain ⟨v, hv⟩ := Buffer.holds_read h (Nat.lt_succ_self n)
    rw [Buffer.bytes_succ hv]
    rcases Nat.lt_or_eq_of_le (Nat.le_of_lt_succ hi) with hlt | rfl
    · rw [List.getElem?_append_left (by rwa [Buffer.length_bytes hn]), ih hn hlt]
    · rw [List.getElem?_append_right (by rw [Buffer.length_bytes hn]), Buffer.length_bytes hn, hv]
      simp

/-- A buffer filled with bytes holds them all. -/
theorem Buffer.holds_ofBytes (vs : List Byte) : (Buffer.ofBytes vs).holds vs.length = true := by
  simp only [Buffer.holds, List.all_eq_true, List.mem_range]
  intro i hi
  have h := Buffer.read_cellsFrom 0 i vs
  rw [Nat.zero_add] at h
  simp only [Buffer.read, Buffer.ofBytes, h, List.getElem?_eq_getElem hi, Option.isSome_some]

end Sys2Proof.Machine
end

