-- ==== Sys2Proof/Laws/Commands.lean ====
section
/-! SUPPORT. What the parts of the commands do to the state, said once: the address phase, the two data
loops, the end. -/

namespace Sys2Proof.Machine

/-- `call TXBYTE(B)` (R142). -/
theorem sendByte_eq (b : Byte) (s : State) :
    s.sendByte b =
      { s with
        sdaDrv := .released, sclDrv := .drivenLow, sdaLatch := s.sdaLatch && b == 0xFF#8,
        sclLatch := false, shift := 0, bitcnt := 0, ackbit := s.upcoming 0, sample := s.upcoming 0,
        answers := s.answers.drop 1, samples := s.samples + 1,
        trace := s.trace ++ txByteEvents b (s.upcoming 0) } := by
  rw [State.sendByte, txByte_eq]
  rfl

/-- START and the address byte (R161, R162). -/
theorem addressPhase_eq (rw : Bit) (s : State) :
    s.addressPhase rw =
      { s with
        sdaDrv := .released, sclDrv := .drivenLow, sdaLatch := false, sclLatch := false, shift := 0,
        bitcnt := 0, ackbit := s.upcoming 0, sample := s.upcoming 0, answers := s.answers.drop 1,
        samples := s.samples + 1,
        trace := s.trace ++ (startEvents ++ txByteEvents (addrByte s.addr rw) (s.upcoming 0)) } := by
  rw [State.addressPhase, sendByte_eq, startCond_eq]
  simp [State.upcoming, List.append_assoc]

/-- `raise Nack` (R197). -/
theorem raiseNack_eq (s : State) :
    s.raiseNack =
      { s with sdaLatch := false, sdaDrv := .released, sclDrv := .released, trace := s.trace ++ stopEvents,
               status := .nack, statusValid := true, busy := false, seq := Seq.idle, done := true } := by
  rw [State.raiseNack, stopCond_eq]
  rfl

/-- STOP and the status of a transfer (R169). -/
theorem finish_eq (s : State) :
    s.finish =
      { s with
        sdaLatch := false, sdaDrv := .released, sclDrv := .released, trace := s.trace ++ stopEvents,
        status := if s.ackbit then .nack else .ok, statusValid := true, busy := false, seq := Seq.idle,
        done := true } := by
  unfold State.finish
  split
  · rename_i h
    rw [raiseNack_eq]
  · rename_i h
    rw [State.returnOk, stopCond_eq]
    rfl

/-- A state as a byte sequence leaves it after an acknowledged transmission: SCL low, SDA released. -/
structure State.BetweenBytes (s : State) : Prop where
  sda : s.sdaDrv = .released
  scl : s.sclDrv = .drivenLow
  sdaLatch : s.sdaLatch = false
  sclLatch : s.sclLatch = false
  bitcnt : s.bitcnt = 0
  ackbit : s.ackbit = false

theorem allAcked_succ (n : Nat) (a : Nat → Bit) :
    allAcked (n + 1) a = (!a 0 && allAcked n fun k => a (k + 1)) := by
  simp [allAcked, List.range_succ_eq_map, List.all_map, Function.comp_def]

/-- The loop of WRITE (R161, R52): the groups sent, the fetches made, the answers used up, and whether
all were acknowledged. -/
theorem sendData_eq (bs : List Byte) (s : State) (h : s.BetweenBytes) (hsh : s.shift = 0)
    (hsm : s.sample = false) :
    ∃ ix, State.sendData bs s =
      { s with
        idx := ix, ackbit := !allAcked bs.length s.upcoming, sample := !allAcked bs.length s.upcoming,
        answers := s.answers.drop (sentCount bs.length s.upcoming),
        samples := s.samples + sentCount bs.length s.upcoming,
        trace := s.trace ++ sentEvents (sentGroups bs s.upcoming),
        bufOps := s.bufOps ++
          (List.range (sentCount bs.length s.upcoming)).map fun i => .fetch (s.idx + BitVec.ofNat 16 i) } := by
  induction bs generalizing s with
  | nil =>
    refine ⟨s.idx, ?_⟩
    obtain ⟨-, -, -, -, -, h6⟩ := h
    cases s
    simp only at h6 hsm
    simp [State.sendData, allAcked, sentCount, sentEvents, sentGroups, h6, hsm]
  | cons b bs ih =>
    have hup : (s.strobeBuf (.fetch s.idx)).upcoming 0 = s.upcoming 0 := rfl
    simp only [State.sendData, sendByte_eq, hup, allAcked_succ, List.length_cons, sentCount, sentGroups]
    cases ha : s.upcoming 0 with
    | true =>
      refine ⟨s.idx, ?_⟩
      obtain ⟨h1, h2, h3, h4, h5, h6⟩ := h
      simp [sentEvents, State.strobeBuf, h1, h2, h3, h4, h5, hsh]
    | false =>
      obtain ⟨h1, h2, h3, h4, h5, h6⟩ := h
      simp only [Bool.false_eq_true, if_false, Bool.not_false, Bool.true_and]
      obtain ⟨ix, hix⟩ := ih
        { s with
          sdaDrv := .released, sclDrv := .drivenLow, sdaLatch := s.sdaLatch && b == 0xFF#8,
          sclLatch := false, shift := 0, bitcnt := 0, ackbit := false, sample := false,
          answers := s.answers.drop 1, samples := s.samples + 1,
          trace := s.trace ++ txByteEvents b false, bufOps := s.bufOps ++ [.fetch s.idx],
          idx := s.idx + 1 }
        ⟨rfl, rfl, by simp [h3], rfl, rfl, rfl⟩ rfl rfl
      refine ⟨ix, ?_⟩
      have hu : State.upcoming
        { s with
          sdaDrv := .released, sclDrv := .drivenLow, sdaLatch := s.sdaLatch && b == 0xFF#8,
          sclLatch := false, shift := 0, bitcnt := 0, ackbit := false, sample := false,
          answers := s.answers.drop 1, samples := s.samples + 1,
          trace := s.trace ++ txByteEvents b false, bufOps := s.bufOps ++ [.fetch s.idx],
          idx := s.idx + 1 } = fun k => s.upcoming (k + 1) := by
        funext k
        rw [upcoming_congr (s := s) (n := 1) rfl rfl, Nat.add_comm]
      rw [hu] at hix
      refine Eq.trans (show _ = State.sendData bs _ from rfl) (hix.trans ?_)
      cases s
      simp only at h1 h2 h3 h4 h5 hsh ⊢
      simp [sentEvents, List.range_succ_eq_map, h1, h2, h3, h4, h5, hsh, Nat.add_comm 1, Nat.add_assoc]
      intro a _
      rw [BitVec.ofNat_add, BitVec.add_assoc, BitVec.add_comm 1#16]

/-- SEND_ACK where the loop asks for it (R86): 1 but for the last byte. -/
theorem sendAckFor_eq {i len : Len} (h : i.toNat < len.toNat) :
    sendAckFor i len = decide (i.toNat + 1 < len.toNat) := by
  have h1 : (len - 1).toNat = len.toNat - 1 := by
    rw [BitVec.toNat_sub_of_le (by rw [BitVec.le_def]; simp; omega)]
    simp
  rw [sendAckFor, BitVec.ult, h1]
  simp only [decide_eq_decide]
  omega

theorem receivedBytes_succ (n : Nat) (f : Nat → Bit) :
    receivedBytes (n + 1) f = byteOf f :: receivedBytes n fun k => f (8 + k) := by
  simp only [receivedBytes, List.range_succ_eq_map, List.map_cons, List.map_map]
  refine congrArg₂ _ (byteOf_congr fun k _ => by simp) (List.map_congr_left fun i _ => byteOf_congr fun k _ => ?_)
  exact congrArg f (by simp only [Nat.succ_eq_add_one]; omega)

theorem length_receivedBytes (n : Nat) (f : Nat → Bit) : (receivedBytes n f).length = n := by
  simp [receivedBytes]

theorem receivedGroups_cons (b : Byte) (bs : List Byte) :
    receivedGroups (b :: bs) = (b, decide (bs.length = 0)) :: receivedGroups bs := by
  simp only [receivedGroups, List.zipIdx_cons', List.map_cons, List.map_map, List.length_cons]
  refine congrArg₂ _ (by simp [eq_comm]) (List.map_congr_left fun g _ => ?_)
  simp

/-- The stores of a read loop that is at index `i`. -/
def storesFrom (i : Len) (bytes : List Byte) : List BufOp :=
  bytes.zipIdx.map fun g => .store (i + BitVec.ofNat 16 g.2) g.1

theorem storesFrom_cons (i : Len) (b : Byte) (bs : List Byte) :
    storesFrom i (b :: bs) = .store i b :: storesFrom (i + 1) bs := by
  simp only [storesFrom, List.zipIdx_cons', List.map_cons, List.map_map, BitVec.ofNat_eq_ofNat, BitVec.add_zero]
  refine congrArg _ (List.map_congr_left fun g _ => ?_)
  simp only [Function.comp_apply, Prod.map_snd, Prod.map_fst, id, BitVec.ofNat_add]
  rw [BitVec.add_comm _ 1#16, BitVec.add_assoc]

/-- A state between two bytes of a read loop with `n` bytes to go. -/
structure State.ReadLoop (s : State) (n : Nat) : Prop where
  sda : s.sdaDrv = .released
  scl : s.sclDrv = .drivenLow
  sdaLatch : s.sdaLatch = false
  sclLatch : s.sclLatch = false
  bitcnt : s.bitcnt = 0
  left : s.idx.toNat + n = s.rxLen.toNat
  room : s.rxLen.toNat ≤ s.rx.size
  wf : s.rx.wf = true

/-- The loop of READ (R162, R53, R54). -/
theorem receiveData_eq (n : Nat) (s : State) (h : s.ReadLoop n) :
    ∃ sh ix sa sm rx', State.receiveData n s =
        { s with
          shift := sh, idx := ix, sendAck := sa, sample := sm, answers := s.answers.drop (8 * n),
          samples := s.samples + 8 * n,
          trace := s.trace ++ receivedEvents (receivedGroups (receivedBytes n s.upcoming)),
          bufOps := s.bufOps ++ storesFrom s.idx (receivedBytes n s.upcoming), rx := rx' } ∧
      rx'.size = s.rx.size ∧ rx'.wf = true ∧
      (∀ j, j < s.idx.toNat → rx'.read j = s.rx.read j) ∧
      (∀ j, rx'.read (s.idx.toNat + j) =
        if h : j < n then some ((receivedBytes n s.upcoming)[j]'(by rwa [length_receivedBytes]))
        else s.rx.read (s.idx.toNat + j)) := by
  induction n generalizing s with
  | zero =>
    refine ⟨s.shift, s.idx, s.sendAck, s.sample, s.rx, ?_, rfl, h.wf, fun _ _ => rfl, fun _ => by simp⟩
    simp [State.receiveData, receivedBytes, receivedGroups, receivedEvents, storesFrom]
  | succ n ih =>
    obtain ⟨h1, h2, h3, h4, h5, hl, hr, hw⟩ := h
    have hlt : s.idx.toNat < s.rxLen.toNat := by omega
    have hix : (s.idx + 1).toNat = s.idx.toNat + 1 := by
      have := s.rxLen.isLt
      rw [BitVec.toNat_add, Nat.mod_eq_of_lt (by simp; omega)]
      rfl
    have hsa : sendAckFor s.idx s.rxLen = !decide (n = 0) := by
      rw [sendAckFor_eq hlt, ← decide_not, decide_eq_decide]
      omega
    have hbody : s.setSendAck.rxByte.storeByte =
        { s with
          shift := byteOf s.upcoming, sendAck := !decide (n = 0), sample := s.upcoming 7,
          answers := s.answers.drop 8, samples := s.samples + 8,
          trace := s.trace ++ rxByteEvents (byteOf s.upcoming) (!decide (n = 0)),
          bufOps := s.bufOps ++ [.store s.idx (byteOf s.upcoming)],
          rx := s.rx.store s.idx.toNat (byteOf s.upcoming) } := by
      rw [rxByte_eq]
      have hup : s.setSendAck.upcoming = s.upcoming := rfl
      rw [hup]
      simp only [State.storeByte, State.strobeBuf, State.setSendAck, hsa, h3, Bool.false_and]
      cases s
      simp only at h1 h2 h3 h4 h5 ⊢
      simp only [h1, h2, h3, h4, h5]
    obtain ⟨sh, ix, sa, sm, rx', heq, hsz, hwf', hlo, hhi⟩ := ih
      { s with
        shift := byteOf s.upcoming, sendAck := !decide (n = 0), sample := s.upcoming 7,
        answers := s.answers.drop 8, samples := s.samples + 8,
        trace := s.trace ++ rxByteEvents (byteOf s.upcoming) (!decide (n = 0)),
        bufOps := s.bufOps ++ [.store s.idx (byteOf s.upcoming)],
        rx := s.rx.store s.idx.toNat (byteOf s.upcoming), idx := s.idx + 1 }
      ⟨h1, h2, h3, h4, h5, by simp only [hix]; omega, by simpa using hr,
        Buffer.store_wf hw (by omega)⟩
    have hu : State.upcoming
        { s with
          shift := byteOf s.upcoming, sendAck := !decide (n = 0), sample := s.upcoming 7,
          answers := s.answers.drop 8, samples := s.samples + 8,
          trace := s.trace ++ rxByteEvents (byteOf s.upcoming) (!decide (n = 0)),
          bufOps := s.bufOps ++ [.store s.idx (byteOf s.upcoming)],
          rx := s.rx.store s.idx.toNat (byteOf s.upcoming), idx := s.idx + 1 } = fun k => s.upcoming (8 + k) := by
      funext k
      rw [upcoming_congr (s := s) (n := 8) rfl rfl]
    simp only [hu, hix] at heq hsz hlo hhi
    have hstore := fun j => Memory.read_write (m := s.rx.cells) (lo := 0) (i := s.idx.toNat) (j := j)
      (v := byteOf s.upcoming) (by simp only [Buffer.wf, Bool.and_eq_true] at hw; exact hw.1)
    refine ⟨sh, ix, sa, sm, rx', ?_, hsz, hwf', fun j hj => ?_, fun j => ?_⟩
    · simp only [State.receiveData, hbody]
      rw [heq]
      simp only [receivedBytes_succ, receivedGroups_cons, length_receivedBytes, receivedEvents, List.flatMap_cons,
        storesFrom_cons, List.append_assoc, List.cons_append, List.nil_append, List.drop_drop,
        show 8 + 8 * n = 8 * (n + 1) by omega, show s.samples + 8 + 8 * n = s.samples + 8 * (n + 1) by omega]
    · rw [hlo j (by omega)]
      exact (hstore j).trans (if_neg (by omega))
    · cases j with
      | zero =>
        rw [hlo _ (by omega)]
        simp only [Nat.add_zero, receivedBytes_succ, Nat.zero_lt_succ, dif_pos, List.getElem_cons_zero]
        exact (hstore _).trans (if_pos rfl)
      | succ j =>
        have := hhi j
        rw [show s.idx.toNat + (j + 1) = s.idx.toNat + 1 + j by omega, this]
        simp only [receivedBytes_succ, List.getElem_cons_succ, Nat.add_lt_add_iff_right]
        split
        · rfl
        · exact (hstore _).trans (if_neg (by omega))

/-! ### Acceptance -/

/-- What acceptance of INIT is (R160, R164). -/
theorem acceptInit_ok {speed : Nat} {s t : State} :
    acceptInit speed s = .ok t ↔ s.busy = false ∧
      t = State.beginCommand 0 Seq.firstOfInit { s with speed := latchedSpeed speed } := by
  unfold acceptInit
  cases s.busy <;> simp [eq_comm]

theorem transferRefusal_eq_none (s : State) : s.transferRefusal = none ↔ s.ready := by
  unfold State.transferRefusal State.ready
  cases s.busy <;> cases s.initialised <;> simp

/-- What acceptance of WRITE is (R164, D10 to D13). -/
theorem acceptWrite_ok {addr n : Nat} {s t : State} :
    acceptWrite addr n s = .ok t ↔ addr < 128 ∧ n < 65536 ∧ s.ready ∧ s.tx.holds n = true ∧
      t = State.beginCommand 1 Seq.firstOfTransfer
        { s with addr := BitVec.ofNat 7 addr, txLen := BitVec.ofNat 16 n } := by
  unfold acceptWrite addrFits lenFits
  rw [← transferRefusal_eq_none]
  by_cases h1 : addr < 128 <;> by_cases h2 : n < 65536 <;> simp [h1, h2]
  cases s.transferRefusal <;> simp
  cases s.tx.holds n <;> simp [eq_comm]

/-- What acceptance of READ is (R164, D10 to D13). -/
theorem acceptRead_ok {addr n : Nat} {s t : State} :
    acceptRead addr n s = .ok t ↔ addr < 128 ∧ n < 65536 ∧ s.ready ∧ n ≤ s.rx.size ∧
      t = State.beginCommand 2 Seq.firstOfTransfer
        { s with addr := BitVec.ofNat 7 addr, rxLen := BitVec.ofNat 16 n } := by
  unfold acceptRead addrFits lenFits
  rw [← transferRefusal_eq_none]
  by_cases h1 : addr < 128 <;> by_cases h2 : n < 65536 <;> simp [h1, h2]
  cases s.transferRefusal <;> simp
  by_cases h3 : n ≤ s.rx.size <;> simp [h3, eq_comm]

/-- What acceptance of WRITE_READ is (R164, D10 to D13). -/
theorem acceptWriteRead_ok {addr m n : Nat} {s t : State} :
    acceptWriteRead addr m n s = .ok t ↔
      addr < 128 ∧ m < 65536 ∧ n < 65536 ∧ s.ready ∧ s.tx.holds m = true ∧ n ≤ s.rx.size ∧
      t = State.beginCommand 3 Seq.firstOfTransfer
        { s with addr := BitVec.ofNat 7 addr, txLen := BitVec.ofNat 16 m, rxLen := BitVec.ofNat 16 n } := by
  unfold acceptWriteRead addrFits lenFits
  rw [← transferRefusal_eq_none]
  by_cases h1 : addr < 128 <;> by_cases h2 : m < 65536 <;> by_cases h3 : n < 65536 <;> simp [h1, h2, h3]
  cases s.transferRefusal <;> simp
  cases s.tx.holds m <;> by_cases h4 : n ≤ s.rx.size <;> simp [h4, eq_comm]

/-! ### Frames -/

/-- A write frame up to its STOP (R161). -/
theorem writeFrame_eq (s : State) (n : Nat) (hn : (s.tx.bytes s.txLen.toNat).length = n) :
    ∃ ix, s.writeFrame =
      { s with
        sdaDrv := .released, sclDrv := .drivenLow, sdaLatch := false, sclLatch := false, shift := 0,
        bitcnt := 0, idx := ix, ackbit := !allAcked (n + 1) s.upcoming,
        sample := !allAcked (n + 1) s.upcoming,
        answers := s.answers.drop (sentCount (n + 1) s.upcoming),
        samples := s.samples + sentCount (n + 1) s.upcoming,
        trace := s.trace ++
          (startEvents ++ sentEvents (writeGroups s.addr (s.tx.bytes s.txLen.toNat) s.upcoming)),
        bufOps := s.bufOps ++ fetchOps (sentCount (n + 1) s.upcoming) } := by
  subst hn
  simp only [State.writeFrame, addressPhase_eq]
  cases ha : s.upcoming 0 with
  | true =>
    refine ⟨s.idx, ?_⟩
    simp [allAcked_succ, ha, sentCount, fetchOps, writeGroups, sentGroups, sentEvents]
  | false =>
    simp only [Bool.false_eq_true, if_false]
    obtain ⟨ix, hix⟩ := sendData_eq (s.tx.bytes s.txLen.toNat)
      { s with
        sdaDrv := .released, sclDrv := .drivenLow, sdaLatch := false, sclLatch := false, shift := 0,
        bitcnt := 0, idx := 0, ackbit := false, sample := false, answers := s.answers.drop 1,
        samples := s.samples + 1,
        trace := s.trace ++ (startEvents ++ txByteEvents (addrByte s.addr false) false) }
      ⟨rfl, rfl, rfl, rfl, rfl, rfl⟩ rfl rfl
    have hu : State.upcoming
        { s with
          sdaDrv := .released, sclDrv := .drivenLow, sdaLatch := false, sclLatch := false, shift := 0,
          bitcnt := 0, idx := 0, ackbit := false, sample := false, answers := s.answers.drop 1,
          samples := s.samples + 1,
          trace := s.trace ++ (startEvents ++ txByteEvents (addrByte s.addr false) false) } =
          fun k => s.upcoming (k + 1) := by
      funext k
      rw [upcoming_congr (s := s) (n := 1) rfl rfl, Nat.add_comm]
    rw [hu] at hix
    refine ⟨ix, hix.trans ?_⟩
    simp [allAcked_succ, ha, sentCount, fetchOps, writeGroups, sentGroups, sentEvents, Nat.add_assoc,
      Nat.add_comm 1]

/-- A read frame up to its STOP (R162). -/
theorem readFrame_eq (s : State) (n : Nat) (hn : s.rxLen.toNat = n) (hr : n ≤ s.rx.size)
    (hw : s.rx.wf = true) :
    ∃ sh ix sa sm rx', s.readFrame =
        { s with
          sdaDrv := .released, sclDrv := .drivenLow, sdaLatch := false, sclLatch := false, shift := sh,
          bitcnt := 0, idx := ix, ackbit := s.upcoming 0, sample := sm, sendAck := sa, rx := rx',
          answers := s.answers.drop (readSampleCount n s.upcoming),
          samples := s.samples + readSampleCount n s.upcoming,
          trace := s.trace ++ (startEvents ++ (txByteEvents (addrByte s.addr true) (s.upcoming 0) ++
            receivedEvents (readDataGroups n s.upcoming))),
          bufOps := s.bufOps ++ storeOps (deliveredBytes n s.upcoming) } ∧
      Delivered s.rx rx' (deliveredBytes n s.upcoming) := by
  subst hn
  simp only [State.readFrame, addressPhase_eq]
  cases ha : s.upcoming 0 with
  | true =>
    refine ⟨0, s.idx, s.sendAck, true, s.rx, ?_, ?_⟩
    · simp [readSampleCount, readDataGroups, deliveredBytes, storeOps, ha, receivedEvents]
    · simp [Delivered, deliveredBytes, ha, hw]
  | false =>
    simp only [Bool.false_eq_true, if_false]
    have hu : State.upcoming
        { s with
          sdaDrv := .released, sclDrv := .drivenLow, sdaLatch := false, sclLatch := false, shift := 0,
          bitcnt := 0, idx := 0, ackbit := false, sample := false, answers := s.answers.drop 1,
          samples := s.samples + 1,
          trace := s.trace ++ (startEvents ++ txByteEvents (addrByte s.addr true) false) } =
          fun k => s.upcoming (k + 1) := by
      funext k
      rw [upcoming_congr (s := s) (n := 1) rfl rfl, Nat.add_comm]
    obtain ⟨sh, ix, sa, sm, rx', h1, h2, h3, -, h5⟩ := receiveData_eq s.rxLen.toNat
      { s with
        sdaDrv := .released, sclDrv := .drivenLow, sdaLatch := false, sclLatch := false, shift := 0,
        bitcnt := 0, idx := 0, ackbit := false, sample := false, answers := s.answers.drop 1,
        samples := s.samples + 1,
        trace := s.trace ++ (startEvents ++ txByteEvents (addrByte s.addr true) false) }
      ⟨rfl, rfl, rfl, rfl, rfl, by simp, hr, hw⟩
    rw [hu] at h1
    refine ⟨sh, ix, sa, sm, rx', h1.trans ?_, h2, h3, fun i => ?_⟩
    · simp [readSampleCount, readDataGroups, deliveredBytes, storeOps, storesFrom, ha, Nat.add_assoc,
        Nat.add_comm 1]
    · simp only [hu] at h5
      simpa [deliveredBytes, ha, length_receivedBytes] using h5 i

end Sys2Proof.Machine
end

