-- ==== Sys2Proof/Laws/PerInstr.lean ====
section
/-! SUPPORT. One lemma per instruction: the word of a well-formed instruction decodes to it. -/

namespace Sys2Proof

/-- A word fits its port where it is a command or has no more bits than the port (R93, R81). -/
theorem PortWord.fits_iff (w : PortWord) : w.fits = true ↔ w.format = .cmd ∨ w.bits < 2 ^ w.format.width := by
  obtain ⟨f, bits⟩ := w
  cases f <;> simp [PortWord.fits]

/-- The fields of a command word lie side by side (R81). -/
theorem cmdWord_fields (op : BitVec 3) (addr : Addr) (m n : Len) (v : Nat) :
    (cmdWord op addr m n v).cmdOp = op ∧ (cmdWord op addr m n v).cmdAddr = addr ∧
      (cmdWord op addr m n v).cmdTxLen = m ∧ (cmdWord op addr m n v).cmdRxLen = n ∧
      (cmdWord op addr m n v).cmdSpeed = v := by
  simp only [cmdWord, PortWord.cmdOp, PortWord.cmdAddr, PortWord.cmdTxLen, PortWord.cmdRxLen,
    PortWord.cmdSpeed, Nat.shiftRight_eq_div_pow, ← BitVec.toNat_inj, BitVec.toNat_ofNat]
  omega

/-- A command word is read as a command (R80). -/
theorem decode_cmdWord (op : BitVec 3) (addr : Addr) (m n : Len) (v : Nat) :
    decode (cmdWord op addr m n v) = decodeCmd (cmdWord op addr m n v) := rfl

/-- The family: decoding what the encoder writes. -/
def Laws.RoundTrip.Statement (i : Instr) : Prop := i.wellFormed = true → decode (encode i) = .ok i

namespace Laws.RoundTrip

theorem init (speed : Nat) : Statement (.init speed) := by
  intro _
  obtain ⟨h1, -, -, -, h5⟩ := cmdWord_fields 0#3 0 0 0 speed
  rw [encode, decode_cmdWord, decodeCmd, h1, h5]
  rfl

theorem write (addr txLen : Nat) : Statement (.write addr txLen) := by
  intro h
  simp only [Instr.wellFormed, Bool.and_eq_true, addrFits, lenFits, decide_eq_true_eq] at h
  obtain ⟨h1, h2, h3, -, -⟩ := cmdWord_fields 1#3 (BitVec.ofNat 7 addr) (BitVec.ofNat 16 txLen) 0 0
  rw [encode, decode_cmdWord, decodeCmd, h1, h2, h3]
  simp
  omega

theorem read (addr rxLen : Nat) : Statement (.read addr rxLen) := by
  intro h
  simp only [Instr.wellFormed, Bool.and_eq_true, addrFits, lenFits, decide_eq_true_eq] at h
  obtain ⟨h1, h2, -, h4, -⟩ := cmdWord_fields 2#3 (BitVec.ofNat 7 addr) 0 (BitVec.ofNat 16 rxLen) 0
  rw [encode, decode_cmdWord, decodeCmd, h1, h2, h4]
  simp
  omega

theorem writeRead (addr txLen rxLen : Nat) : Statement (.writeRead addr txLen rxLen) := by
  intro h
  simp only [Instr.wellFormed, Bool.and_eq_true, addrFits, lenFits, decide_eq_true_eq] at h
  obtain ⟨h1, h2, h3, h4, -⟩ :=
    cmdWord_fields 3#3 (BitVec.ofNat 7 addr) (BitVec.ofNat 16 txLen) (BitVec.ofNat 16 rxLen) 0
  rw [encode, decode_cmdWord, decodeCmd, h1, h2, h3, h4]
  simp
  omega

theorem start : Statement .start := fun _ => by decide
theorem stop : Statement .stop := fun _ => by decide
theorem txbyte : Statement .txbyte := fun _ => by decide
theorem rxbyte : Statement .rxbyte := fun _ => by decide
theorem sdaLow : Statement .sdaLow := fun _ => by decide
theorem sdaRelease : Statement .sdaRelease := fun _ => by decide
theorem sclLow : Statement .sclLow := fun _ => by decide
theorem sclRelease : Statement .sclRelease := fun _ => by decide
theorem sdaSample : Statement .sdaSample := fun _ => by decide
theorem delayQuarter : Statement .delayQuarter := fun _ => by decide
theorem delayHalf : Statement .delayHalf := fun _ => by decide
theorem delayRecovery : Statement .delayRecovery := fun _ => by decide
theorem delaySettle : Statement .delaySettle := fun _ => by decide
theorem latchClear : Statement .latchClear := fun _ => by decide

theorem addrWrite (addr : Addr) : Statement (.addrWrite addr) := by
  intro _
  revert addr
  decide +kernel

theorem addrRead (addr : Addr) : Statement (.addrRead addr) := by
  intro _
  revert addr
  decide +kernel

theorem dataByte (data : Byte) : Statement (.dataByte data) := by
  intro _
  revert data
  decide +kernel

theorem ack : Statement .ack := fun _ => by decide
theorem nack : Statement .nack := fun _ => by decide
theorem statusOk : Statement .statusOk := fun _ => by decide
theorem statusError : Statement .statusError := fun _ => by decide
theorem statusTimeout : Statement .statusTimeout := fun _ => by decide
theorem statusNack : Statement .statusNack := fun _ => by decide

end Laws.RoundTrip

end Sys2Proof
end

