-- ==== Sys2Proof/Laws/Sequencer.lean ====
section
/-! SUPPORT. What a step can do, said once: a reset, one primitive of a running command, or a move of the
host. -/

namespace Sys2Proof.Machine

/-- A pending `rst_n` is served first (R220, R221). -/
theorem step_reset {s : State} {rest : List Input} (h : s.inbox = .assertReset :: rest) :
    step s = .next (s.applyReset rest) := by
  simp only [step, engineStep, h]

/-- While a command runs, and no reset is pending, a step is one tick of the sequencer (R33, R164). -/
theorem step_busy {s : State} (hb : s.busy = true) (hr : s.resetPending = false) :
    step s = tick { s with inbox := letPass s.inbox } := by
  unfold State.resetPending at hr
  simp only [step, engineStep]
  split
  · simp_all
  · exact if_pos hb

/-- Between commands, and with no reset pending, a step is a move of the host (R171). -/
theorem step_idle {s : State} (hb : s.busy = false) (hr : s.resetPending = false) :
    step s = idleStep { s with done := false } := by
  unfold State.resetPending at hr
  simp only [step, engineStep]
  split
  · simp_all
  · exact if_neg (by simp [hb])

/-- SEQ names pin primitives only (R9, R33). -/
theorem eventList_subset (s : State) : ∀ i ∈ s.eventList, i ∈ pinPrimitives := by
  unfold State.eventList
  cases s.seq.sub <;> cases topBit s.shift <;> cases s.sendAck <;> decide

theorem nextPrimitive_mem {s : State} {i : Instr} (h : s.nextPrimitive = some i) : i ∈ pinPrimitives :=
  eventList_subset s i (List.mem_of_getElem? h)

/-- A pin primitive never stops; it writes the pins, the sample and the answers only, and adds its one
event (R9, R110 to R119). -/
theorem exec_pin {i : Instr} (h : i ∈ pinPrimitives) (s : State) :
    ∃ t, exec i s = .next t ∧
      t = { s with
        sdaDrv := t.sdaDrv, sclDrv := t.sclDrv, sdaLatch := t.sdaLatch, sclLatch := t.sclLatch,
        sample := t.sample, answers := t.answers, samples := t.samples,
        trace := s.trace ++ pinEvent (s.upcoming 0) i } := by
  simp only [pinPrimitives, List.mem_cons, List.not_mem_nil, or_false] at h
  rcases h with rfl | rfl | rfl | rfl | rfl | rfl | rfl | rfl | rfl | rfl <;> exact ⟨_, rfl, rfl⟩

/-- A pin primitive is one event (R12). -/
theorem length_pinEvent {i : Instr} (h : i ∈ pinPrimitives) (b : Bit) : (pinEvent b i).length = 1 := by
  simp only [pinPrimitives, List.mem_cons, List.not_mem_nil, or_false] at h
  rcases h with rfl | rfl | rfl | rfl | rfl | rfl | rfl | rfl | rfl | rfl <;> rfl

/-- Inside an event list SEQ moves on by one step, and only the bit sampled goes where its rule puts it
(R33, R141, R144). -/
theorem advance_inside {s : State} (h : s.seq.step + 1 < s.eventList.length) :
    s.advance = .next
      { s with
        seq := { s.seq with step := s.seq.step + 1 },
        ackbit := if s.seq.sub = .txack ∧ s.seq.step = 5 then s.sample else s.ackbit,
        shift := if s.seq.sub = .rxbit ∧ s.seq.step = 4 then shiftInBit s.shift s.sample else s.shift } := by
  unfold State.eventList at h
  unfold State.advance
  rcases hq : s.seq with ⟨phase, sub, n, second⟩
  rw [hq] at h
  cases sub <;> simp only [List.length_cons, List.length_nil] at h ⊢
  all_goals
    rcases n with _ | _ | _ | _ | _ | _ | _ | n <;>
      first
      | omega
      | simp [State.nextStep, State.captureAck, State.shiftIn, hq]

/-- A wait is over after one step of a running command. -/
@[simp] theorem letPass_wait (rest : List Input) : letPass (.wait :: rest) = rest := rfl

/-- Any other move stays. -/
theorem letPass_eq_self {moves : List Input} (h : ∀ rest, moves ≠ .wait :: rest) : letPass moves = moves := by
  unfold letPass
  split
  · exact absurd rfl (h _)
  · rfl

/-- What a tick is: the primitive SEQ names, then SEQ moves on (R33). -/
theorem tick_next {s t : State} :
    tick s = .next t ↔ ∃ i u, s.nextPrimitive = some i ∧ exec i { s with done := false } = .next u ∧
      u.advance = .next t := by
  unfold tick
  cases hp : s.nextPrimitive with
  | none => simp
  | some i =>
    obtain ⟨u, hu, -⟩ := exec_pin (nextPrimitive_mem hp) { s with done := false }
    simp [hu]

end Sys2Proof.Machine
end

