-- ==== Sys2Proof/Laws/Trace.lean ====
section
/-! SUPPORT. The readers of a trace run through appended lists one after the other. -/

namespace Sys2Proof.Machine

@[simp] theorem Drivers.afterAll_nil (d : Drivers) : d.afterAll [] = d := rfl

theorem Drivers.afterAll_append (d : Drivers) (xs ys : List Event) :
    d.afterAll (xs ++ ys) = (d.afterAll xs).afterAll ys := by
  induction xs generalizing d with
  | nil => rfl
  | cons x xs ih => simp [Drivers.afterAll, ih]

theorem WireReader.readAll_append (r : WireReader) (xs ys : List Event) :
    r.readAll (xs ++ ys) = (r.readAll xs).readAll ys := by
  induction xs generalizing r with
  | nil => rfl
  | cons x xs ih => simp [WireReader.readAll, ih]

theorem l2From_append (r : WireReader) (xs ys : List Event) :
    l2From r (xs ++ ys) = l2From r xs ++ l2From (r.readAll xs) ys := by
  induction xs generalizing r with
  | nil => rfl
  | cons x xs ih => simp [l2From, WireReader.readAll, ih, List.append_assoc]

theorem traceTime_append (xs ys : List Event) : traceTime (xs ++ ys) = traceTime xs + traceTime ys := by
  simp [traceTime]

theorem traceTime_cons (x : Event) (xs : List Event) : traceTime (x :: xs) = eventTime x + traceTime xs := by
  simp [traceTime]

@[simp] theorem traceTime_nil : traceTime [] = 0 := rfl

end Sys2Proof.Machine
end

