-- ==== Sys2Proof/Tests/Slice0.lean ====
section
/-! SUPPORT. Tests. Expected values are those of spec/95_test_vectors.md (`V-…`) or words written out from
the codes of spec/30_encoding.md; the witnesses show that the hypotheses of the statements can be met. -/

namespace Sys2Proof.Tests

open Sys2Proof Sys2Proof.Machine

/-! ### Helpers -/

/-- The next state, if there is one. -/
def after (o : Host.Outcome State Fault Refusal) : Option State :=
  match o with
  | .next t => some t
  | .fault _ => none
  | .refused _ => none

/-- The outcome is a next state of which `p` holds. -/
def nextWith (o : Host.Outcome State Fault Refusal) (p : State → Bool) : Bool :=
  match o with
  | .next t => p t
  | .fault _ => false
  | .refused _ => false

/-- The refusal, if it is one. -/
def refusal (o : Host.Outcome State Fault Refusal) : Option Refusal :=
  match o with
  | .next _ => none
  | .fault _ => none
  | .refused r => some r

/-- The state after INIT, with these answers and this transmit buffer, and room for three received bytes. -/
def readyWith (answers : List Bit) (tx : List Byte) : State :=
  { State.reset with
    sdaLatch := false, sclLatch := false, initialised := true, answers := answers, tx := Buffer.ofBytes tx,
    rx := ⟨3, []⟩ }

/-- A state with given drivers and latches, `(SCL_DRV, SDA_DRV; SCL_LATCH, SDA_LATCH)` as in the vectors. -/
def pinState (scl sda : Drv) (sclLatch sdaLatch : Bit) : State :=
  { State.reset with sclDrv := scl, sdaDrv := sda, sclLatch := sclLatch, sdaLatch := sdaLatch }

/-- The same four fields. -/
def pinsOf (s : State) : Drv × Drv × Bit × Bit := (s.sclDrv, s.sdaDrv, s.sclLatch, s.sdaLatch)

/-- A running WRITE of one byte to 0x55, before the first event of START. -/
def atStart : State :=
  { readyWith [] [0x10] with op := 1, addr := 0x55, txLen := 1, busy := true, seq := Seq.firstOfTransfer }

/-- The same, before the last event of its STOP. -/
def atStopEnd : State :=
  { atStart with
    sdaDrv := .drivenLow, sclDrv := .released, seq := ⟨.stopOk, .stop, 4, false⟩,
    trace := [.sda0, .d1, .scl0, .scl1, .d1] }

/-- The same, before the sample of the address byte's acknowledge slot. -/
def atSample : State :=
  { atStart with seq := ⟨.addr, .txack, 5, false⟩, answers := [true] }

/-! ### Well-formedness: each check refuses an ill-formed term -/

theorem test_wellFormed_address : (Instr.write 127 0).wellFormed = true ∧
    (Instr.write 128 0).wellFormed = false ∧ (Instr.read 128 0).wellFormed = false ∧
    (Instr.writeRead 128 0 0).wellFormed = false := by decide

theorem test_wellFormed_length : (Instr.write 0 65535).wellFormed = true ∧
    (Instr.write 0 65536).wellFormed = false ∧ (Instr.read 0 65536).wellFormed = false ∧
    (Instr.writeRead 0 65536 0).wellFormed = false ∧ (Instr.writeRead 0 0 65536).wellFormed = false := by
  decide

/-- R93: "Every value is legal"; V-I1, V-I2. -/
theorem test_wellFormed_speed : (Instr.init 100000).wellFormed = true ∧
    (Instr.init 400000).wellFormed = true := by decide

/-! ### Decoding: a word of each instruction, written out from its code -/

/-- R82, and `cmd_speed` above the other operands (entry 13). -/
theorem test_decode_init : decode ⟨.cmd, 0b000⟩ = .ok (.init 0) ∧
    decode ⟨.cmd, 0b10000000000000000000000000000001_0000000000000000_0000000000000000_0000000_000⟩ =
      .ok (.init 0x80000001) := by decide

theorem test_decode_write : decode ⟨.cmd, 0b1000000000000001_1000001_001⟩ = .ok (.write 0x41 0x8001) := by
  decide

theorem test_decode_read :
    decode ⟨.cmd, 0b1000000000000001_0000000000000000_1000001_010⟩ = .ok (.read 0x41 0x8001) := by decide

theorem test_decode_writeRead :
    decode ⟨.cmd, 0b1000000000000001_0000000000000011_1000001_011⟩ = .ok (.writeRead 0x41 3 0x8001) := by
  decide

/-- R83: an operand a command does not use may hold anything, `cmd_speed` as well. -/
theorem test_decode_ignores_unused :
    decode ⟨.cmd, 0b111_1111111111111111_0000000000000001_1010101_001⟩ = .ok (.write 0x55 1) := by decide

/-- R91. -/
theorem test_decode_seq : decode ⟨.seq, 0b00⟩ = .ok .start ∧ decode ⟨.seq, 0b01⟩ = .ok .stop ∧
    decode ⟨.seq, 0b10⟩ = .ok .txbyte ∧ decode ⟨.seq, 0b11⟩ = .ok .rxbyte := by decide

/-- R92. -/
theorem test_decode_pin : decode ⟨.pin, 0b000⟩ = .ok .sdaLow ∧ decode ⟨.pin, 0b001⟩ = .ok .sdaRelease ∧
    decode ⟨.pin, 0b010⟩ = .ok .sclLow ∧ decode ⟨.pin, 0b011⟩ = .ok .sclRelease ∧
    decode ⟨.pin, 0b100⟩ = .ok .sdaSample ∧ decode ⟨.pin, 0b110⟩ = .ok .latchClear := by decide

/-- R92: `dly_kind` 0, 1, 3, 4 above the code 101. -/
theorem test_decode_delay : decode ⟨.pin, 0b000_101⟩ = .ok .delayQuarter ∧
    decode ⟨.pin, 0b001_101⟩ = .ok .delayHalf ∧ decode ⟨.pin, 0b011_101⟩ = .ok .delayRecovery ∧
    decode ⟨.pin, 0b100_101⟩ = .ok .delaySettle := by decide

/-- R92: kind 2 is no event of its own, kinds 5 to 7 and code 111 are reserved. -/
theorem test_decode_pin_reserved : decode ⟨.pin, 0b010_101⟩ = .error .padSettlingAlone ∧
    decode ⟨.pin, 0b101_101⟩ = .error (.reservedDelayKind 5) ∧
    decode ⟨.pin, 0b111_101⟩ = .error (.reservedDelayKind 7) ∧
    decode ⟨.pin, 0b111⟩ = .error .reservedPinCode := by decide

/-- R85: worked values; 0x2A is 0x54 for a write, 0x7F is 0xFF for a read. -/
theorem test_decode_wire : decode ⟨.wireAddr, 0x54⟩ = .ok (.addrWrite 0x2A) ∧
    decode ⟨.wireAddr, 0xFF⟩ = .ok (.addrRead 0x7F) ∧ decode ⟨.wireData, 0x5A⟩ = .ok (.dataByte 0x5A) ∧
    decode ⟨.wireAck, 0⟩ = .ok .ack ∧ decode ⟨.wireAck, 1⟩ = .ok .nack := by decide

/-- R84. -/
theorem test_decode_status : decode ⟨.status, 0b00⟩ = .ok .statusOk ∧
    decode ⟨.status, 0b01⟩ = .ok .statusError ∧ decode ⟨.status, 0b10⟩ = .ok .statusTimeout ∧
    decode ⟨.status, 0b11⟩ = .ok .statusNack := by decide

/-- V-X3, and a word wider than its port. -/
theorem test_decode_refuses : decode ⟨.cmd, 0b100⟩ = .error (.reservedOperation 4) ∧
    decode ⟨.cmd, 0b111⟩ = .error (.reservedOperation 7) ∧
    decode ⟨.seq, 0b100⟩ = .error (.widerThanPort .seq) ∧
    decode ⟨.wireAck, 2⟩ = .error (.widerThanPort .wireAck) := by decide

/-- The table's rows as it numbers them. -/
theorem test_table_word : decodeTableWord 3 0 = some (.init 0) ∧ decodeTableWord 3 1 = some (.write 0 0) ∧
    decodeTableWord 3 4 = some .sdaSample ∧ decodeTableWord 3 8 = none := by decide

/-! ### Pin primitives (95_test_vectors.md section 2.1) -/

/-- V-P1, V-P14. -/
theorem test_sdaLow :
    (after (exec .sdaLow (pinState .released .released false false))).map pinsOf =
      some (.released, .drivenLow, false, false) ∧
    (after (exec .sdaLow (pinState .released .released false true))).map pinsOf =
      some (.released, .drivenLow, false, false) := by decide

/-- V-P3, V-P4. -/
theorem test_sclLow :
    (after (exec .sclLow (pinState .released .drivenLow false false))).map pinsOf =
      some (.drivenLow, .drivenLow, false, false) ∧
    (after (exec .sclLow (pinState .drivenLow .drivenLow false false))).map pinsOf =
      some (.drivenLow, .drivenLow, false, false) := by decide

/-- V-P5: the latch is unchanged. -/
theorem test_sdaRelease :
    (after (exec .sdaRelease (pinState .drivenLow .drivenLow false true))).map pinsOf =
      some (.drivenLow, .released, false, true) := by decide

/-- V-P7. -/
theorem test_sclRelease :
    (after (exec .sclRelease (pinState .drivenLow .released false false))).map pinsOf =
      some (.released, .released, false, false) := by decide

/-- V-P10: SDA is released first; the answer is used up. -/
theorem test_sdaSample :
    (after (exec .sdaSample { pinState .released .drivenLow false false with answers := [false, true] })).map
        (fun t => (pinsOf t, t.sample, t.answers, t.trace)) =
      some ((.released, .released, false, false), false, [true], [.smp false]) := by decide

/-- V-P11. -/
theorem test_delays :
    (after (exec .delayQuarter State.reset)).map State.trace = some [.d1] ∧
    (after (exec .delayHalf State.reset)).map State.trace = some [.d2] ∧
    (after (exec .delayRecovery State.reset)).map State.trace = some [.dr] ∧
    (after (exec .delaySettle State.reset)).map State.trace = some [.ds] := by decide

/-- V-P12. -/
theorem test_latchClear :
    (after (exec .latchClear (pinState .released .released true true))).map pinsOf =
      some (.released, .released, false, false) := by decide

/-! ### Bus sequences (sections 2.2 to 2.4) -/

/-- V-S1. -/
theorem test_start :
    (after (exec .start (pinState .released .released false false))).map
        (fun t => (t.drivers, t.trace, l2 t.trace)) =
      some (⟨.drivenLow, .drivenLow⟩, [.sda0, .d1, .scl0], [.s]) := by decide

/-- V-S2, V-S3. -/
theorem test_stop :
    (after (exec .stop (pinState .drivenLow .released false false))).map
        (fun t => (t.drivers, l1From ⟨.drivenLow, .released⟩ t.trace)) =
      some (⟨.released, .released⟩, [.sda0, .scl1, .sda1]) ∧
    (after (exec .stop (pinState .drivenLow .drivenLow false false))).map
        (fun t => (t.drivers, l1From ⟨.drivenLow, .drivenLow⟩ t.trace)) =
      some (⟨.released, .released⟩, [.scl1, .sda1]) := by decide

/-- V-S4: the source's three-event STOP yields no `P`. -/
theorem test_no_stop_from_three_events :
    l1From ⟨.drivenLow, .released⟩ [.scl1, .d1, .sda1] = [.scl1] ∧
    l2From ⟨⟨.drivenLow, .released⟩, none⟩ [.scl1, .d1, .sda1] = [] := by decide

/-- V-TX1: L1. -/
theorem test_txbyte_aa :
    (after (exec .txbyte { pinState .drivenLow .drivenLow false false with shift := 0xAA, answers := [false] })).map
        (fun t => (t.drivers, t.ackbit, l1From ⟨.drivenLow, .drivenLow⟩ t.trace)) =
      some (⟨.drivenLow, .released⟩, false,
        [.sda1, .scl1, .scl0, .sda0, .scl1, .scl0, .sda1, .scl1, .scl0, .sda0, .scl1, .scl0, .sda1, .scl1,
          .scl0, .sda0, .scl1, .scl0, .sda1, .scl1, .scl0, .sda0, .scl1, .scl0, .sda1, .scl1, .scl0]) := by
  decide +kernel

/-- V-TX2: nobody acknowledges; 19 Q. -/
theorem test_txbyte_00 :
    (after (exec .txbyte { pinState .drivenLow .drivenLow false false with shift := 0, answers := [true] })).map
        (fun t => (t.ackbit, t.trace.length, traceQuarters t.trace)) = some (true, 48, 19) := by
  decide +kernel

/-- V-RX1. -/
theorem test_rxbyte_fe :
    (after (exec .rxbyte
        { pinState .drivenLow .released false false with
          sendAck := true, answers := [true, true, true, true, true, true, true, false] })).map
        (fun t => (t.drivers, t.shift, l1From ⟨.drivenLow, .released⟩ t.trace)) =
      some (⟨.drivenLow, .released⟩, 0xFE,
        [.scl1, .scl0, .scl1, .scl0, .scl1, .scl0, .scl1, .scl0, .scl1, .scl0, .scl1, .scl0, .scl1, .scl0,
          .scl1, .scl0, .sda0, .scl1, .scl0, .sda1]) := by decide +kernel

/-- V-RX3, from another SHIFT. -/
theorem test_rxbyte_a5 :
    (after (exec .rxbyte
        { pinState .drivenLow .released false false with
          shift := 0xFF, sendAck := true, answers := [true, false, true, false, false, true, false, true] })).map
        (fun t => (t.shift, t.trace.length, traceQuarters t.trace)) = some (0xA5, 56, 35) := by
  decide +kernel

/-! ### Commands (sections 2.6 and 2.7) -/

/-- V-I1, whatever `SPEED_W` is. -/
theorem test_init :
    nextWith (exec (.init 100000) State.reset) (fun t =>
      pinsOf t = (.released, .released, false, false) ∧ t.trace = [.sda1, .scl1, .lc, .dr] ∧
      l1From Drivers.idle t.trace = [] ∧ t.initialised = true ∧ t.busy = false ∧ t.statusPort = none) := by
  decide

/-- V-I3: the last status stops being valid. -/
theorem test_init_again :
    (after (exec (.init 0) { readyWith [] [] with status := .nack, statusValid := true })).map
        (fun t => (t.status, t.statusPort)) = some (.nack, none) := by decide

/-- V-W1 (scenario 1). -/
theorem test_write :
    nextWith (exec (.write 0x55 1) (readyWith [false, false] [0x00])) (fun t =>
      t.statusPort = some .ok ∧ l2 t.trace = frameSyms [(0xAA, false), (0x00, false)] ∧
      t.trace.length = 104 ∧ t.samples = 2 ∧ t.bufOps = [.fetch 0]) := by decide +kernel

/-- V-W3n: the third byte is never fetched. -/
theorem test_write_refused :
    nextWith (exec (.write 0x10 3) (readyWith [false, false, true] [0x80, 0x7F, 0x33])) (fun t =>
      t.statusPort = some .nack ∧ l2 t.trace = frameSyms [(0x20, false), (0x80, false), (0x7F, true)] ∧
      traceQuarters t.trace = 60 ∧ t.samples = 3 ∧ t.bufOps = [.fetch 0, .fetch 1]) := by
  decide +kernel

/-- V-R2 (scenario 3). -/
theorem test_read :
    nextWith (exec (.read 0x55 2) (readyWith (false :: bitsOf 0xFE ++ bitsOf 0x01) [])) (fun t =>
      t.statusPort = some .ok ∧ l2 t.trace = frameSyms [(0xAB, false), (0xFE, false), (0x01, true)] ∧
      t.trace.length = 168 ∧ t.samples = 17 ∧ t.rx = ⟨3, [(0, 0xFE), (1, 0x01)]⟩) := by decide +kernel

/-- V-R2n. -/
theorem test_read_refused :
    nextWith (exec (.read 0x55 2) (readyWith [true] [])) (fun t =>
      t.statusPort = some .nack ∧ l2 t.trace = frameSyms [(0xAB, true)] ∧ t.trace.length = 56 ∧
      t.rx = ⟨3, []⟩ ∧ t.bufOps = []) := by decide +kernel

/-- V-WR1 (scenario 4). -/
theorem test_writeRead :
    nextWith (exec (.writeRead 0x55 1 1) (readyWith ([false, false, false] ++ bitsOf 0x11) [0x10])) (fun t =>
      t.statusPort = some .ok ∧
      l2 t.trace = frameSyms [(0xAA, false), (0x10, false)] ++ frameSyms [(0xAB, false), (0x11, true)] ∧
      t.trace.length = 217 ∧ t.samples = 11 ∧ t.rx = ⟨3, [(0, 0x11)]⟩) := by decide +kernel

/-- V-WR1b: no `DS`, no read frame. -/
theorem test_writeRead_refused :
    nextWith (exec (.writeRead 0x55 1 1) (readyWith [false, true] [0x10])) (fun t =>
      t.statusPort = some .nack ∧ l2 t.trace = frameSyms [(0xAA, false), (0x10, true)] ∧
      t.trace.length = 104 ∧ t.samples = 2 ∧ t.rx = ⟨3, []⟩) := by decide +kernel

/-- V-X1, V-X2. -/
theorem test_transfer_before_init :
    refusal (exec (.write 0x55 1) State.reset) = some .notInitialised ∧
    refusal (exec (.read 0x55 1) State.reset) = some .notInitialised ∧
    refusal (exec (.writeRead 0x55 1 1) State.reset) = some .notInitialised := by decide

/-- V-X5. -/
theorem test_short_buffers :
    refusal (exec (.write 0x55 2) (readyWith [] [0x00])) = some .txBufferShort ∧
    refusal (exec (.read 0x55 4) (readyWith [] [])) = some .rxBufferShort ∧
    refusal (exec (.write 128 0) (readyWith [] [])) = some .addressTooWide := by decide

/-! ### Wire formats and status codes -/

/-- Section 2.5: 0x2A and 0x7F on the wire. -/
theorem test_address_bytes :
    (after (exec (.addrWrite 0x2A) { pinState .drivenLow .drivenLow false false with answers := [false] })).map
        (fun t => l2From ⟨⟨.drivenLow, .drivenLow⟩, none⟩ t.trace) =
      some [.bit false, .bit true, .bit false, .bit true, .bit false, .bit true, .bit false, .bit false,
        .bit false] ∧
    (after (exec (.addrRead 0x7F) { pinState .drivenLow .drivenLow false false with answers := [true] })).map
        (fun t => (l2From ⟨⟨.drivenLow, .drivenLow⟩, none⟩ t.trace, t.ackbit)) =
      some (groupSyms 0xFF true, true) := by decide +kernel

/-- V-TX4: L1. -/
theorem test_dataByte :
    (after (exec (.dataByte 0x01) { pinState .drivenLow .released false false with answers := [false] })).map
        (fun t => l1From ⟨.drivenLow, .released⟩ t.trace) =
      some [.sda0, .scl1, .scl0, .scl1, .scl0, .scl1, .scl0, .scl1, .scl0, .scl1, .scl0, .scl1, .scl0, .scl1,
        .scl0, .sda1, .scl1, .scl0, .scl1, .scl0] := by decide +kernel

/-- The examples of R145. -/
theorem test_ack_nack :
    (after (exec .ack (pinState .released .released false false))).map State.trace =
      some [.scl0, .sda0, .d1, .scl1, .d2, .scl0, .sda1] ∧
    (after (exec .nack (pinState .released .released false false))).map
        (fun t => l1From Drivers.idle t.trace) = some [.scl0, .scl1, .scl0] := by decide

theorem test_status :
    (after (exec .statusOk atStart)).map (fun t => (t.statusPort, t.busy, t.done)) = some (some .ok, false, true) ∧
    (after (exec .statusNack atStart)).map (fun t => (t.statusPort, t.busy, t.done)) =
      some (some .nack, false, true) ∧
    refusal (exec .statusError atStart) = some .statusNeverProduced ∧
    refusal (exec .statusTimeout atStart) = some .statusNeverProduced := by decide

/-! ### Steps -/

/-- A table word placed where the step fetches is the first instruction to run. -/
theorem test_fetch : step (State.reset.withFetchWord 3 0) = exec (.init 0) State.reset := rfl

/-- R92, R115: pad settling by itself waits, without an event. -/
theorem test_pad_settling : step { State.reset with inbox := [.call ⟨.pin, 0b010_101⟩] } = .next State.reset := rfl

/-- P5, command 2. -/
theorem test_fetch_reserved : refusal (step { State.reset with inbox := [.call ⟨.cmd, 0b101⟩] }) =
    some (.undecodable (.reservedOperation 5)) := by decide

/-- A strobed INIT takes one step to be accepted and four primitives (V-I1). -/
theorem test_strobed_init :
    stepN 5 { State.reset with inbox := [.strobe (encode (.init 0)).bits] } =
      step { State.reset with inbox := [.call (encode (.init 0))] } := rfl

/-- V-X4: a command presented while one runs waits. -/
theorem test_busy_waits :
    (after (step { atStart with inbox := [.call (encode (.init 0))] })).map
        (fun t => (t.seq.step, t.trace, t.inbox.length)) = some (1, [.sda0], 1) := by decide

/-- R221, D9: `rst_n` after two primitives of START of a strobed WRITE, with SDA low: both lines are
released at once. -/
theorem test_reset_in_start :
    (after (stepN 3 { readyWith [] [0x10] with
        inbox := [.strobe (encode (.write 0x55 1)).bits, .wait, .wait, .assertReset] })).map
        (fun t => (t.drivers, t.busy, t.trace)) = some (⟨.released, .drivenLow⟩, true, [.sda0, .d1]) ∧
    (after (stepN 4 { readyWith [] [0x10] with
        inbox := [.strobe (encode (.write 0x55 1)).bits, .wait, .wait, .assertReset] })).map
        (fun t => (t.drivers, t.busy, t.initialised)) = some (Drivers.idle, false, false) := by decide

/-- R221: both lines are released at once. -/
theorem test_reset_while_busy :
    (after (step { atStopEnd with inbox := [.assertReset] })).map (fun t => (t.drivers, t.busy)) =
      some (Drivers.idle, false) := by decide

/-! ### Witnesses: the hypotheses of each statement can be met -/

theorem witness_SdaLowPullsSdaLow :
    (pinState .released .drivenLow false false).sdaDrv = .drivenLow ∧
    (pinState .released .drivenLow false false).sdaLatch = false ∧
    State.reset.sdaDrv = .released ∧ State.reset.sdaLatch = true ∧
    exec .sdaLow State.reset = .next State.reset.sdaLow := ⟨rfl, rfl, rfl, rfl, rfl⟩

theorem witness_SclLowPullsSclLow :
    (pinState .drivenLow .released false false).sclDrv = .drivenLow ∧
    (pinState .drivenLow .released false false).sclLatch = false := by decide

theorem witness_SdaReleaseFloatsSda : State.reset.sdaDrv = .released := by decide

theorem witness_SclReleaseFloatsScl : State.reset.sclDrv = .released := by decide

theorem witness_SdaSampleReadsTheLine : (readyWith [true] []).answers = true :: [] := by decide

theorem witness_PinPrimitivesAreIdempotent : Instr.sdaLow ∈ pinPrimitives ∧ Instr.latchClear ∈ pinPrimitives ∧
    (Drivers.idle.afterAll [.d1]).after .sda1 = Drivers.idle.afterAll [.d1] := by decide

theorem witness_RxByteReceivesEightBits :
    (List.range 8).map (readyWith (bitsOf 0xA5) []).upcoming = bitsOf 0xA5 := by decide

/-- An operand that fits at both ends of its range, and the first that does not, whatever `SPEED_W` is. -/
theorem witness_InitReleasesAndClears :
    0 < 2 ^ Config.speedW ∧ 2 ^ Config.speedW - 1 < 2 ^ Config.speedW ∧
    ¬2 ^ Config.speedW < 2 ^ Config.speedW ∧ State.reset.busy = false :=
  ⟨Nat.two_pow_pos _, Nat.sub_lt (Nat.two_pow_pos _) Nat.one_pos, Nat.lt_irrefl _, rfl⟩

theorem witness_InitSpeedIsIgnored :
    (∃ t, exec (.init 0) State.reset = .next t) ∧
    ∃ t, exec (.init (2 ^ Config.speedW)) State.reset = .next t := ⟨⟨_, rfl⟩, _, rfl⟩

theorem witness_WriteSendsItsFrame :
    (0 < 128 ∧ 0 < 65536 ∧ (readyWith [] []).ready ∧ (readyWith [] []).tx.holds 0 = true) ∧
    (127 < 128 ∧ 65535 < 65536 ∧ (readyWith [] (List.replicate 65535 0)).ready ∧
      (readyWith [] (List.replicate 65535 0)).tx.holds 65535 = true) := by
  refine ⟨by decide, by decide, by decide, ⟨rfl, rfl⟩, ?_⟩
  have h := Buffer.holds_ofBytes (List.replicate 65535 0)
  rwa [List.length_replicate] at h

theorem witness_ReadReceivesItsFrame :
    (0 < 128 ∧ 0 < 65536 ∧ (readyWith [] []).ready ∧ (readyWith [] []).rx.wf = true ∧
      0 ≤ (readyWith [] []).rx.size) ∧
    (127 < 128 ∧ 65535 < 65536 ∧ State.ready { readyWith [] [] with rx := ⟨65535, []⟩ } ∧
      (Buffer.mk 65535 []).wf = true ∧ 65535 ≤ (Buffer.mk 65535 []).size) := by decide

theorem witness_WriteReadRunsTwoFrames :
    127 < 128 ∧ 1 < 65536 ∧ 3 < 65536 ∧ (readyWith [false, false] [0x10]).ready ∧
    (readyWith [false, false] [0x10]).tx.holds 1 = true ∧ (readyWith [false, false] [0x10]).rx.wf = true ∧
    3 ≤ (readyWith [false, false] [0x10]).rx.size ∧
    allAcked (1 + 1) (readyWith [false, false] [0x10]).upcoming = true := by decide

theorem witness_WriteReadStopsAtWriteNack :
    127 < 128 ∧ 1 < 65536 ∧ 3 < 65536 ∧ (readyWith [false, true] [0x10]).ready ∧
    (readyWith [false, true] [0x10]).tx.holds 1 = true ∧ 3 ≤ (readyWith [false, true] [0x10]).rx.size ∧
    allAcked (1 + 1) (readyWith [false, true] [0x10]).upcoming = false := by decide

theorem witness_RefusedAddressEndsTheCommand :
    127 < 128 ∧ 1 < 65536 ∧ (readyWith [true] [0x10]).ready ∧ (readyWith [true] [0x10]).upcoming 0 = true ∧
    (readyWith [true] [0x10]).tx.holds 1 = true ∧ 1 ≤ (readyWith [true] [0x10]).rx.size := by decide

theorem witness_CommandsReturnWithTheBusIdle :
    (after (exec (.init 0) State.reset)).isSome = true ∧
    (after (exec (.write 0 0) (readyWith [true] []))).isSome = true ∧
    (after (exec (.read 0 0) (readyWith [true] []))).isSome = true ∧
    (after (exec (.writeRead 0 0 0) (readyWith [true] []))).isSome = true := by decide +kernel

theorem witness_BusyAndUninitialisedAreRefused :
    127 < 128 ∧ 65535 < 65536 ∧ atStart.busy = true ∧ State.reset.busy = false ∧
    State.reset.initialised = false := by decide

/-- Each clause at its boundary: 128, 65536, an idle engine, one byte too few, one byte of room too few. -/
theorem witness_OperandsAndBuffersAreChecked :
    128 ≤ 128 ∧ 127 < 128 ∧ 65536 ≤ 65536 ∧ State.reset.busy = false ∧
    (2 < 65536 ∧ (readyWith [] [0x10]).ready ∧ (readyWith [] [0x10]).tx.holds 2 = false) ∧
    (4 < 65536 ∧ (readyWith [] [0x10]).rx.size < 4 ∧ (readyWith [] [0x10]).tx.holds 1 = true) := by
  decide

theorem witness_StatusIsNeverErrorNorTimeout :
    exec .statusOk State.reset = .next (State.reset.endTransfer .ok) ∧
    exec .sdaLow State.reset = .next State.reset.sdaLow := ⟨rfl, rfl⟩

theorem witness_FrameEventAndSampleCounts :
    allAcked (([] : List Byte).length + 1) (fun _ => false) = true ∧
    allAcked (([0x10, 0x20] : List Byte).length + 1) (fun _ => false) = true ∧
    (fun _ : Nat => false) 0 = false ∧ (fun _ : Nat => true) 0 = true := by decide

theorem witness_FrameDurationsAreBounded :
    allAcked (([0x10] : List Byte).length + 1) (fun _ => false) = true ∧
    (fun _ : Nat => false) 0 = false ∧ (fun _ : Nat => true) 0 = true := by decide

theorem witness_CommandsEndWithinTheirBounds :
    (after (exec (.init 0) State.reset)).isSome = true ∧
    (after (exec (.write 127 1) (readyWith [false, false] [0x10]))).isSome = true ∧
    (after (exec (.read 127 0) (readyWith [false] []))).isSome = true ∧
    (after (exec (.writeRead 127 0 0) (readyWith [false, false] []))).isSome = true := by decide +kernel

theorem witness_WireBytesAreTransmitted :
    (∃ a, Instr.addrWrite 0x7F = .addrWrite a ∧ addrByte 0x7F false = addrByte a false) ∧
    (∃ a, Instr.addrRead 0 = .addrRead a ∧ addrByte 0 true = addrByte a true) ∧
    Instr.dataByte 0xFF = .dataByte 0xFF := ⟨⟨0x7F, rfl, rfl⟩, ⟨0, rfl, rfl⟩, rfl⟩

theorem witness_StepRunsTheCalledInstruction :
    State.reset.busy = false ∧
    State.inbox { State.reset with inbox := [.call (encode (.init 0)), .assertReset] } =
      .call (encode (.init 0)) :: [.assertReset] ∧
    decode (encode (.init 0)) = .ok (.init 0) := by decide

/-- Inside a list (START, step 0) and at its end (STOP, step 4). -/
theorem witness_StepRunsThePrimitiveOfSeq :
    (atStart.busy = true ∧ atStart.resetPending = false ∧ atStart.nextPrimitive = some .sdaLow ∧
      atStart.seq.step + 1 < atStart.eventList.length) ∧
    (atStopEnd.busy = true ∧ atStopEnd.resetPending = false ∧ atStopEnd.nextPrimitive = some .sdaRelease ∧
      atStopEnd.seq.step + 1 = atStopEnd.eventList.length ∧ (after (step atStopEnd)).isSome = true) := by
  decide

/-- A state in each event list, and the two values of the bits a list depends on. -/
theorem witness_EventListsAreTheTables :
    (∀ u ∈ [Sub.init, .start, .stop, .settle, .txbit, .txack, .rxPrologue, .rxbit, .rxack],
      State.seq { State.reset with seq := ⟨.idle, u, 0, false⟩ } = ⟨.idle, u, 0, false⟩) ∧
    (0x80#8).getLsbD 7 = true ∧ (0x7F#8).getLsbD 7 = false := by decide

/-- A running command of operation `op` before the last primitive of an event list, `a` in ACKBIT. -/
def atListEnd (op : BitVec 3) (phase : Phase) (sub : Sub) (n : Nat) (second a : Bool) : State :=
  { readyWith [] [0x10] with
    op := op, txLen := 1, rxLen := 1, bitcnt := 1, ackbit := a, busy := true, seq := ⟨phase, sub, n, second⟩ }

/-- Whether the state is before the last primitive of its list and its step answers a next state. -/
def endsList (s : State) : Bool :=
  s.busy && !s.resetPending && decide (s.seq.step + 1 = s.eventList.length) && (after (step s)).isSome

/-- Every clause: each list at its end, an acknowledge clock that read 1, one that read 0 of a sent and of
a received address and of a sent byte, STOP after Nack, STOP before the wait and STOP at the end. -/
theorem witness_PhaseMovesAsTheCommandSays :
    endsList (atListEnd 0 .init .init 3 false false) = true ∧
    endsList (atListEnd 1 .start .start 2 false false) = true ∧
    endsList (atListEnd 1 .addr .txbit 4 false false) = true ∧
    endsList (atListEnd 1 .addr .txack 7 false true) = true ∧
    endsList (atListEnd 1 .addr .txack 7 false false) = true ∧
    endsList (atListEnd 3 .addr .txack 7 true false) = true ∧
    endsList (atListEnd 1 .txdata .txack 7 false false) = true ∧
    endsList (atListEnd 2 .rxdata .rxPrologue 0 false false) = true ∧
    endsList (atListEnd 2 .rxdata .rxbit 5 false false) = true ∧
    endsList (atListEnd 2 .rxdata .rxack 6 false false) = true ∧
    endsList (atListEnd 1 .stopNack .stop 4 false true) = true ∧
    endsList (atListEnd 3 .stopOk .stop 4 false false) = true ∧
    endsList (atListEnd 3 .stopOk .stop 4 true false) = true ∧
    endsList (atListEnd 3 .settle .settle 0 false false) = true := by decide +kernel

/-- The acceptances and the refusals, at the greatest operands that the buffers allow. -/
theorem witness_StrobedCommandsAreAccepted :
    (readyWith [] [0x10]).busy = false ∧ 127 < 128 ∧ 1 < 65536 ∧ 3 < 65536 ∧
    2 ^ Config.speedW - 1 < 2 ^ Config.speedW ∧ (readyWith [] [0x10]).initialised = true ∧
    (readyWith [] [0x10]).tx.holds 1 = true ∧ 3 ≤ (readyWith [] [0x10]).rx.size ∧
    ¬(State.reset.initialised = true ∧ State.reset.tx.holds 0 = true) ∧
    ¬((readyWith [] [0x10]).initialised = true ∧ 4 ≤ (readyWith [] [0x10]).rx.size) :=
  ⟨rfl, by decide, by decide, by decide, Nat.sub_lt (Nat.two_pow_pos _) Nat.one_pos, rfl, by decide, by decide,
    by decide, by decide⟩

theorem witness_HostMovesBetweenCommands :
    State.reset.busy = false ∧ State.reset.inbox = [] ∧
    State.inbox { State.reset with inbox := [.loadTx [0x10]] } = .loadTx [0x10] :: [] ∧
    State.inbox { State.reset with inbox := [.giveRx 3] } = .giveRx 3 :: [] ∧
    State.inbox { State.reset with inbox := [.wait] } = .wait :: [] := by decide

/-- INIT from reset, cut before its first and before its last primitive. -/
theorem witness_ResetReachesEveryPointOfACommand :
    (encode (.init 0)).format = .cmd ∧ (Instr.init 0).wellFormed = true ∧ State.reset.busy = false ∧
    (after (step { State.reset with inbox := [.call (encode (.init 0))] })).any (fun t =>
      decide (State.reset.trace.length + 0 < t.trace.length ∧ State.reset.trace.length + 3 < t.trace.length)) =
        true := by decide

theorem witness_ResetReleasesBothLinesAtOnce :
    State.inbox { atStopEnd with inbox := [.assertReset] } = .assertReset :: [] := by decide

theorem witness_CommandsWaitWhileBusy :
    State.busy { atStart with inbox := [.call (encode (.init 0))] } = true ∧
    State.resetPending { atStart with inbox := [.call (encode (.init 0))] } = false ∧
    State.resetPending { atStart with inbox := [.wait] } = false ∧
    (after (step { atStart with inbox := [.wait] })).isSome = true ∧
    (after (step { atStart with inbox := [.call (encode (.init 0))] })).isSome = true := by decide

theorem witness_legal_atStart : atStart.Inv where
  txWf := by decide
  rxWf := by decide
  idle := by decide
  running := by decide
  latches := by decide
  initFirst := by decide
  status := by decide
  traced := by decide
  host := by decide

theorem witness_legal_atStopEnd : atStopEnd.Inv where
  txWf := by decide
  rxWf := by decide
  idle := by decide
  running := by decide
  latches := by decide
  initFirst := by decide
  status := by decide
  traced := by decide
  host := by decide

theorem witness_legal_atSample : atSample.Inv where
  txWf := by decide
  rxWf := by decide
  idle := by decide
  running := by decide
  latches := by decide
  initFirst := by decide
  status := by decide
  traced := by decide
  host := by decide

/-- StepsKeepLegalStates and NoPadGlitches. -/
theorem witness_StepsKeepLegalStates : atStart.Inv ∧ (after (step atStart)).isSome = true :=
  ⟨witness_legal_atStart, by decide⟩

/-- START falls at step 0; STOP rises at step 4. -/
theorem witness_SdaChangesOnlyInStartAndStop :
    (atStart.Inv ∧ atStart.busy = true ∧ atStart.resetPending = false ∧ atStart.sclDrv = .released ∧
      (after (step atStart)).map State.sdaDrv = some .drivenLow ∧ atStart.sdaDrv ≠ .drivenLow) ∧
    (atStopEnd.Inv ∧ atStopEnd.busy = true ∧ atStopEnd.resetPending = false ∧ atStopEnd.sclDrv = .released ∧
      (after (step atStopEnd)).map State.sdaDrv = some .released ∧ atStopEnd.sdaDrv ≠ .released) :=
  ⟨⟨witness_legal_atStart, by decide⟩, witness_legal_atStopEnd, by decide⟩

theorem witness_SamplesAreTakenWithLinesReleased :
    atSample.Inv ∧ atSample.busy = true ∧ atSample.nextPrimitive = some .sdaSample :=
  ⟨witness_legal_atSample, by decide⟩

theorem witness_NoPadGlitches : atStopEnd.Inv ∧ (after (step atStopEnd)).isSome = true :=
  ⟨witness_legal_atStopEnd, by decide⟩

theorem witness_RunningCommandsNeverStop : atSample.Inv ∧ atSample.busy = true :=
  ⟨witness_legal_atSample, by decide⟩

theorem witness_StrobedCommandsEndAsCalled :
    (encode (.write 127 0)).format = .cmd ∧ (Instr.write 127 0).wellFormed = true ∧
    (readyWith [false] []).busy = false ∧ (readyWith [false] []).resetPending = false ∧ letPass [] = [] ∧
    (after (step { readyWith [false] [] with inbox := [.call (encode (.write 127 0))] })).any (fun t =>
      decide ((readyWith [false] []).trace.length + 56 = t.trace.length)) = true := by decide +kernel

theorem witness_DecodeInvertsEncode :
    (Instr.writeRead 127 65535 65535).wellFormed = true ∧
    (Instr.init 100000).wellFormed = true := by decide

theorem witness_DecodedInstructionsAreWellFormed :
    decode ⟨.cmd, 0b1111111111111111_1111111_001⟩ = .ok (.write 127 65535) := by decide

theorem witness_ReservedCodesAreRefused :
    4 ≤ (PortWord.mk .cmd 0b100).cmdOp.toNat ∧ 4 ≤ (PortWord.mk .cmd 0b111).cmdOp.toNat ∧
    (PortWord.mk .pin 0b000111).bits < 64 ∧ (PortWord.mk .pin 0b000111).pinCode = 0b111#3 ∧
    (PortWord.mk .pin 0b101101).bits < 64 ∧ (PortWord.mk .pin 0b101101).pinCode = 0b101#3 ∧
    5 ≤ (PortWord.mk .pin 0b101101).dlyKind.toNat ∧ State.reset.busy = false ∧
    State.inbox { State.reset with inbox := [.call ⟨.cmd, 0b100⟩] } = .call ⟨.cmd, 0b100⟩ :: [] := by
  decide

theorem witness_PadSettlingIsAWaitWithoutEvent :
    (PortWord.mk .pin 0b010_101).bits < 64 ∧ (PortWord.mk .pin 0b010_101).pinCode = 0b101#3 ∧
    (PortWord.mk .pin 0b010_101).dlyKind = 2#3 ∧ State.reset.busy = false ∧
    State.inbox { State.reset with inbox := [.call ⟨.pin, 0b010_101⟩] } = .call ⟨.pin, 0b010_101⟩ :: [] := by
  decide

theorem witness_StoreWritesOneByte : (Buffer.mk 3 [(1, 0x10)]).wf = true ∧ 2 < (Buffer.mk 3 [(1, 0x10)]).size := by
  decide

theorem witness_EveryByteButTheLastIsAcknowledged : (65535 < 65536 ∧ 0 < 65535) ∧ (1 < 65536 ∧ 0 < 1) := by
  decide

end Sys2Proof.Tests
end

section
/-! PROOFS. The sequencer at the end of an event list, and the family 00_scope: what a step of a running
command does (R9, R33) and what the status codes do as operations (R11, R84). -/

namespace Sys2Proof.Machine

/-! ### The status codes as operations -/

/-- `return Ok` is the end of a transfer (R11, R164). -/
theorem exec_statusOk (s : State) : exec .statusOk s = .next (s.endTransfer .ok) := rfl

/-- After its STOP, `raise Nack` is the end of a transfer (R197). -/
theorem exec_statusNack (s : State) : exec .statusNack s = .next (s.endTransfer .nack) := rfl

/-! ### A step of a running command -/

/-- A step of a running command is the primitive SEQ names, then SEQ's move (R9, R33). -/
theorem step_eq_advance {s u : State} {i : Instr} (hb : s.busy = true) (hr : s.resetPending = false)
    (hp : s.nextPrimitive = some i)
    (hu : exec i { s with done := false, inbox := letPass s.inbox } = .next u) : step s = u.advance := by
  have hp' : State.nextPrimitive { s with inbox := letPass s.inbox } = some i := hp
  simp only [step_busy hb hr, tick, hp', hu]

/-! ### SEQ's move where an event list ends -/

section ListEnd

variable {s : State} (h : s.seq.step + 1 = s.eventList.length)
include h

/-- INIT's list ends the command (R160). -/
theorem advance_of_init (hu : s.seq.sub = .init) : s.advance = .next s.endInit := by
  have hn : s.seq.step = 3 := by simpa [State.eventList, hu] using h
  simp only [State.advance, hu, hn]

/-- START leads to the address byte (R161, R162). -/
theorem advance_of_start (hu : s.seq.sub = .start) :
    s.advance = .next (s.beginTxByte .addr (addrByte s.addr s.reading)) := by
  have hn : s.seq.step = 2 := by simpa [State.eventList, hu] using h
  simp only [State.advance, hu, hn]

/-- STOP ends the command, or leads to WRITE_READ's wait (R163, R164, R197). -/
theorem advance_of_stop (hu : s.seq.sub = .stop) : s.advance = .next s.afterStop := by
  have hn : s.seq.step = 4 := by simpa [State.eventList, hu] using h
  simp only [State.advance, hu, hn]

/-- WRITE_READ's wait leads to its read phase (R163). -/
theorem advance_of_settle (hu : s.seq.sub = .settle) :
    s.advance = .next (s.beginSecond.goTo .start .start) := by
  have hn : s.seq.step = 0 := by simpa [State.eventList, hu] using h
  simp only [State.advance, hu, hn]

/-- A data bit sent leads to the next, the last one to the acknowledge clock (R142). -/
theorem advance_of_txbit (hu : s.seq.sub = .txbit) :
    s.advance = .next (s.shiftOut.goTo s.seq.phase (if s.bitcnt = 1 then .txack else .txbit)) := by
  have hn : s.seq.step = 4 := by simpa [State.eventList, hu] using h
  simp only [State.advance, hu, hn]
  split <;> rfl

/-- The acknowledge clock leads on by ACKBIT (R171). -/
theorem advance_of_txack (hu : s.seq.sub = .txack) : s.advance = s.afterTxAck := by
  have hn : s.seq.step = 7 := by simpa [State.eventList, hu] using h
  simp only [State.advance, hu, hn]

/-- The prologue of RXBYTE leads to its first bit (R146). -/
theorem advance_of_rxPrologue (hu : s.seq.sub = .rxPrologue) :
    s.advance = .next (State.goTo .rxdata .rxbit { s with shift := 0, bitcnt := 8 }) := by
  have hn : s.seq.step = 0 := by simpa [State.eventList, hu] using h
  simp only [State.advance, hu, hn]

/-- A data bit received leads to the next, the last one to slot 9 (R146). -/
theorem advance_of_rxbit (hu : s.seq.sub = .rxbit) :
    s.advance = .next
      (State.goTo .rxdata (if s.bitcnt = 1 then .rxack else .rxbit) { s with bitcnt := s.bitcnt - 1 }) := by
  have hn : s.seq.step = 5 := by simpa [State.eventList, hu] using h
  simp only [State.advance, hu, hn]
  split <;> rfl

/-- After slot 9 of a received byte the byte is stored (R162). -/
theorem advance_of_rxack (hu : s.seq.sub = .rxack) : s.advance = s.afterRxAck := by
  have hn : s.seq.step = 6 := by simpa [State.eventList, hu] using h
  simp only [State.advance, hu, hn]

end ListEnd

/-! ### What SEQ's move keeps -/

/-- SEQ has left its event list, from `s` to `t`: STEP is 0, and no register has changed but those a rule
writes between two events. The drivers, latches and answers, the trace, the operands, ACKBIT and the
host's buffers and moves are not among them. -/
def State.MovesOn (s t : State) : Prop :=
  t.seq.step = 0 ∧
  t = { s with
    shift := t.shift, bitcnt := t.bitcnt, idx := t.idx, sendAck := t.sendAck, status := t.status,
    statusValid := t.statusValid, busy := t.busy, initialised := t.initialised, seq := t.seq,
    done := t.done, bufOps := t.bufOps }

theorem movesOn_goTo (p : Phase) (u : Sub) (s : State) : s.MovesOn (s.goTo p u) := ⟨rfl, rfl⟩

theorem movesOn_nextRxByte (s : State) : s.MovesOn s.nextRxByte := by
  unfold State.nextRxByte
  split
  · exact ⟨rfl, rfl⟩
  · exact movesOn_goTo ..

theorem movesOn_afterStop (s : State) : s.MovesOn s.afterStop := by
  unfold State.afterStop
  split_ifs
  · exact ⟨rfl, rfl⟩
  · exact movesOn_goTo ..
  · exact ⟨rfl, rfl⟩

theorem movesOn_of_nextTxByte {s t : State} (ht : s.nextTxByte = .next t) : s.MovesOn t := by
  unfold State.nextTxByte at ht
  split at ht
  · split at ht
    · cases ht
      exact ⟨rfl, rfl⟩
    · cases ht
  · cases ht
    exact movesOn_goTo ..

theorem movesOn_of_afterTxAck {s t : State} (ht : s.afterTxAck = .next t) : s.MovesOn t := by
  unfold State.afterTxAck at ht
  split_ifs at ht
  · cases ht
    exact movesOn_goTo ..
  · cases ht
    exact movesOn_nextRxByte { s with idx := 0 }
  · exact movesOn_of_nextTxByte (s := { s with idx := 0 }) ht
  · exact movesOn_of_nextTxByte (s := { s with idx := s.idx + 1 }) ht

theorem movesOn_of_afterRxAck {s t : State} (ht : s.afterRxAck = .next t) : s.storeByte.MovesOn t := by
  unfold State.afterRxAck at ht
  split_ifs at ht
  cases ht
  exact movesOn_nextRxByte { s.storeByte with idx := s.idx + 1 }

/-- What SEQ can do where an event list ends: it moves on, and RXACK's end stores the byte first. -/
theorem movesOn_of_advance {s t : State} (h : s.seq.step + 1 = s.eventList.length)
    (ht : s.advance = .next t) :
    (s.seq.sub ≠ .rxack ∧ s.MovesOn t) ∨ (s.seq.sub = .rxack ∧ s.storeByte.MovesOn t) := by
  cases hu : s.seq.sub with
  | idle => simp [State.eventList, hu] at h
  | init =>
    cases (advance_of_init h hu).symm.trans ht
    exact .inl ⟨nofun, rfl, rfl⟩
  | start =>
    cases (advance_of_start h hu).symm.trans ht
    exact .inl ⟨nofun, rfl, rfl⟩
  | stop =>
    cases (advance_of_stop h hu).symm.trans ht
    exact .inl ⟨nofun, movesOn_afterStop s⟩
  | settle =>
    cases (advance_of_settle h hu).symm.trans ht
    exact .inl ⟨nofun, rfl, rfl⟩
  | txbit =>
    cases (advance_of_txbit h hu).symm.trans ht
    exact .inl ⟨nofun, rfl, rfl⟩
  | txack =>
    exact .inl ⟨nofun, movesOn_of_afterTxAck ((advance_of_txack h hu).symm.trans ht)⟩
  | rxPrologue =>
    cases (advance_of_rxPrologue h hu).symm.trans ht
    exact .inl ⟨nofun, rfl, rfl⟩
  | rxbit =>
    cases (advance_of_rxbit h hu).symm.trans ht
    exact .inl ⟨nofun, rfl, rfl⟩
  | rxack => exact .inr ⟨rfl, movesOn_of_afterRxAck ((advance_of_rxack h hu).symm.trans ht)⟩

/-! ### The obligations -/

/-- Settles O36: a step is the primitive and then SEQ's move, so what a primitive keeps (`exec_pin`) and
what the move does inside a list (`advance_inside`) and at its end (`movesOn_of_advance`) add up to it. -/
theorem stepRunsThePrimitiveOfSeq : Obligations.StepRunsThePrimitiveOfSeq := by
  intro s i hb hr hp
  obtain ⟨u, hu, hframe⟩ := exec_pin (nextPrimitive_mem hp) { s with done := false, inbox := letPass s.inbox }
  have hseq : u.seq = s.seq := by rw [hframe]
  have hlist : u.eventList = s.eventList := by rw [hframe]; rfl
  refine ⟨u, hu, by rw [hframe]; rfl, length_pinEvent (nextPrimitive_mem hp) _, ?inside, ?atEnd⟩
  case inside =>
    intro h
    have hack : u.ackbit = s.ackbit := by rw [hframe]
    have hshift : u.shift = s.shift := by rw [hframe]
    rw [step_eq_advance hb hr hp hu, advance_inside (by rwa [hseq, hlist]), hseq, hack, hshift]
  case atEnd =>
    intro h t ht
    have hend : u.seq.step + 1 = u.eventList.length := by rwa [hseq, hlist]
    rw [step_eq_advance hb hr hp hu] at ht
    rcases movesOn_of_advance hend ht with ⟨-, hstep, hmove⟩ | ⟨hsub, hstep, hmove⟩
    · refine ⟨hstep, ?_⟩
      rw [hmove, hframe]
      simp [State.drivers]
    · refine ⟨hstep, ?_⟩
      rw [hseq] at hsub
      rw [hmove, hframe]
      simp [State.drivers, hsub]

/-- Settles O33: both operations are `State.endTransfer`, and the codes are `statusCode`'s. -/
theorem returnedStatusEndsTheCommand : Obligations.ReturnedStatusEndsTheCommand :=
  fun s => ⟨exec_statusOk s, exec_statusNack s, rfl, rfl, rfl, rfl⟩

end Sys2Proof.Machine
end

section
/-! PROOFS. The family 10_state: the event lists of SEQ and where they lead (R33, R34, R171), the legal
states (R21 to R38), and the two renderings of a command (R33). -/

namespace Sys2Proof.Machine

/-! ### The event lists of the tables -/

/-- The primitive that puts a bit on SDA has the event of that bit (R87). -/
@[simp] theorem pinEvent_primitiveFor (a b : Bit) : pinEvent a (primitiveFor b) = [sdaEvent b] := by
  cases b <;> rfl

/-- Settles O53, list by list; the two lists that put a bit on SDA go by `pinEvent_primitiveFor`. -/
theorem eventListsAreTheTables : Obligations.EventListsAreTheTables := by
  intro s b
  refine ⟨?init, ?start, ?stop, ?settle, ?txbit, ?txack, ?rxPrologue, ?rxbit, ?rxack⟩ <;> intro h
  all_goals
    simp only [State.eventList, h, List.flatMap_cons, pinEvent_primitiveFor]
    rfl

/-! ### The reset state -/

/-- `rst_n` leaves a legal state where the buffers and the host's later moves are legal (R38, R220). -/
theorem inv_applyReset {s : State} {rest : List Input} (htx : s.tx.wf = true) (hrx : s.rx.wf = true)
    (hhost : rest.all hostMove = true) : (s.applyReset rest).Inv where
  txWf := htx
  rxWf := hrx
  idle _ := ⟨rfl, rfl⟩
  running := nofun
  latches h := absurd h (by simp [State.applyReset, State.reset, Seq.idle])
  initFirst := nofun
  status := nofun
  traced := rfl
  host := hhost

/-- Settles O40: the reset state is what `rst_n` makes of itself, so it is legal by `inv_applyReset`. -/
theorem resetStateIsLegal : Obligations.ResetStateIsLegal :=
  have ⟨htx, hrx⟩ := reset_buffers_wf
  ⟨inv_applyReset (s := State.reset) (rest := []) htx hrx rfl, rfl, rfl, rfl, rfl, rfl⟩

/-! ### Where an event list leads -/

/-- The step at the end of a list: SEQ moves on from the state the last primitive leaves, which differs
from `s` in the pins, the sample, the answers, the trace, `done` and the host's moves only. -/
theorem advance_of_step {s t : State} (hb : s.busy = true) (hr : s.resetPending = false)
    (hlt : s.seq.step < s.eventList.length) (ht : step s = .next t) :
    ∃ sda scl sdaLatch sclLatch sample answers samples trace,
      State.advance
        { s with
          sdaDrv := sda, sclDrv := scl, sdaLatch := sdaLatch, sclLatch := sclLatch, sample := sample,
          answers := answers, samples := samples, trace := trace, done := false,
          inbox := letPass s.inbox } = .next t := by
  have hp : s.nextPrimitive = some s.eventList[s.seq.step] := List.getElem?_eq_getElem hlt
  obtain ⟨u, hu, hframe⟩ := exec_pin (nextPrimitive_mem hp) { s with done := false, inbox := letPass s.inbox }
  rw [step_eq_advance hb hr hp hu, hframe] at ht
  exact ⟨_, _, _, _, _, _, _, _, ht⟩

/-- The loop test of WRITE with a byte left: it is fetched, and its TXBYTE begins (R161, R52). -/
theorem nextTxByte_fetch {s : State} {b : Byte} (hlt : s.idx < s.txLen)
    (hread : s.tx.read s.idx.toNat = some b) :
    s.nextTxByte = .next ((s.strobeBuf (.fetch s.idx)).beginTxByte .txdata b) := by
  simp only [State.nextTxByte, if_pos hlt, hread]

/-- The loop test of WRITE with no byte left: STOP (R161). -/
theorem nextTxByte_stop {s : State} (hge : ¬ s.idx < s.txLen) :
    s.nextTxByte = .next (s.goTo .stopOk .stop) := if_neg hge

/-- What the loop test of WRITE can do (R161). -/
theorem nextTxByte_next {s t : State} (ht : s.nextTxByte = .next t) :
    (∃ b, s.idx < s.txLen ∧ s.tx.read s.idx.toNat = some b ∧
      t = (s.strobeBuf (.fetch s.idx)).beginTxByte .txdata b) ∨
    (¬ s.idx < s.txLen ∧ t = s.goTo .stopOk .stop) := by
  by_cases hlt : s.idx < s.txLen
  · cases hread : s.tx.read s.idx.toNat with
    | none => simp [State.nextTxByte, hlt, hread] at ht
    | some b =>
      cases ht.symm.trans (nextTxByte_fetch hlt hread)
      exact .inl ⟨b, hlt, rfl, rfl⟩
  · cases ht.symm.trans (nextTxByte_stop hlt)
    exact .inr ⟨hlt, rfl⟩

/-- The loop test of WRITE is `State.sendsNext` (R161). -/
theorem sendsNext_of_nextTxByte {s t : State} (ht : s.nextTxByte = .next t) :
    t.idx = s.idx ∧ s.sendsNext t := by
  obtain ⟨b, hlt, hread, rfl⟩ | ⟨hge, rfl⟩ := nextTxByte_next ht
  · exact ⟨rfl, (if_pos hlt).mpr ⟨rfl, hread, rfl, rfl⟩⟩
  · exact ⟨rfl, (if_neg hge).mpr ⟨rfl, rfl⟩⟩

/-- The loop test of READ is `State.receivesNext` (R162, R86). -/
theorem receivesNext_nextRxByte (s : State) : s.nextRxByte.idx = s.idx ∧ s.receivesNext s.nextRxByte := by
  unfold State.nextRxByte
  split
  · next hlt => exact ⟨rfl, (if_pos hlt).mpr ⟨rfl, sendAckFor_eq hlt⟩⟩
  · next hge => exact ⟨rfl, (if_neg hge).mpr rfl⟩

/-- The loop test of READ touches no buffer. -/
theorem nextRxByte_bufs (s : State) : s.nextRxByte.rx = s.rx ∧ s.nextRxByte.bufOps = s.bufOps := by
  unfold State.nextRxByte
  split <;> exact ⟨rfl, rfl⟩

/-- An acknowledge clock that read 1 leads to STOP and Nack (R171). -/
theorem afterTxAck_nack {s : State} (ha : s.ackbit = true) :
    s.afterTxAck = .next (s.goTo .stopNack .stop) := if_pos ha

/-- The address byte was acknowledged in a read frame: the data phase of READ (R162). -/
theorem afterTxAck_read {s : State} (ha : s.ackbit = false) (hp : s.seq.phase = .addr)
    (hr : s.reading = true) : s.afterTxAck = .next (State.nextRxByte { s with idx := 0 }) := by
  simp [State.afterTxAck, ha, hp, hr]

/-- The address byte was acknowledged in a write frame: the data phase of WRITE (R161). -/
theorem afterTxAck_write {s : State} (ha : s.ackbit = false) (hp : s.seq.phase = .addr)
    (hr : s.reading = false) : s.afterTxAck = State.nextTxByte { s with idx := 0 } := by
  simp [State.afterTxAck, ha, hp, hr]

/-- A payload byte was acknowledged: the next one (R161). -/
theorem afterTxAck_data {s : State} (ha : s.ackbit = false) (hp : s.seq.phase ≠ .addr) :
    s.afterTxAck = State.nextTxByte { s with idx := s.idx + 1 } := by
  simp [State.afterTxAck, ha, hp]

/-- After slot 9 of a received byte: it is stored, and the next one (R162, R53). -/
theorem afterRxAck_next {s t : State} :
    s.afterRxAck = .next t ↔
      s.idx.toNat < s.rx.size ∧ State.nextRxByte { s.storeByte with idx := s.idx + 1 } = t := by
  unfold State.afterRxAck
  split <;> simp [*]

/-- STOP after a NACK ends the command (R197). -/
theorem afterStop_nack {s : State} (hp : s.seq.phase = .stopNack) : s.afterStop = s.endTransfer .nack :=
  if_pos hp

/-- STOP of a WRITE_READ's write frame leads to the wait (R163). -/
theorem afterStop_settle {s : State} (hp : s.seq.phase ≠ .stopNack) (ho : s.op = 3)
    (hs : s.seq.second = false) : s.afterStop = s.goTo .settle .settle := by
  rw [State.afterStop, if_neg hp, if_pos ⟨ho, hs⟩]

/-- Any other STOP ends the command with Ok (R161, R162). -/
theorem afterStop_ok {s : State} (hp : s.seq.phase ≠ .stopNack) (ho : s.op ≠ 3 ∨ s.seq.second = true) :
    s.afterStop = s.endTransfer .ok := by
  rw [State.afterStop, if_neg hp, if_neg]
  rintro ⟨h3, hs⟩
  exact ho.elim (· h3) (by simp [hs])

/-- A transfer that ends has ended. -/
theorem ended_endTransfer (st : Status) (s : State) : State.ended st (s.endTransfer st) :=
  ⟨rfl, rfl, rfl, rfl, rfl⟩

/-- The acknowledge clock of an address byte that was acknowledged (R161, R162). -/
theorem afterTxAck_addr {s t : State} (ht : s.afterTxAck = .next t) (ha : s.ackbit = false)
    (hp : s.seq.phase = .addr) :
    t.idx = 0 ∧ if s.reading then s.receivesNext t else s.sendsNext t := by
  cases hr : s.reading with
  | true =>
    cases (afterTxAck_read ha hp hr).symm.trans ht
    exact receivesNext_nextRxByte { s with idx := 0 }
  | false => exact sendsNext_of_nextTxByte ((afterTxAck_write ha hp hr).symm.trans ht)

/-- The acknowledge clock of a received byte: the byte is stored, and the next one (R162, R53). -/
theorem stored_of_afterRxAck {s t : State} (ht : s.afterRxAck = .next t) :
    t.rx = s.rx.store s.idx.toNat s.shift ∧ t.bufOps = s.bufOps ++ [.store s.idx s.shift] ∧
      t.idx = s.idx + 1 ∧ s.receivesNext t := by
  obtain ⟨-, rfl⟩ := afterRxAck_next.mp ht
  obtain ⟨hidx, hnext⟩ := receivesNext_nextRxByte { s.storeByte with idx := s.idx + 1 }
  obtain ⟨hrx, hops⟩ := nextRxByte_bufs { s.storeByte with idx := s.idx + 1 }
  exact ⟨hrx, hops, hidx, hnext⟩

/-- Settles O54: SEQ moves on by `State.advance` (`advance_of_step`), which says at the end of each list
where it goes (`advance_of_…`). -/
theorem phaseMovesAsTheCommandSays : Obligations.PhaseMovesAsTheCommandSays := by
  intro s t hb hr h hstep
  obtain ⟨sda, scl, sdaLatch, sclLatch, sample, answers, samples, trace, ht⟩ :=
    advance_of_step hb hr (by omega) hstep
  refine ⟨?init, ?start, ?txbit, ?nack, ?addr, ?data, ?rxPrologue, ?rxbit, ?rxack, ?stopNack, ?stopWait,
    ?stopOk, ?settle⟩ <;> intro hu
  case init =>
    cases ht.symm.trans (advance_of_init h hu)
    exact ⟨rfl, rfl, rfl, rfl, rfl, rfl⟩
  case start =>
    cases ht.symm.trans (advance_of_start h hu)
    exact ⟨rfl, rfl, rfl⟩
  case txbit =>
    cases ht.symm.trans (advance_of_txbit h hu)
    exact ⟨rfl, rfl, rfl⟩
  case nack =>
    intro ha
    cases (ht.symm.trans (advance_of_txack h hu)).trans (afterTxAck_nack ha)
    rfl
  case addr =>
    intro ha hp
    have hnext := afterTxAck_addr (ht.symm.trans (advance_of_txack h hu)).symm ha hp
    exact hnext
  case data =>
    intro ha hp
    exact sendsNext_of_nextTxByte ((ht.symm.trans (advance_of_txack h hu)).trans (afterTxAck_data ha hp)).symm
  case rxPrologue =>
    cases ht.symm.trans (advance_of_rxPrologue h hu)
    exact ⟨rfl, rfl, rfl⟩
  case rxbit =>
    cases ht.symm.trans (advance_of_rxbit h hu)
    exact ⟨rfl, rfl, rfl⟩
  case rxack =>
    have hnext := stored_of_afterRxAck (ht.symm.trans (advance_of_rxack h hu)).symm
    exact hnext
  case stopNack =>
    intro hp
    cases (ht.symm.trans (advance_of_stop h hu)).trans (congrArg _ (afterStop_nack hp))
    exact ended_endTransfer ..
  case stopWait =>
    intro hp ho hs
    cases (ht.symm.trans (advance_of_stop h hu)).trans (congrArg _ (afterStop_settle hp ho hs))
    exact ⟨congrArg (Seq.mk _ _ _) hs, hb⟩
  case stopOk =>
    intro hp ho
    cases (ht.symm.trans (advance_of_stop h hu)).trans (congrArg _ (afterStop_ok hp ho))
    exact ended_endTransfer ..
  case settle =>
    cases ht.symm.trans (advance_of_settle h hu)
    rfl

end Sys2Proof.Machine
end

section
/-! PROOFS. The two renderings of a command agree (R33): run one pin primitive a step, its event lists end
in the state of the operation they make up. -/

namespace Sys2Proof.Machine

/-! ### Runs of the sequencer -/

/-- One step of a running command. -/
def Ticks (s t : State) : Prop := s.busy = true ∧ tick s = .next t

/-- Any number of steps of a running command. -/
abbrev Runs : State → State → Prop := Relation.ReflTransGen Ticks

/-- `s` with SEQ at step `n` of an event list; at `n = 0` it is `State.goTo`, by definition. -/
def State.atStep (p : Phase) (q : Sub) (n : Nat) (s : State) : State :=
  { s with seq := ⟨p, q, n, s.seq.second⟩ }

/-- A pin primitive does not look at SEQ. -/
theorem exec_pin_atStep {i : Instr} (h : i ∈ pinPrimitives) {s u : State} (hu : exec i s = .next u)
    (p : Phase) (q : Sub) (n : Nat) : exec i (s.atStep p q n) = .next (u.atStep p q n) := by
  simp only [pinPrimitives, List.mem_cons, List.not_mem_nil, or_false] at h
  rcases h with rfl | rfl | rfl | rfl | rfl | rfl | rfl | rfl | rfl | rfl <;> cases hu <;> rfl

theorem exec_primitiveFor (b : Bit) (s : State) : exec (primitiveFor b) s = .next (s.sdaSet b) := by
  cases b <;> rfl

/-- A step of a running command: the primitive SEQ names (`hp`), what it does (`hu`), and SEQ's move
(`ha`). At a written-out position each of the three is a computation. -/
theorem ticks_of {s u t : State} {i : Instr} {p : Phase} {q : Sub} {n : Nat} (hb : s.busy = true)
    (hd : s.done = false) (hp : (s.atStep p q n).nextPrimitive = some i) (hu : exec i s = .next u)
    (ha : (u.atStep p q n).advance = .next t) : Ticks (s.atStep p q n) t := by
  have hs : { s.atStep p q n with done := false } = s.atStep p q n := by rw [← hd]; rfl
  have hu' := exec_pin_atStep (nextPrimitive_mem hp) hu p q n
  exact ⟨hb, tick_next.mpr ⟨i, _, hp, by rwa [hs], ha⟩⟩

/-- A step inside a list that writes no register. -/
theorem ticks_on {s u : State} {i : Instr} {p : Phase} {q : Sub} {n : Nat} (hb : s.busy = true)
    (hd : s.done = false) (hp : (s.atStep p q n).nextPrimitive = some i) (hu : exec i s = .next u)
    (ha : (u.atStep p q n).advance = .next (u.atStep p q n).nextStep) :
    Ticks (s.atStep p q n) (u.atStep p q (n + 1)) := ticks_of hb hd hp hu ha

/-- The sample of TXACK goes to ACKBIT (R141). -/
theorem ticks_txack_sample {s : State} {p : Phase} (hb : s.busy = true) (hd : s.done = false) :
    Ticks (s.atStep p .txack 5) (s.sdaSample.captureAck.atStep p .txack 6) := ticks_of hb hd rfl rfl rfl

/-- The sample of RXBIT goes to SHIFT (R144). -/
theorem ticks_rxbit_sample {s : State} {p : Phase} (hb : s.busy = true) (hd : s.done = false) :
    Ticks (s.atStep p .rxbit 4) (s.sdaSample.shiftIn.atStep p .rxbit 5) := ticks_of hb hd rfl rfl rfl

/-- The end of TXBIT's list (R142). -/
theorem advance_txbit_end (p : Phase) (s : State) :
    (s.atStep p .txbit 4).advance =
      .next (s.shiftOut.goTo p (if s.bitcnt = 1 then .txack else .txbit)) := advance_of_txbit rfl rfl

theorem sdaSet_busy (b : Bit) (s : State) : (s.sdaSet b).busy = s.busy := by rw [sdaSet_eq]

theorem sdaSet_done (b : Bit) (s : State) : (s.sdaSet b).done = s.done := by rw [sdaSet_eq]

section Lists

variable {s : State} (hb : s.busy = true) (hd : s.done = false)
include hb hd

/-- INIT's list (R160). -/
theorem runs_init (p : Phase) : Runs (s.atStep p .init 0) s.initBody := by
  refine .head (ticks_on hb hd rfl rfl rfl) ?_
  refine .head (ticks_on hb hd rfl rfl rfl) ?_
  refine .head (ticks_on hb hd rfl rfl rfl) ?_
  exact .single (ticks_of hb hd rfl rfl rfl)

/-- START's list leads to the address byte (R130). -/
theorem runs_start (p : Phase) :
    Runs (s.atStep p .start 0) (s.startCond.beginTxByte .addr (addrByte s.addr s.reading)) := by
  refine .head (ticks_on hb hd rfl rfl rfl) ?_
  refine .head (ticks_on hb hd rfl rfl rfl) ?_
  exact .single (ticks_of hb hd rfl rfl rfl)

/-- STOP's list (R131). -/
theorem runs_stop (p : Phase) : Runs (s.atStep p .stop 0) (s.stopCond.goTo p .stop).afterStop := by
  refine .head (ticks_on hb hd rfl rfl rfl) ?_
  refine .head (ticks_on hb hd rfl rfl rfl) ?_
  refine .head (ticks_on hb hd rfl rfl rfl) ?_
  refine .head (ticks_on hb hd rfl rfl rfl) ?_
  exact .single (ticks_of hb hd rfl rfl rfl)

/-- TXBIT's list (R140, R142). -/
theorem runs_txbit (p : Phase) :
    Runs (s.atStep p .txbit 0)
      ((s.txBit (topBit s.shift)).shiftOut.goTo p (if s.bitcnt = 1 then .txack else .txbit)) := by
  refine .head (ticks_on hb hd rfl rfl rfl) ?_
  refine .head (ticks_on hb hd rfl (exec_primitiveFor _ _) rfl) ?_
  have hb := (sdaSet_busy (topBit s.shift) s.sclLow).trans hb
  have hd := (sdaSet_done (topBit s.shift) s.sclLow).trans hd
  have hc : (s.txBit (topBit s.shift)).bitcnt = s.bitcnt := by rw [txBit_eq]
  rw [← hc]
  refine .head (ticks_on hb hd rfl rfl rfl) ?_
  refine .head (ticks_on hb hd rfl rfl rfl) ?_
  exact .single (ticks_of hb hd rfl rfl (advance_txbit_end p _))

/-- TXACK's list (R141). -/
theorem runs_txack (p : Phase) {t : State} (ht : (s.txAck.atStep p .txack 7).afterTxAck = .next t) :
    Runs (s.atStep p .txack 0) t := by
  refine .head (ticks_on hb hd rfl rfl rfl) ?_
  refine .head (ticks_on hb hd rfl rfl rfl) ?_
  refine .head (ticks_on hb hd rfl rfl rfl) ?_
  refine .head (ticks_on hb hd rfl rfl rfl) ?_
  refine .head (ticks_on hb hd rfl rfl rfl) ?_
  refine .head (ticks_txack_sample hb hd) ?_
  refine .head (ticks_on hb hd rfl rfl rfl) ?_
  exact .single (ticks_of hb hd rfl rfl ((advance_of_txack rfl rfl).trans ht))

/-- The prologue of RXBYTE (R146). -/
theorem runs_rxPrologue (p : Phase) :
    Runs (s.atStep p .rxPrologue 0)
      (State.goTo .rxdata .rxbit { s.sdaRelease with shift := 0, bitcnt := 8 }) :=
  .single (ticks_of hb hd rfl rfl rfl)

/-- RXBIT's list (R144, R146). -/
theorem runs_rxbit (p : Phase) :
    Runs (s.atStep p .rxbit 0)
      (State.goTo .rxdata (if s.bitcnt = 1 then .rxack else .rxbit)
        { s.rxBit with bitcnt := s.bitcnt - 1 }) := by
  refine .head (ticks_on hb hd rfl rfl rfl) ?_
  refine .head (ticks_on hb hd rfl rfl rfl) ?_
  refine .head (ticks_on hb hd rfl rfl rfl) ?_
  refine .head (ticks_on hb hd rfl rfl rfl) ?_
  refine .head (ticks_rxbit_sample hb hd) ?_
  exact .single (ticks_of hb hd rfl rfl (advance_of_rxbit rfl rfl))

/-- RXACK's list (R145). -/
theorem runs_rxack (p : Phase) {t : State}
    (ht : ((s.rxAck s.sendAck).atStep p .rxack 6).afterRxAck = .next t) : Runs (s.atStep p .rxack 0) t := by
  refine .head (ticks_on hb hd rfl rfl rfl) ?_
  refine .head (ticks_on hb hd rfl (exec_primitiveFor _ _) rfl) ?_
  have hb := (sdaSet_busy (!s.sendAck) s.sclLow).trans hb
  have hd := (sdaSet_done (!s.sendAck) s.sclLow).trans hd
  refine .head (ticks_on hb hd rfl rfl rfl) ?_
  refine .head (ticks_on hb hd rfl rfl rfl) ?_
  refine .head (ticks_on hb hd rfl rfl rfl) ?_
  refine .head (ticks_on hb hd rfl rfl rfl) ?_
  exact .single (ticks_of hb hd rfl rfl ((advance_of_rxack rfl rfl).trans ht))

/-- The wait of WRITE_READ leads to its second START (R163). -/
theorem runs_settle (p : Phase) :
    Runs (s.atStep p .settle 0) (s.delaySettle.beginSecond.goTo .start .start) :=
  .single (ticks_of hb hd rfl rfl rfl)

end Lists

/-! ### Runs of the bytes -/

/-- The loop of TXBYTE (R142). -/
theorem runs_txBits (p : Phase) (n : Nat) (hn : n < 8) {s : State} (hb : s.busy = true)
    (hd : s.done = false) (hc : s.bitcnt = BitVec.ofNat 4 (n + 1)) :
    Runs (s.atStep p .txbit 0) ((State.txBits (n + 1) s).atStep p .txack 0) := by
  induction n generalizing s with
  | zero =>
    have hrun := runs_txbit hb hd p
    rwa [if_pos (by simpa using hc)] at hrun
  | succ n ih =>
    have hrun := runs_txbit hb hd p
    rw [if_neg (by rw [hc, ← BitVec.toNat_inj]; simp; omega)] at hrun
    refine hrun.trans (ih (by omega) ?_ ?_ ?_)
    · rw [txBit_eq]
      exact hb
    · rw [txBit_eq]
      exact hd
    · rw [txBit_eq]
      simp [hc, BitVec.ofNat_add]

/-- A byte is sent, then the acknowledge clock leads on (R142, R171). -/
theorem runs_txByte (p : Phase) (b : Byte) {s t : State} (hb : s.busy = true) (hd : s.done = false)
    (ht : ((s.sendByte b).atStep p .txack 7).afterTxAck = .next t) : Runs (s.beginTxByte p b) t := by
  have hbits := runs_txBits p 7 (by omega) (s := { s with shift := b, bitcnt := 8 }) hb hd rfl
  refine hbits.trans (runs_txack ?_ ?_ p ht)
  · rw [txBits_eq 8 (by omega) _ (by omega)]
    exact hb
  · rw [txBits_eq 8 (by omega) _ (by omega)]
    exact hd

/-- The loop of RXBYTE (R146). -/
theorem runs_rxBits (p : Phase) (n : Nat) (hn : n < 8) {s : State} (hb : s.busy = true)
    (hd : s.done = false) (hc : s.bitcnt = BitVec.ofNat 4 (n + 1)) :
    Runs (s.atStep p .rxbit 0) ((State.rxBits (n + 1) s).atStep .rxdata .rxack 0) := by
  induction n generalizing s p with
  | zero =>
    have hrun := runs_rxbit hb hd p
    rwa [if_pos (by simpa using hc)] at hrun
  | succ n ih =>
    have hrun := runs_rxbit hb hd p
    rw [if_neg (by rw [hc, ← BitVec.toNat_inj]; simp; omega)] at hrun
    refine hrun.trans (ih .rxdata (by omega) hb hd ?_)
    simp [hc, BitVec.ofNat_add]

/-- A byte is received, then slot 9 leads on (R146, R162). -/
theorem runs_rxByte (p : Phase) {s t : State} (hb : s.busy = true) (hd : s.done = false)
    (ht : (s.rxByte.atStep .rxdata .rxack 6).afterRxAck = .next t) : Runs (s.atStep p .rxPrologue 0) t := by
  have hbits := runs_rxBits .rxdata 7 (by omega)
    (s := { s.sdaRelease with shift := 0, bitcnt := 8 }) hb hd rfl
  have heq := rxBits_eq 8 { s.sdaRelease with shift := 0, bitcnt := 8 } (by omega)
  have hack : (State.rxBits 8 { s.sdaRelease with shift := 0, bitcnt := 8 }).sendAck = s.sendAck := by
    rw [heq]
    rfl
  rw [State.rxByte, ← hack] at ht
  refine (runs_rxPrologue hb hd p).trans (hbits.trans (runs_rxack ?_ ?_ .rxdata ht))
  · rw [heq]
    exact hb
  · rw [heq]
    exact hd

end Sys2Proof.Machine
end

section
/-! PROOFS. The frames and the commands run one pin primitive a step (R33, R161 to R163). -/

namespace Sys2Proof.Machine

/-! ### Runs of the frames -/

/-- A frame goes to its STOP, and to Nack where the last byte sent was not acknowledged (R161, R171). -/
def State.toStop (s : State) : State := s.goTo (if s.ackbit then .stopNack else .stopOk) .stop

/-- Bytes still to be sent of a write frame: those of TX from IDX on, TX_LEN in all (R161, R52). -/
structure State.ToSend (s : State) (bs : List Byte) : Prop where
  left : s.idx.toNat + bs.length = s.txLen.toNat
  held : ∀ j (h : j < bs.length), s.tx.read (s.idx.toNat + j) = some bs[j]

/-- IDX begins at 0 (R161, R162). -/
def State.firstIdx (s : State) : State := { s with idx := 0 }

/-- All bytes of TX are to be sent where IDX is 0. -/
theorem toSend_bytes {s : State} (h : s.tx.holds s.txLen.toNat = true) :
    s.firstIdx.ToSend (s.tx.bytes s.txLen.toNat) where
  left := by simp [State.firstIdx, Buffer.length_bytes h]
  held j hj := by
    rw [Buffer.length_bytes h] at hj
    simp [State.firstIdx, ← Buffer.getElem?_bytes h hj]

/-- IDX counts up (R27). -/
def State.nextIdx (s : State) : State := { s with idx := s.idx + 1 }

/-- IDX below a length counts up without wrapping (R27). -/
theorem toNat_idx_succ {i len : Len} (h : i.toNat < len.toNat) : (i + 1).toNat = i.toNat + 1 := by
  have := len.isLt
  rw [BitVec.toNat_add, Nat.mod_eq_of_lt] <;> simp
  omega

theorem State.ToSend.tail {s : State} {b : Byte} {bs : List Byte} (h : s.ToSend (b :: bs)) :
    s.nextIdx.ToSend bs := by
  obtain ⟨hleft, hheld⟩ := h
  rw [List.length_cons] at hleft
  have hidx := toNat_idx_succ (i := s.idx) (len := s.txLen) (by omega)
  refine ⟨by simp only [State.nextIdx, hidx]; omega, fun j hj => ?_⟩
  have := hheld (j + 1) (by simpa using hj)
  simp only [State.nextIdx, hidx, Nat.add_assoc, Nat.add_comm 1]
  simpa using this

/-- A byte that is not acknowledged ends the loop of WRITE (R161). -/
theorem sendData_cons_nack {s : State} {b : Byte} {bs : List Byte}
    (ha : ((s.strobeBuf (.fetch s.idx)).sendByte b).ackbit = true) :
    State.sendData (b :: bs) s = (s.strobeBuf (.fetch s.idx)).sendByte b := by
  simp [State.sendData, ha]

/-- A byte that is acknowledged takes the loop of WRITE on (R161). -/
theorem sendData_cons_ack {s : State} {b : Byte} {bs : List Byte}
    (ha : ((s.strobeBuf (.fetch s.idx)).sendByte b).ackbit = false) :
    State.sendData (b :: bs) s = State.sendData bs ((s.strobeBuf (.fetch s.idx)).sendByte b).nextIdx := by
  rw [State.sendData]
  exact if_neg (by simp [ha])

/-- After a payload byte that was acknowledged: the loop test of WRITE, wherever SEQ stood (R161). -/
theorem afterTxAck_data_atStep {s : State} (ha : s.ackbit = false) :
    (s.atStep .txdata .txack 7).afterTxAck = s.nextIdx.nextTxByte := afterTxAck_data ha nofun

/-- After slot 9 the byte is stored, wherever SEQ stands (R162). -/
theorem afterRxAck_atStep (p : Phase) (q : Sub) (n : Nat) {s : State} (h : s.idx.toNat < s.rx.size) :
    (s.atStep p q n).afterRxAck =
      .next s.storeByte.nextIdx.nextRxByte :=
  afterRxAck_next.mpr ⟨h, rfl⟩

/-- The loop of WRITE (R161): SEQ's moves and the operation agree. -/
theorem runs_sendData (bs : List Byte) {s : State} (hb : s.busy = true) (hd : s.done = false)
    (ha : s.ackbit = false) (hs : s.ToSend bs) :
    ∃ u, s.nextTxByte = .next u ∧ Runs u (State.sendData bs s).toStop := by
  induction bs generalizing s with
  | nil =>
    have hge : ¬ s.idx < s.txLen := by
      have := hs.left
      rw [BitVec.lt_def]
      simp at this
      omega
    refine ⟨s.goTo .stopOk .stop, nextTxByte_stop hge, ?_⟩
    simp only [State.sendData, State.toStop, ha]
    exact .refl
  | cons b bs ih =>
    have hlt : s.idx < s.txLen := by
      have := hs.left
      simp at this
      rw [BitVec.lt_def]
      omega
    have hread : s.tx.read s.idx.toNat = some b := hs.held 0 (by simp)
    have hw := sendByte_eq b (s.strobeBuf (.fetch s.idx))
    refine ⟨(s.strobeBuf (.fetch s.idx)).beginTxByte .txdata b,
      nextTxByte_fetch hlt hread, ?_⟩
    cases ha' : ((s.strobeBuf (.fetch s.idx)).sendByte b).ackbit with
    | true =>
      rw [sendData_cons_nack ha', State.toStop, ha']
      exact runs_txByte .txdata b (s := s.strobeBuf (.fetch s.idx)) hb hd (afterTxAck_nack ha')
    | false =>
      rw [sendData_cons_ack ha']
      obtain ⟨u, hu, hrun⟩ := ih (s := ((s.strobeBuf (.fetch s.idx)).sendByte b).nextIdx)
        (by rw [hw]; exact hb) (by rw [hw]; exact hd) ha' (by rw [hw]; exact ⟨hs.tail.left, hs.tail.held⟩)
      have hnext := (afterTxAck_data_atStep ha').trans hu
      exact (runs_txByte .txdata b (s := s.strobeBuf (.fetch s.idx)) hb hd hnext).trans hrun

/-- The loop of READ (R162): SEQ's moves and the operation agree. -/
theorem runs_receiveData (n : Nat) {s : State} (hb : s.busy = true) (hd : s.done = false)
    (ha : s.ackbit = false) (hleft : s.idx.toNat + n = s.rxLen.toNat) (hroom : s.rxLen.toNat ≤ s.rx.size) :
    Runs s.nextRxByte (State.receiveData n s).toStop := by
  induction n generalizing s with
  | zero =>
    have hge : ¬ s.idx < s.rxLen := by
      rw [BitVec.lt_def]
      omega
    simp only [State.nextRxByte, if_neg hge, State.receiveData, State.toStop, ha]
    exact .refl
  | succ n ih =>
    have hlt : s.idx < s.rxLen := by
      rw [BitVec.lt_def]
      omega
    have hw := rxByte_eq s.setSendAck
    have hidx := toNat_idx_succ (i := s.idx) (len := s.rxLen) hlt
    have hnext := afterRxAck_atStep .rxdata .rxack 6 (s := s.setSendAck.rxByte) (by
      rw [hw]
      show s.idx.toNat < s.rx.size
      omega)
    rw [State.nextRxByte, if_pos hlt, State.receiveData]
    refine (runs_rxByte .rxdata (s := s.setSendAck) hb hd hnext).trans (ih ?_ ?_ ?_ ?_ ?_) <;> rw [hw]
    · exact hb
    · exact hd
    · exact ha
    · show (s.idx + 1).toNat + n = s.rxLen.toNat
      omega
    · exact hroom

/-- START and the address byte, then the acknowledge clock leads on (R161, R162). -/
theorem runs_address (rw : Bit) {s t : State} (hb : s.busy = true) (hd : s.done = false)
    (hr : s.reading = rw) (hnext : ((s.addressPhase rw).atStep .addr .txack 7).afterTxAck = .next t) :
    Runs (s.atStep .start .start 0) t := by
  subst hr
  exact (runs_start hb hd .start).trans (runs_txByte .addr _ (s := s.startCond) hb hd hnext)

theorem writeFrame_nack {s : State} (ha : (s.addressPhase false).ackbit = true) :
    s.writeFrame = s.addressPhase false := if_pos ha

theorem writeFrame_ack {s : State} (ha : (s.addressPhase false).ackbit = false) :
    s.writeFrame = State.sendData ((s.addressPhase false).tx.bytes (s.addressPhase false).txLen.toNat)
      (s.addressPhase false).firstIdx := if_neg (by simp [ha])

theorem readFrame_nack {s : State} (ha : (s.addressPhase true).ackbit = true) :
    s.readFrame = s.addressPhase true := if_pos ha

theorem readFrame_ack {s : State} (ha : (s.addressPhase true).ackbit = false) :
    s.readFrame = State.receiveData (s.addressPhase true).rxLen.toNat (s.addressPhase true).firstIdx :=
  if_neg (by simp [ha])

theorem afterTxAck_write_atStep {s : State} (ha : s.ackbit = false) (hr : s.reading = false) :
    (s.atStep .addr .txack 7).afterTxAck = s.firstIdx.nextTxByte := afterTxAck_write ha rfl hr

theorem afterTxAck_read_atStep {s : State} (ha : s.ackbit = false) (hr : s.reading = true) :
    (s.atStep .addr .txack 7).afterTxAck = .next s.firstIdx.nextRxByte := afterTxAck_read ha rfl hr

/-- A write frame up to its STOP (R161): SEQ's moves and the operation agree. -/
theorem runs_writeFrame {s : State} (hb : s.busy = true) (hd : s.done = false) (hr : s.reading = false)
    (hheld : s.tx.holds s.txLen.toNat = true) : Runs (s.atStep .start .start 0) s.writeFrame.toStop := by
  have hw := addressPhase_eq false s
  cases ha : (s.addressPhase false).ackbit with
  | true =>
    rw [writeFrame_nack ha, State.toStop, ha]
    exact runs_address false hb hd hr (afterTxAck_nack ha)
  | false =>
    obtain ⟨u, hu, hrun⟩ := runs_sendData (s := (s.addressPhase false).firstIdx)
      ((s.addressPhase false).tx.bytes (s.addressPhase false).txLen.toNat)
      (by rw [hw]; exact hb) (by rw [hw]; exact hd) ha (toSend_bytes (by rw [hw]; exact hheld))
    have hnext := (afterTxAck_write_atStep ha (by rw [hw]; exact hr)).trans hu
    rw [writeFrame_ack ha]
    exact (runs_address false hb hd hr hnext).trans hrun

/-- A read frame up to its STOP (R162): SEQ's moves and the operation agree. -/
theorem runs_readFrame {s : State} (hb : s.busy = true) (hd : s.done = false) (hr : s.reading = true)
    (hroom : s.rxLen.toNat ≤ s.rx.size) : Runs (s.atStep .start .start 0) s.readFrame.toStop := by
  have hw := addressPhase_eq true s
  cases ha : (s.addressPhase true).ackbit with
  | true =>
    rw [readFrame_nack ha, State.toStop, ha]
    exact runs_address true hb hd hr (afterTxAck_nack ha)
  | false =>
    have hrun := runs_receiveData (s := (s.addressPhase true).firstIdx) (s.addressPhase true).rxLen.toNat
      (by rw [hw]; exact hb) (by rw [hw]; exact hd) ha (Nat.zero_add _) (by rw [hw]; exact hroom)
    rw [readFrame_ack ha]
    exact (runs_address true hb hd hr (afterTxAck_read_atStep ha (by rw [hw]; exact hr))).trans hrun

/-- STOP and Nack, in whatever command (R197). -/
theorem runs_raiseNack {s : State} (hb : s.busy = true) (hd : s.done = false) (ha : s.ackbit = true) :
    Runs s.toStop s.raiseNack := by
  have hrun := runs_stop hb hd .stopNack
  rw [afterStop_nack rfl] at hrun
  rwa [State.toStop, ha]

/-- STOP and the end of a transfer (R164, R169). -/
theorem runs_finish {s : State} (hb : s.busy = true) (hd : s.done = false)
    (ho : s.op ≠ 3 ∨ s.seq.second = true) : Runs s.toStop s.finish := by
  cases ha : s.ackbit with
  | true =>
    rw [State.finish, if_pos ha]
    exact runs_raiseNack hb hd ha
  | false =>
    have hrun := runs_stop hb hd .stopOk
    rw [afterStop_ok (s := s.stopCond.goTo .stopOk .stop) nofun ho] at hrun
    rw [State.toStop, State.finish, ha]
    exact hrun

/-! ### Runs of the commands -/

/-- The loop of READ keeps what says which command runs. -/
theorem receiveData_keeps (n : Nat) (s : State) :
    (State.receiveData n s).busy = s.busy ∧ (State.receiveData n s).done = s.done ∧
      (State.receiveData n s).op = s.op ∧ (State.receiveData n s).seq = s.seq := by
  induction n generalizing s with
  | zero => exact ⟨rfl, rfl, rfl, rfl⟩
  | succ n ih =>
    have h := ih s.setSendAck.rxByte.storeByte.nextIdx
    rw [rxByte_eq] at h
    rw [State.receiveData, rxByte_eq]
    exact h

/-- A read frame keeps what says which command runs. -/
theorem readFrame_keeps (s : State) :
    s.readFrame.busy = s.busy ∧ s.readFrame.done = s.done ∧ s.readFrame.op = s.op ∧
      s.readFrame.seq = s.seq := by
  cases ha : (s.addressPhase true).ackbit with
  | true =>
    rw [readFrame_nack ha, addressPhase_eq]
    exact ⟨rfl, rfl, rfl, rfl⟩
  | false =>
    have h := receiveData_keeps (s.addressPhase true).rxLen.toNat (s.addressPhase true).firstIdx
    rw [← readFrame_ack ha] at h
    rw [addressPhase_eq] at h
    exact h

theorem atStep_of_firstOfInit {s : State} (hq : s.seq = Seq.firstOfInit) : s.atStep .init .init 0 = s := by
  have h : (⟨.init, .init, 0, s.seq.second⟩ : Seq) = s.seq := by rw [hq]; rfl
  rw [State.atStep, h]

theorem atStep_of_firstOfTransfer {s : State} (hq : s.seq = Seq.firstOfTransfer) :
    s.atStep .start .start 0 = s := by
  have h : (⟨.start, .start, 0, s.seq.second⟩ : Seq) = s.seq := by rw [hq]; rfl
  rw [State.atStep, h]

/-- INIT (R160). -/
theorem runs_initBody {s : State} (hq : s.seq = Seq.firstOfInit) (hb : s.busy = true)
    (hd : s.done = false) : Runs s s.initBody := by
  have hrun := runs_init hb hd .init
  rwa [atStep_of_firstOfInit hq] at hrun

/-- WRITE (R161). -/
theorem runs_writeBody {s : State} (hq : s.seq = Seq.firstOfTransfer) (hb : s.busy = true)
    (hd : s.done = false) (ho : s.op = 1) (hheld : s.tx.holds s.txLen.toNat = true) :
    Runs s s.writeBody := by
  obtain ⟨ix, hw⟩ := writeFrame_eq s _ rfl
  have hframe := runs_writeFrame hb hd (by simp [State.reading, ho]) hheld
  rw [atStep_of_firstOfTransfer hq] at hframe
  refine hframe.trans (runs_finish ?_ ?_ (.inl ?_)) <;> rw [hw]
  · exact hb
  · exact hd
  · simp [ho]

/-- A read frame and its end (R162). -/
theorem runs_readFrame_finish {s : State} (hb : s.busy = true) (hd : s.done = false)
    (hr : s.reading = true) (ho : s.op ≠ 3 ∨ s.seq.second = true) (hroom : s.rxLen.toNat ≤ s.rx.size) :
    Runs (s.atStep .start .start 0) s.readFrame.finish := by
  obtain ⟨kb, kd, ko, kq⟩ := readFrame_keeps s
  exact (runs_readFrame hb hd hr hroom).trans (runs_finish (kb.trans hb) (kd.trans hd) (by rwa [ko, kq]))

/-- READ (R162). -/
theorem runs_readBody {s : State} (hq : s.seq = Seq.firstOfTransfer) (hb : s.busy = true)
    (hd : s.done = false) (ho : s.op = 2) (hroom : s.rxLen.toNat ≤ s.rx.size) : Runs s s.readBody := by
  have hrun := runs_readFrame_finish hb hd (by simp [State.reading, ho]) (.inl (by simp [ho])) hroom
  rwa [atStep_of_firstOfTransfer hq] at hrun

theorem writeReadBody_nack {s : State} (ha : s.writeFrame.ackbit = true) :
    s.writeReadBody = s.writeFrame.raiseNack := if_pos ha

theorem writeReadBody_ack {s : State} (ha : s.writeFrame.ackbit = false) :
    s.writeReadBody = s.writeFrame.stopCond.delaySettle.beginSecond.readFrame.finish := if_neg (by simp [ha])

/-- The read phase of WRITE_READ, from the STOP of its write frame (R163). -/
theorem runs_secondFrame {s : State} (hb : s.busy = true) (hd : s.done = false) (ho : s.op = 3)
    (hs : s.seq.second = false) (ha : s.ackbit = false) (hroom : s.rxLen.toNat ≤ s.rx.size) :
    Runs s.toStop s.stopCond.delaySettle.beginSecond.readFrame.finish := by
  have hstop := runs_stop hb hd .stopOk
  rw [afterStop_settle (s := s.stopCond.goTo .stopOk .stop) nofun ho hs] at hstop
  have hsettle := runs_settle (s := s.stopCond) hb hd .settle
  have hr : s.stopCond.delaySettle.beginSecond.reading = true := by
    have ho' : s.stopCond.delaySettle.beginSecond.op = 3 := ho
    rw [State.reading, ho']
    rfl
  rw [State.toStop, ha]
  exact hstop.trans (hsettle.trans (runs_readFrame_finish hb hd hr (.inr rfl) hroom))

/-- WRITE_READ (R163). -/
theorem runs_writeReadBody {s : State} (hq : s.seq = Seq.firstOfTransfer) (hb : s.busy = true)
    (hd : s.done = false) (ho : s.op = 3) (hheld : s.tx.holds s.txLen.toNat = true)
    (hroom : s.rxLen.toNat ≤ s.rx.size) : Runs s s.writeReadBody := by
  obtain ⟨ix, hw⟩ := writeFrame_eq s _ rfl
  have hs : s.seq.second = false := by rw [hq]; rfl
  have hb' : s.writeFrame.busy = true := by rw [hw]; exact hb
  have hd' : s.writeFrame.done = false := by rw [hw]; exact hd
  have hframe := runs_writeFrame hb hd (by simp [State.reading, ho, hs]) hheld
  rw [atStep_of_firstOfTransfer hq] at hframe
  refine hframe.trans ?_
  cases ha : s.writeFrame.ackbit with
  | true =>
    rw [writeReadBody_nack ha]
    exact runs_raiseNack hb' hd' ha
  | false =>
    rw [writeReadBody_ack ha]
    refine runs_secondFrame hb' hd' ?_ ?_ ha ?_ <;> rw [hw]
    · exact ho
    · exact hs
    · exact hroom

theorem exec_init_next {v : Nat} {s t : State} :
    exec (.init v) s = .next t ↔ ∃ a, acceptInit v s = .ok a ∧ a.initBody = t := by
  simp only [exec, execInit]
  cases acceptInit v s <;> simp

theorem exec_write_next {addr n : Nat} {s t : State} :
    exec (.write addr n) s = .next t ↔ ∃ a, acceptWrite addr n s = .ok a ∧ a.writeBody = t := by
  simp only [exec, execWrite]
  cases acceptWrite addr n s <;> simp

theorem exec_read_next {addr n : Nat} {s t : State} :
    exec (.read addr n) s = .next t ↔ ∃ a, acceptRead addr n s = .ok a ∧ a.readBody = t := by
  simp only [exec, execRead]
  cases acceptRead addr n s <;> simp

theorem exec_writeRead_next {addr m n : Nat} {s t : State} :
    exec (.writeRead addr m n) s = .next t ↔
      ∃ a, acceptWriteRead addr m n s = .ok a ∧ a.writeReadBody = t := by
  simp only [exec, execWriteRead]
  cases acceptWriteRead addr m n s <;> simp

theorem acceptInstr_init_next {v : Nat} {s a : State} :
    acceptInstr (.init v) s = .next a ↔ acceptInit v s = .ok a := by
  simp only [acceptInstr]
  cases acceptInit v s <;> simp

theorem acceptInstr_write_next {addr n : Nat} {s a : State} :
    acceptInstr (.write addr n) s = .next a ↔ acceptWrite addr n s = .ok a := by
  simp only [acceptInstr]
  cases acceptWrite addr n s <;> simp

theorem acceptInstr_read_next {addr n : Nat} {s a : State} :
    acceptInstr (.read addr n) s = .next a ↔ acceptRead addr n s = .ok a := by
  simp only [acceptInstr]
  cases acceptRead addr n s <;> simp

theorem acceptInstr_writeRead_next {addr m n : Nat} {s a : State} :
    acceptInstr (.writeRead addr m n) s = .next a ↔ acceptWriteRead addr m n s = .ok a := by
  simp only [acceptInstr]
  cases acceptWriteRead addr m n s <;> simp

/-- A command that is called is accepted, and its steps one by one end where the call ends (R33, R164). -/
theorem runs_of_exec {s t : State} {i : Instr} (hc : (encode i).format = .cmd) (ht : exec i s = .next t) :
    ∃ a, acceptInstr i s = .next a ∧ Runs a t := by
  cases i with
  | init v =>
    obtain ⟨a, ha, rfl⟩ := exec_init_next.mp ht
    obtain ⟨-, rfl⟩ := acceptInit_ok.mp ha
    exact ⟨_, acceptInstr_init_next.mpr ha, runs_initBody rfl rfl rfl⟩
  | write addr n =>
    obtain ⟨a, ha, rfl⟩ := exec_write_next.mp ht
    obtain ⟨-, hn, -, hheld, rfl⟩ := acceptWrite_ok.mp ha
    exact ⟨_, acceptInstr_write_next.mpr ha,
      runs_writeBody rfl rfl rfl rfl (by simpa [Nat.mod_eq_of_lt hn] using hheld)⟩
  | read addr n =>
    obtain ⟨a, ha, rfl⟩ := exec_read_next.mp ht
    obtain ⟨-, hn, -, hroom, rfl⟩ := acceptRead_ok.mp ha
    exact ⟨_, acceptInstr_read_next.mpr ha,
      runs_readBody rfl rfl rfl rfl (by simpa [Nat.mod_eq_of_lt hn] using hroom)⟩
  | writeRead addr m n =>
    obtain ⟨a, ha, rfl⟩ := exec_writeRead_next.mp ht
    obtain ⟨-, hm, hn, -, hheld, hroom, rfl⟩ := acceptWriteRead_ok.mp ha
    exact ⟨_, acceptInstr_writeRead_next.mpr ha,
      runs_writeReadBody rfl rfl rfl rfl (by simpa [Nat.mod_eq_of_lt hm] using hheld)
        (by simpa [Nat.mod_eq_of_lt hn] using hroom)⟩
  | _ => cases hc

end Sys2Proof.Machine
end

section
/-! PROOFS. A strobed command ends where the called one does, whatever the host waits (R33, R164). -/

namespace Sys2Proof.Machine

/-! ### The host's moves do not matter to a running command -/

/-- `s` with other moves of the host to come. -/
def State.withInbox (x : List Input) (s : State) : State := { s with inbox := x }

theorem exec_pin_withInbox {i : Instr} (h : i ∈ pinPrimitives) {s u : State} (hu : exec i s = .next u)
    (x : List Input) : exec i (s.withInbox x) = .next (u.withInbox x) := by
  simp only [pinPrimitives, List.mem_cons, List.not_mem_nil, or_false] at h
  rcases h with rfl | rfl | rfl | rfl | rfl | rfl | rfl | rfl | rfl | rfl <;> cases hu <;> rfl

theorem nextTxByte_withInbox {s t : State} (ht : s.nextTxByte = .next t) (x : List Input) :
    (s.withInbox x).nextTxByte = .next (t.withInbox x) := by
  obtain ⟨b, hlt, hread, rfl⟩ | ⟨hge, rfl⟩ := nextTxByte_next ht
  · exact nextTxByte_fetch (s := s.withInbox x) hlt hread
  · exact nextTxByte_stop (s := s.withInbox x) hge

theorem nextRxByte_withInbox (s : State) (x : List Input) :
    (s.withInbox x).nextRxByte = s.nextRxByte.withInbox x := by
  unfold State.nextRxByte
  rw [apply_ite (State.withInbox x)]
  rfl

theorem afterStop_withInbox (s : State) (x : List Input) :
    (s.withInbox x).afterStop = s.afterStop.withInbox x := by
  unfold State.afterStop
  rw [apply_ite (State.withInbox x), apply_ite (State.withInbox x)]
  rfl

theorem afterTxAck_withInbox {s t : State} (ht : s.afterTxAck = .next t) (x : List Input) :
    (s.withInbox x).afterTxAck = .next (t.withInbox x) := by
  cases ha : s.ackbit with
  | true =>
    cases ht.symm.trans (afterTxAck_nack ha)
    exact afterTxAck_nack ha
  | false =>
    by_cases hp : s.seq.phase = .addr
    · cases hr : s.reading with
      | true =>
        cases ht.symm.trans (afterTxAck_read ha hp hr)
        rw [afterTxAck_read (s := s.withInbox x) ha hp hr, ← nextRxByte_withInbox]
        rfl
      | false =>
        rw [afterTxAck_write (s := s.withInbox x) ha hp hr]
        exact nextTxByte_withInbox ((afterTxAck_write ha hp hr).symm.trans ht) x
    · rw [afterTxAck_data (s := s.withInbox x) ha hp]
      exact nextTxByte_withInbox ((afterTxAck_data ha hp).symm.trans ht) x

theorem afterRxAck_withInbox {s t : State} (ht : s.afterRxAck = .next t) (x : List Input) :
    (s.withInbox x).afterRxAck = .next (t.withInbox x) := by
  obtain ⟨hlt, rfl⟩ := afterRxAck_next.mp ht
  exact afterRxAck_next.mpr ⟨hlt, nextRxByte_withInbox s.storeByte.nextIdx x⟩

/-- SEQ's move does not look at the host's moves. -/
theorem advance_withInbox {s t : State} (hlt : s.seq.step < s.eventList.length) (ht : s.advance = .next t)
    (x : List Input) : (s.withInbox x).advance = .next (t.withInbox x) := by
  rcases Nat.lt_or_eq_of_le (Nat.succ_le_of_lt hlt) with hin | h
  · cases ht.symm.trans (advance_inside hin)
    exact advance_inside (s := s.withInbox x) hin
  have h' : (s.withInbox x).seq.step + 1 = (s.withInbox x).eventList.length := h
  cases hu : s.seq.sub with
  | idle => simp [State.eventList, hu] at h
  | init =>
    cases ht.symm.trans (advance_of_init h hu)
    exact advance_of_init h' hu
  | start =>
    cases ht.symm.trans (advance_of_start h hu)
    exact advance_of_start h' hu
  | stop =>
    cases ht.symm.trans (advance_of_stop h hu)
    rw [advance_of_stop h' hu, afterStop_withInbox]
  | settle =>
    cases ht.symm.trans (advance_of_settle h hu)
    exact advance_of_settle h' hu
  | txbit =>
    cases ht.symm.trans (advance_of_txbit h hu)
    exact advance_of_txbit h' hu
  | txack =>
    rw [advance_of_txack h' hu]
    exact afterTxAck_withInbox ((advance_of_txack h hu).symm.trans ht) x
  | rxPrologue =>
    cases ht.symm.trans (advance_of_rxPrologue h hu)
    exact advance_of_rxPrologue h' hu
  | rxbit =>
    cases ht.symm.trans (advance_of_rxbit h hu)
    exact advance_of_rxbit h' hu
  | rxack =>
    rw [advance_of_rxack h' hu]
    exact afterRxAck_withInbox ((advance_of_rxack h hu).symm.trans ht) x

/-! ### What a step of a running command keeps -/

/-- What SEQ's move leaves alone, from `s` to `t`: pins, trace, operands, TX, and the size of RX. -/
structure State.MoveKeeps (s t : State) : Prop where
  drivers : t.drivers = s.drivers
  sdaLatch : t.sdaLatch = s.sdaLatch
  sclLatch : t.sclLatch = s.sclLatch
  trace : t.trace = s.trace
  op : t.op = s.op
  txLen : t.txLen = s.txLen
  rxLen : t.rxLen = s.rxLen
  tx : t.tx = s.tx
  inbox : t.inbox = s.inbox
  rx : t.rx = s.rx ∨ s.idx.toNat < s.rx.size ∧ t.rx = s.rx.store s.idx.toNat s.shift

theorem moveKeeps_of_movesOn {s t : State} (h : s.MovesOn t) : s.MoveKeeps t := by
  obtain ⟨-, heq⟩ := h
  rw [heq]
  exact ⟨rfl, rfl, rfl, rfl, rfl, rfl, rfl, rfl, rfl, .inl rfl⟩

/-- SEQ's move, inside a list and at its end. -/
theorem moveKeeps_of_advance {s t : State} (hlt : s.seq.step < s.eventList.length)
    (ht : s.advance = .next t) : s.MoveKeeps t := by
  rcases Nat.lt_or_eq_of_le (Nat.succ_le_of_lt hlt) with hin | hend
  · cases ht.symm.trans (advance_inside hin)
    exact ⟨rfl, rfl, rfl, rfl, rfl, rfl, rfl, rfl, rfl, .inl rfl⟩
  rcases movesOn_of_advance hend ht with ⟨-, h⟩ | ⟨hsub, -, heq⟩
  · exact moveKeeps_of_movesOn h
  · obtain ⟨hroom, -⟩ := afterRxAck_next.mp ((advance_of_rxack hend hsub).symm.trans ht)
    rw [heq]
    exact ⟨rfl, rfl, rfl, rfl, rfl, rfl, rfl, rfl, rfl, .inr ⟨hroom, rfl⟩⟩

/-- A tick in two parts: the primitive SEQ names, which writes pins, sample, answers and trace only, and
SEQ's move from there. -/
theorem tick_split {s t : State} (ht : tick s = .next t) :
    ∃ i u, s.nextPrimitive = some i ∧ exec i { s with done := false } = .next u ∧
      u = { s with
        done := false, sdaDrv := u.sdaDrv, sclDrv := u.sclDrv, sdaLatch := u.sdaLatch,
        sclLatch := u.sclLatch, sample := u.sample, answers := u.answers, samples := u.samples,
        trace := s.trace ++ pinEvent (s.upcoming 0) i } ∧
      u.seq.step < u.eventList.length ∧ u.advance = .next t := by
  obtain ⟨i, u, hp, hu, ha⟩ := tick_next.mp ht
  obtain ⟨u', hu', hframe⟩ := exec_pin (nextPrimitive_mem hp) { s with done := false }
  cases hu.symm.trans hu'
  refine ⟨i, u, hp, hu, hframe, ?_, ha⟩
  rw [hframe]
  exact (List.getElem?_eq_some_iff.mp hp).1

/-- A running command's step does not look at the host's moves (R164). -/
theorem tick_withInbox {s t : State} (ht : tick s = .next t) (x : List Input) :
    tick (s.withInbox x) = .next (t.withInbox x) := by
  obtain ⟨i, u, hp, hu, -, hlt, ha⟩ := tick_split ht
  have hmem := nextPrimitive_mem hp
  exact tick_next.mpr ⟨i, u.withInbox x, hp, exec_pin_withInbox hmem hu x, advance_withInbox hlt ha x⟩

/-- A running command's step leaves the host's moves to the host (R164). -/
theorem tick_inbox {s t : State} (ht : tick s = .next t) : t.inbox = s.inbox := by
  obtain ⟨i, u, -, -, hframe, hlt, ha⟩ := tick_split ht
  rw [(moveKeeps_of_advance hlt ha).inbox, hframe]

/-- A running command's step adds one event (R9, R11). -/
theorem length_trace_tick {s t : State} (ht : tick s = .next t) : t.trace.length = s.trace.length + 1 := by
  obtain ⟨i, u, hp, -, hframe, hlt, ha⟩ := tick_split ht
  rw [(moveKeeps_of_advance hlt ha).trace, hframe]
  simp [length_pinEvent (nextPrimitive_mem hp)]

theorem length_trace_le_of_runs {s t : State} (h : Runs s t) : s.trace.length ≤ t.trace.length := by
  induction h with
  | refl => rfl
  | tail _ hstep ih => rw [length_trace_tick hstep.2]; omega

theorem runs_inbox {s t : State} (h : Runs s t) : t.inbox = s.inbox := by
  induction h with
  | refl => rfl
  | tail _ hstep ih => rw [tick_inbox hstep.2, ih]

/-! ### Runs as steps of the block -/

/-- A step of a running command while the host has other moves to come (R164). -/
theorem step_of_ticks {s t : State} (h : Ticks s t) {x : List Input}
    (hr : (s.withInbox x).resetPending = false) :
    step (s.withInbox x) = .next (t.withInbox (letPass x)) :=
  (step_busy (s := s.withInbox x) h.1 hr).trans (tick_withInbox h.2 (letPass x))

/-- A run takes one step for each of its events, `k` of which the host may wait (R33, R164). -/
theorem stepN_of_runs {s t : State} (h : Runs s t) (k : Nat) (rest : List Input)
    (hk : s.trace.length + k ≤ t.trace.length)
    (hrest : s.trace.length + k = t.trace.length ∨
      State.resetPending { s with inbox := rest } = false ∧ letPass rest = rest) :
    stepN (t.trace.length - s.trace.length) (s.withInbox (List.replicate k .wait ++ rest)) =
      .next (t.withInbox rest) := by
  induction h using Relation.ReflTransGen.head_induction_on generalizing k with
  | refl =>
    have hk0 : k = 0 := by omega
    subst hk0
    simp [stepN]
  | @head s u hstep hrun ih =>
    have hlen := length_trace_tick hstep.2
    have hle := length_trace_le_of_runs hrun
    rw [show t.trace.length - s.trace.length = t.trace.length - u.trace.length + 1 by omega, stepN]
    cases k with
    | zero =>
      obtain ⟨hr, hpass⟩ := hrest.resolve_left (by omega)
      simp only [List.replicate, List.nil_append, step_of_ticks hstep hr, hpass]
      exact ih 0 (by omega) (.inr ⟨hr, hpass⟩)
    | succ k =>
      have hr : (s.withInbox (List.replicate (k + 1) .wait ++ rest)).resetPending = false := rfl
      rw [step_of_ticks hstep hr]
      exact ih k (by omega) (hrest.imp (by omega) id)

/-! ### The obligation -/

/-- A command's own word on the command port is its strobe (R80, R81). -/
theorem encode_cmd {i : Instr} (hc : (encode i).format = .cmd) :
    PortWord.mk .cmd (encode i).bits = encode i := by
  rw [← hc]

/-- The word of a well-formed command decodes to it (R82, R83). -/
theorem decode_encode_cmd {i : Instr} (hc : (encode i).format = .cmd) (hw : i.wellFormed = true) :
    decode (encode i) = .ok i := by
  cases i with
  | init v => exact Laws.RoundTrip.init v hw
  | write addr n => exact Laws.RoundTrip.write addr n hw
  | read addr n => exact Laws.RoundTrip.read addr n hw
  | writeRead addr m n => exact Laws.RoundTrip.writeRead addr m n hw
  | _ => cases hc

/-- Acceptance does not look at the host's moves (R164). -/
theorem acceptInstr_withInbox {i : Instr} (hc : (encode i).format = .cmd) {s a : State}
    (ha : acceptInstr i s = .next a) (x : List Input) :
    acceptInstr i (s.withInbox x) = .next (a.withInbox x) := by
  cases i with
  | init v =>
    obtain ⟨hb, rfl⟩ := acceptInit_ok.mp (acceptInstr_init_next.mp ha)
    exact acceptInstr_init_next.mpr (acceptInit_ok.mpr ⟨hb, rfl⟩)
  | write addr n =>
    obtain ⟨haddr, hn, hready, hheld, rfl⟩ := acceptWrite_ok.mp (acceptInstr_write_next.mp ha)
    exact acceptInstr_write_next.mpr (acceptWrite_ok.mpr ⟨haddr, hn, hready, hheld, rfl⟩)
  | read addr n =>
    obtain ⟨haddr, hn, hready, hroom, rfl⟩ := acceptRead_ok.mp (acceptInstr_read_next.mp ha)
    exact acceptInstr_read_next.mpr (acceptRead_ok.mpr ⟨haddr, hn, hready, hroom, rfl⟩)
  | writeRead addr m n =>
    obtain ⟨haddr, hm, hn, hready, hheld, hroom, rfl⟩ :=
      acceptWriteRead_ok.mp (acceptInstr_writeRead_next.mp ha)
    exact acceptInstr_writeRead_next.mpr
      (acceptWriteRead_ok.mpr ⟨haddr, hm, hn, hready, hheld, hroom, rfl⟩)
  | _ => cases hc

/-- An idle engine's called word (R95). -/
theorem step_call {s : State} {w : PortWord} {rest : List Input} (hb : s.busy = false) :
    step { s with inbox := .call w :: rest } = runCall w { s with done := false, inbox := rest } := by
  rw [step_idle (s := { s with inbox := .call w :: rest }) hb rfl]
  rfl

/-- An idle engine's strobed command (R164). -/
theorem step_strobe {s : State} {bits : Nat} {rest : List Input} (hb : s.busy = false) :
    step { s with inbox := .strobe bits :: rest } =
      runStrobe bits { s with done := false, inbox := rest } := by
  rw [step_idle (s := { s with inbox := .strobe bits :: rest }) hb rfl]
  rfl

/-- The state an accepted command begins in (R164, R83): operands latched, at its first position; a
transfer runs only on an initialised engine whose buffers suffice (D10, D13). -/
theorem accepted_of_acceptInstr {i : Instr} (hc : (encode i).format = .cmd) {s a : State}
    (ha : acceptInstr i s = .next a) :
    ∃ op first addr txLen rxLen speed,
      a = State.beginCommand op first
        { s with addr := addr, txLen := txLen, rxLen := rxLen, speed := speed } ∧
      (op = 0 ∧ first = Seq.firstOfInit ∨
        (op = 1 ∨ op = 2 ∨ op = 3) ∧ first = Seq.firstOfTransfer ∧ s.initialised = true ∧
          a.buffersSuffice = true) := by
  cases i with
  | init v =>
    obtain ⟨-, rfl⟩ := acceptInit_ok.mp (acceptInstr_init_next.mp ha)
    exact ⟨_, _, _, _, _, _, rfl, .inl ⟨rfl, rfl⟩⟩
  | write addr n =>
    obtain ⟨-, hn, hready, hheld, rfl⟩ := acceptWrite_ok.mp (acceptInstr_write_next.mp ha)
    refine ⟨_, _, _, _, _, _, rfl, .inr ⟨by simp, rfl, hready.2, ?_⟩⟩
    simp [State.buffersSuffice, Nat.mod_eq_of_lt hn, hheld]
  | read addr n =>
    obtain ⟨-, hn, hready, hroom, rfl⟩ := acceptRead_ok.mp (acceptInstr_read_next.mp ha)
    refine ⟨_, _, _, _, _, _, rfl, .inr ⟨by simp, rfl, hready.2, ?_⟩⟩
    simp [State.buffersSuffice, Nat.mod_eq_of_lt hn, hroom]
  | writeRead addr m n =>
    obtain ⟨-, hm, hn, hready, hheld, hroom, rfl⟩ :=
      acceptWriteRead_ok.mp (acceptInstr_writeRead_next.mp ha)
    refine ⟨_, _, _, _, _, _, rfl, .inr ⟨by simp, rfl, hready.2, ?_⟩⟩
    simp [State.buffersSuffice, Nat.mod_eq_of_lt hm, Nat.mod_eq_of_lt hn, hheld, hroom]
  | _ => cases hc

/-- Settles O46: the call is its acceptance and a run (`runs_of_exec`); the strobe is the same acceptance,
and the steps of that run (`stepN_of_runs`). -/
theorem strobedCommandsEndAsCalled : Obligations.StrobedCommandsEndAsCalled := by
  intro s t i rest k hc hw hb hcall hk hrest
  rw [step_call hb, runCall, decode_encode_cmd hc hw] at hcall
  obtain ⟨a, ha, hrun⟩ := runs_of_exec hc hcall
  obtain ⟨op, first, addr, txLen, rxLen, speed, heq, -⟩ := accepted_of_acceptInstr hc ha
  have hinbox : a.inbox = rest := by rw [heq]; rfl
  have hlen : a.trace.length = s.trace.length := by rw [heq]; rfl
  have hstrobe : step { s with inbox := .strobe (encode i).bits :: (List.replicate k .wait ++ rest) } =
      .next (a.withInbox (List.replicate k .wait ++ rest)) := by
    rw [step_strobe hb, runStrobe, encode_cmd hc, decode_encode_cmd hc hw]
    exact acceptInstr_withInbox hc ha _
  have hend : t.withInbox rest = t := by
    have hsame : t.inbox = rest := (runs_inbox hrun).trans hinbox
    rw [State.withInbox, ← hsame]
  have hsteps := stepN_of_runs hrun k rest (by rwa [hlen]) (by rwa [hlen])
  rw [hend, hlen] at hsteps
  rw [stepN, hstrobe]
  exact hsteps

end Sys2Proof.Machine
end

section
/-! PROOFS. The drivers at every position of SEQ (R130, R131, R140 to R145). -/

namespace Sys2Proof.Machine

/-! ### The drivers along an event list -/

/-- The drivers after a pin primitive (R110 to R119). -/
def Drivers.driven (d : Drivers) (i : Instr) : Drivers := d.afterAll (pinEvent false i)

@[simp] theorem driven_sdaLow (d : Drivers) : d.driven .sdaLow = ⟨d.scl, .drivenLow⟩ := rfl
@[simp] theorem driven_sdaRelease (d : Drivers) : d.driven .sdaRelease = ⟨d.scl, .released⟩ := rfl
@[simp] theorem driven_sclLow (d : Drivers) : d.driven .sclLow = ⟨.drivenLow, d.sda⟩ := rfl
@[simp] theorem driven_sclRelease (d : Drivers) : d.driven .sclRelease = ⟨.released, d.sda⟩ := rfl
@[simp] theorem driven_sdaSample (d : Drivers) : d.driven .sdaSample = ⟨d.scl, .released⟩ := rfl
@[simp] theorem driven_delayQuarter (d : Drivers) : d.driven .delayQuarter = d := rfl
@[simp] theorem driven_delayHalf (d : Drivers) : d.driven .delayHalf = d := rfl
@[simp] theorem driven_delayRecovery (d : Drivers) : d.driven .delayRecovery = d := rfl
@[simp] theorem driven_delaySettle (d : Drivers) : d.driven .delaySettle = d := rfl
@[simp] theorem driven_latchClear (d : Drivers) : d.driven .latchClear = d := rfl

@[simp] theorem driven_primitiveFor (d : Drivers) (b : Bit) :
    d.driven (primitiveFor b) = ⟨d.scl, driverOf b⟩ := by
  cases b <;> rfl

/-- A pin primitive moves the drivers as its event says (R12, R110 to R119). -/
theorem drivers_exec_pin {i : Instr} (h : i ∈ pinPrimitives) {s u : State} (hu : exec i s = .next u)
    (b : Bit) :
    u.drivers = s.drivers.driven i ∧ s.drivers.afterAll (pinEvent b i) = s.drivers.driven i := by
  simp only [pinPrimitives, List.mem_cons, List.not_mem_nil, or_false] at h
  rcases h with rfl | rfl | rfl | rfl | rfl | rfl | rfl | rfl | rfl | rfl <;> cases hu <;>
    exact ⟨rfl, rfl⟩

/-- A pin primitive never raises a latch (R110, R111, R119). -/
theorem latches_exec_pin {i : Instr} (h : i ∈ pinPrimitives) {s u : State} (hu : exec i s = .next u) :
    (s.sdaLatch = false → u.sdaLatch = false) ∧ (s.sclLatch = false → u.sclLatch = false) := by
  simp only [pinPrimitives, List.mem_cons, List.not_mem_nil, or_false] at h
  rcases h with rfl | rfl | rfl | rfl | rfl | rfl | rfl | rfl | rfl | rfl <;> cases hu <;>
    simp [State.sdaLow, State.sdaRelease, State.sclLow, State.sclRelease, State.sdaSample, State.delayQuarter,
      State.delayHalf, State.delayRecovery, State.delaySettle, State.latchClear]

/-- The drivers where an event list ends, as its next list needs them. -/
def Sub.leaves : Sub → Drivers → Prop
  | .init, d => d = Drivers.idle
  | .stop, d => d = Drivers.idle
  | .settle, d => d = Drivers.idle
  | .txack, d => d = ⟨.drivenLow, .released⟩
  | .rxPrologue, d => d = ⟨.drivenLow, .released⟩
  | .rxbit, d => d = ⟨.released, .released⟩
  | .rxack, d => d = ⟨.drivenLow, .released⟩
  | .idle, _ => True
  | .start, _ => True
  | .txbit, _ => True

section Positions

variable {s : State} (hfit : s.driversFit = true)
include hfit

/-- Where a list ends the drivers are as its next list needs them. -/
theorem leaves_of_driversFit {d : Drivers} (hd : some d = s.nextPrimitive.map s.drivers.driven)
    (hend : s.seq.step + 1 = s.eventList.length) : s.seq.sub.leaves d := by
  unfold State.driversFit at hfit
  unfold State.nextPrimitive State.eventList at hd
  unfold State.eventList at hend
  cases hu : s.seq.sub <;> simp_all [Sub.leaves, Drivers.idle]

/-- Inside a list each primitive leaves the drivers its next position has. -/
theorem driversFit_inside {t : State} (hd : some t.drivers = s.nextPrimitive.map s.drivers.driven)
    (hin : s.seq.step + 1 < s.eventList.length) (hsub : t.seq.sub = s.seq.sub)
    (hstep : t.seq.step = s.seq.step + 1) (hsh : s.seq.sub = .txbit → t.shift = s.shift)
    (hsa : t.sendAck = s.sendAck) : t.driversFit = true := by
  unfold State.driversFit at hfit ⊢
  rw [hsub, hstep]
  unfold State.nextPrimitive State.eventList at hd
  unfold State.eventList at hin
  split at hfit
  case h_1 hu =>
    simp only [hu] at hd hin ⊢
    obtain h | h | h : s.seq.step = 0 ∨ s.seq.step = 1 ∨ s.seq.step = 2 := by simp at hin; omega
    all_goals simp_all [State.drivers]
  case h_38 => cases hfit
  all_goals
    rename_i hu hn
    simp only [hu, hn] at hd hin hsh ⊢
    simp_all [State.drivers]

/-- Inside a list SDA changes with SCL released only where START pulls it and where STOP lets it go
(R22, R89). -/
theorem sda_changes {d : Drivers} (hd : some d = s.nextPrimitive.map s.drivers.driven)
    (hne : s.sdaDrv ≠ d.sda) (hscl : s.sclDrv = .released) :
    (s.seq.sub = .start ∧ s.seq.step = 0 ∧ d.sda = .drivenLow) ∨
      (s.seq.sub = .stop ∧ s.seq.step = 4 ∧ d.sda = .released) := by
  unfold State.driversFit at hfit
  unfold State.nextPrimitive State.eventList at hd
  split at hfit
  case h_1 hu =>
    simp only [hu] at hd
    obtain h | h | h | h : s.seq.step = 0 ∨ s.seq.step = 1 ∨ s.seq.step = 2 ∨ s.seq.step = 3 := by
      simp at hfit; omega
    all_goals simp_all [State.drivers]
  case h_38 => cases hfit
  all_goals
    rename_i hu hn
    simp only [hu, hn] at hd ⊢
    simp_all [State.drivers]

end Positions

/-- What a step of a running command does to the drivers: the primitive of SEQ, and nothing else. -/
theorem drivers_of_tick {s t : State} (ht : tick s = .next t) :
    some t.drivers = s.nextPrimitive.map s.drivers.driven := by
  obtain ⟨i, u, hp, hu, -, hlt, ha⟩ := tick_split ht
  obtain ⟨hd, -⟩ := drivers_exec_pin (nextPrimitive_mem hp) hu false
  rw [hp, (moveKeeps_of_advance hlt ha).drivers, hd]
  rfl

/-- What it is for a running command to be at a legal position. -/
theorem runningFits_iff (s : State) :
    s.runningFits = true ↔ s.op.toNat < 4 ∧ s.driversFit = true ∧ s.phaseFits = true ∧
      s.buffersSuffice = true ∧ (s.seq.second = true → s.op = 3) := by
  simp only [State.runningFits, Bool.and_eq_true, decide_eq_true_eq, Bool.or_eq_true, Bool.not_eq_true',
    beq_iff_eq, and_assoc]
  iterate 4 refine and_congr_right fun _ => ?_
  cases s.seq.second <;> simp

/-- Settles O42: at a legal position `sda_changes` names the two primitives that do it. -/
theorem sdaChangesOnlyInStartAndStop : Obligations.SdaChangesOnlyInStartAndStop := by
  intro s t hs hb hr ht hne hscl
  rw [step_busy hb hr] at ht
  obtain ⟨-, hfit, -⟩ := (runningFits_iff s).mp (hs.running hb)
  have hd := drivers_of_tick ht
  exact sda_changes hfit hd hne hscl

end Sys2Proof.Machine
end

section
/-! PROOFS. Every step keeps the legal states (R21 to R38): a running command goes on to a legal position or
ends with the bus idle; an accepted command begins at one. -/

namespace Sys2Proof.Machine

/-! ### Legal positions where an event list ends -/

/-- A command goes on from `s` to a legal position `t`. -/
structure State.GoesOn (s t : State) : Prop where
  busy : t.busy = s.busy
  initialised : t.initialised = s.initialised
  statusValid : t.statusValid = s.statusValid
  second : t.seq.second = true → s.seq.second = true ∨ s.op = 3
  lastOfInit : t.seq.sub = .init → t.seq.step = 3 → t.sdaLatch = false ∧ t.sclLatch = false
  driversFit : t.driversFit = true
  phaseFits : t.phaseFits = true

/-- Where a command goes on to does not depend on IDX or on the buffers it left. -/
theorem goesOn_of_bufs {s t : State} {ix : Len} {rx : Buffer} {ops : List BufOp}
    (h : State.GoesOn { s with idx := ix, rx := rx, bufOps := ops } t) : s.GoesOn t :=
  ⟨h.busy, h.initialised, h.statusValid, h.second, h.lastOfInit, h.driversFit, h.phaseFits⟩

/-- A command ends in `t`, with the bus idle (R164). -/
structure State.EndsIn (s t : State) : Prop where
  busy : t.busy = false
  seq : t.seq = Seq.idle
  busIdle : t.busIdle
  initialised : t.initialised = true → s.initialised = true ∨ s.seq.sub = .init ∧ s.seq.step = 3
  status : t.statusValid = true → s.statusValid = true ∨ t.status = .ok ∨ t.status = .nack

theorem endsIn_endTransfer {s : State} {st : Status} (hd : s.busIdle) (hst : st = .ok ∨ st = .nack) :
    s.EndsIn (s.endTransfer st) := ⟨rfl, rfl, hd, .inl, fun _ => .inr hst⟩

/-- BITCNT in a data bit: the last one leaves 0, any other leaves another data bit (R26). -/
theorem bitcnt_pred {s : State} (h : s.bitcntInData = true) :
    (s.bitcnt = 1 → s.bitcnt - 1 = 0) ∧
      (s.bitcnt ≠ 1 → State.bitcntInData { s with bitcnt := s.bitcnt - 1 } = true) := by
  simp only [State.bitcntInData, decide_eq_true_eq] at h ⊢
  revert h
  generalize s.bitcnt = n
  revert n
  decide

/-- A received byte stays one in every list of its RXBYTE. -/
theorem receiving_goTo {s : State} (q : Sub) (h : s.receiving = true) :
    (s.goTo .rxdata q).receiving = true := by
  simp only [State.receiving, Bool.and_eq_true] at h ⊢
  obtain ⟨⟨-, hr⟩, hidx⟩ := h
  exact ⟨⟨rfl, hr⟩, hidx⟩

/-- STOP leads on, or ends the command (R163, R164). -/
theorem goesOn_or_endsIn_afterStop {s : State} (hd : s.busIdle) :
    s.GoesOn s.afterStop ∨ s.EndsIn s.afterStop := by
  by_cases hp : s.seq.phase = .stopNack
  · rw [afterStop_nack hp]
    exact .inr (endsIn_endTransfer hd (.inr rfl))
  by_cases ho : s.op ≠ 3 ∨ s.seq.second = true
  · rw [afterStop_ok hp ho]
    exact .inr (endsIn_endTransfer hd (.inl rfl))
  · rw [not_or, not_not, Bool.not_eq_true] at ho
    obtain ⟨ho, hs⟩ := ho
    rw [afterStop_settle hp ho hs]
    refine .inl ⟨rfl, rfl, rfl, .inl, nofun, beq_iff_eq.mpr hd, ?_⟩
    simp [State.phaseFits, State.goTo, ho, hs]

/-- A frame's STOP is a legal position. -/
theorem goesOn_goTo_stop {s : State} {p : Phase} (hp : p = .stopOk ∨ p = .stopNack)
    (hd : s.drivers = ⟨.drivenLow, .released⟩) (ho : s.op ≠ 0) : s.GoesOn (s.goTo p .stop) := by
  refine ⟨rfl, rfl, rfl, .inl, nofun, beq_iff_eq.mpr hd, ?_⟩
  simpa [State.phaseFits, State.goTo, hp] using ho

/-- The loop test of WRITE leads on (R161). -/
theorem goesOn_of_nextTxByte {s t : State} (ht : s.nextTxByte = .next t)
    (hd : s.drivers = ⟨.drivenLow, .released⟩) (hr : s.reading = false) (ho : s.op ≠ 0) : s.GoesOn t := by
  obtain ⟨b, hlt, -, rfl⟩ | ⟨-, rfl⟩ := nextTxByte_next ht
  · have hr' : State.reading ((s.strobeBuf (.fetch s.idx)).beginTxByte .txdata b) = false := hr
    refine ⟨rfl, rfl, rfl, .inl, nofun, rfl, ?_⟩
    simp only [State.phaseFits, State.sending, hr']
    simpa [State.beginTxByte, State.bitcntInData, hlt] using ho
  · exact goesOn_goTo_stop (.inl rfl) hd ho

/-- The loop test of READ leads on (R162). -/
theorem goesOn_nextRxByte {s : State} (hd : s.drivers = ⟨.drivenLow, .released⟩) (hr : s.reading = true) :
    s.GoesOn s.nextRxByte := by
  unfold State.nextRxByte
  split
  · next hlt =>
    refine ⟨rfl, rfl, rfl, .inl, nofun, beq_iff_eq.mpr hd, ?_⟩
    exact Bool.and_eq_true_iff.mpr ⟨Bool.and_eq_true_iff.mpr ⟨rfl, hr⟩, decide_eq_true hlt⟩
  · have ho : s.op ≠ 0 := by
      intro h
      simp [State.reading, h] at hr
    exact goesOn_goTo_stop (.inl rfl) hd ho

/-- The acknowledge clock of a byte sent leads on (R171). -/
theorem goesOn_of_afterTxAck {s t : State} (ht : s.afterTxAck = .next t) (hsend : s.sending = true)
    (ho : s.op ≠ 0) (hd : s.drivers = ⟨.drivenLow, .released⟩) : s.GoesOn t := by
  cases ha : s.ackbit with
  | true =>
    cases ht.symm.trans (afterTxAck_nack ha)
    exact goesOn_goTo_stop (.inr rfl) hd ho
  | false =>
    by_cases hp : s.seq.phase = .addr
    · cases hr : s.reading with
      | true =>
        cases ht.symm.trans (afterTxAck_read ha hp hr)
        exact goesOn_of_bufs (goesOn_nextRxByte (s := s.firstIdx) hd hr)
      | false =>
        have hnext := (afterTxAck_write ha hp hr).symm.trans ht
        exact goesOn_of_bufs (goesOn_of_nextTxByte (s := s.firstIdx) hnext hd hr ho)
    · have hr : s.reading = false := by
        simp only [State.sending, Bool.or_eq_true, Bool.and_eq_true, beq_iff_eq, hp, false_or,
          Bool.not_eq_true'] at hsend
        exact hsend.1.2
      have hnext := (afterTxAck_data ha hp).symm.trans ht
      exact goesOn_of_bufs (goesOn_of_nextTxByte (s := s.nextIdx) hnext hd hr ho)

/-- At the end of a list, with the drivers it leaves, the command goes on to a legal position, or it ends
with the bus idle. -/
theorem goesOn_or_endsIn {s t : State} (hend : s.seq.step + 1 = s.eventList.length)
    (hphase : s.phaseFits = true) (hleaves : s.seq.sub.leaves s.drivers) (ht : s.advance = .next t) :
    s.GoesOn t ∨ s.EndsIn t := by
  have hp := hphase
  unfold State.phaseFits at hp
  cases hu : s.seq.sub <;> rw [hu] at hleaves <;>
    simp only [hu, Bool.and_eq_true, beq_iff_eq, bne_iff_ne] at hp
  case idle => cases hp
  case init =>
    cases ht.symm.trans (advance_of_init hend hu)
    exact .inr ⟨rfl, rfl, hleaves, fun _ => .inr ⟨hu, by simpa [State.eventList, hu] using hend⟩, .inl⟩
  case start =>
    cases ht.symm.trans (advance_of_start hend hu)
    refine .inl ⟨rfl, rfl, rfl, .inl, nofun, rfl, ?_⟩
    simpa [State.phaseFits, State.beginTxByte, State.sending, State.bitcntInData] using hp.2
  case stop =>
    cases ht.symm.trans (advance_of_stop hend hu)
    exact goesOn_or_endsIn_afterStop hleaves
  case settle =>
    cases ht.symm.trans (advance_of_settle hend hu)
    obtain ⟨⟨-, ho⟩, -⟩ := hp
    refine .inl ⟨rfl, rfl, rfl, fun _ => .inr ho, nofun, beq_iff_eq.mpr hleaves, ?_⟩
    simp [State.phaseFits, State.goTo, ho]
  case txbit =>
    cases ht.symm.trans (advance_of_txbit hend hu)
    obtain ⟨⟨hsend, hcount⟩, ho⟩ := hp
    obtain ⟨hlast, hmore⟩ := bitcnt_pred hcount
    by_cases hc : s.bitcnt = 1
    · rw [if_pos hc]
      refine .inl ⟨rfl, rfl, rfl, .inl, nofun, rfl, ?_⟩
      exact Bool.and_eq_true_iff.mpr
        ⟨Bool.and_eq_true_iff.mpr ⟨hsend, beq_iff_eq.mpr (hlast hc)⟩, bne_iff_ne.mpr ho⟩
    · rw [if_neg hc]
      refine .inl ⟨rfl, rfl, rfl, .inl, nofun, rfl, ?_⟩
      exact Bool.and_eq_true_iff.mpr ⟨Bool.and_eq_true_iff.mpr ⟨hsend, hmore hc⟩, bne_iff_ne.mpr ho⟩
  case txack =>
    obtain ⟨⟨hsend, -⟩, ho⟩ := hp
    exact .inl (goesOn_of_afterTxAck ((advance_of_txack hend hu).symm.trans ht) hsend ho hleaves)
  case rxPrologue =>
    cases ht.symm.trans (advance_of_rxPrologue hend hu)
    refine .inl ⟨rfl, rfl, rfl, .inl, nofun, ?_, ?_⟩
    · exact beq_iff_eq.mpr (congrArg Drivers.sda hleaves)
    · exact Bool.and_eq_true_iff.mpr ⟨receiving_goTo .rxbit hp, rfl⟩
  case rxbit =>
    cases ht.symm.trans (advance_of_rxbit hend hu)
    obtain ⟨hrecv, hcount⟩ := hp
    obtain ⟨hlast, hmore⟩ := bitcnt_pred hcount
    by_cases hc : s.bitcnt = 1
    · rw [if_pos hc]
      refine .inl ⟨rfl, rfl, rfl, .inl, nofun, beq_iff_eq.mpr hleaves, ?_⟩
      exact Bool.and_eq_true_iff.mpr ⟨receiving_goTo .rxack hrecv, beq_iff_eq.mpr (hlast hc)⟩
    · rw [if_neg hc]
      refine .inl ⟨rfl, rfl, rfl, .inl, nofun, beq_iff_eq.mpr (congrArg Drivers.sda hleaves), ?_⟩
      exact Bool.and_eq_true_iff.mpr ⟨receiving_goTo .rxbit hrecv, hmore hc⟩
  case rxack =>
    obtain ⟨-, rfl⟩ := afterRxAck_next.mp ((advance_of_rxack hend hu).symm.trans ht)
    simp only [State.receiving, Bool.and_eq_true] at hp
    obtain ⟨⟨⟨-, hr⟩, -⟩, -⟩ := hp
    exact .inl (goesOn_of_bufs (goesOn_nextRxByte (s := s.storeByte.nextIdx) hleaves hr))

/-! ### A step of a running command keeps the legal states -/

/-- What a step of a running command keeps whatever position it is at. -/
structure State.TickKeeps (s t : State) : Prop where
  sdaLatch : s.sdaLatch = false → t.sdaLatch = false
  sclLatch : s.sclLatch = false → t.sclLatch = false
  traced : Drivers.idle.afterAll s.trace = s.drivers → Drivers.idle.afterAll t.trace = t.drivers
  op : t.op = s.op
  txLen : t.txLen = s.txLen
  rxLen : t.rxLen = s.rxLen
  tx : t.tx = s.tx
  inbox : t.inbox = s.inbox
  rxWf : s.rx.wf = true → t.rx.wf = true
  rxSize : t.rx.size = s.rx.size

theorem tickKeeps {s t : State} (ht : tick s = .next t) : s.TickKeeps t := by
  obtain ⟨i, u, hp, hu, hframe, hlt, ha⟩ := tick_split ht
  obtain ⟨hdrivers, hsda, hscl, htrace, hop, htxLen, hrxLen, htx, hinbox, hrx⟩ := moveKeeps_of_advance hlt ha
  obtain ⟨hlatchSda, hlatchScl⟩ := latches_exec_pin (nextPrimitive_mem hp) hu
  obtain ⟨hdriven, hafter⟩ := drivers_exec_pin (nextPrimitive_mem hp) hu (s.upcoming 0)
  have hurx : u.rx = s.rx := by rw [hframe]
  have hutrace : u.trace = s.trace ++ pinEvent (s.upcoming 0) i := by rw [hframe]
  refine ⟨fun h => hsda.trans (hlatchSda h), fun h => hscl.trans (hlatchScl h), ?traced,
    hop.trans ?_, htxLen.trans ?_, hrxLen.trans ?_, htx.trans ?_, hinbox.trans ?_, ?rxWf, ?rxSize⟩
  case traced =>
    intro h
    rw [htrace, hutrace, Drivers.afterAll_append, h, hdrivers, hdriven]
    exact hafter
  case rxWf =>
    rw [← hurx]
    intro h
    rcases hrx with heq | ⟨hroom, heq⟩ <;> rw [heq]
    · exact h
    · exact Buffer.store_wf h hroom
  case rxSize =>
    rw [← hurx]
    rcases hrx with heq | ⟨-, heq⟩ <;> rw [heq]
    rfl
  all_goals rw [hframe]

/-- INIT's third primitive clears both latches (R119, R160). -/
theorem latches_before_last_of_init {s u : State} {i : Instr} (hsub : s.seq.sub = .init)
    (hstep : s.seq.step = 2) (hp : s.nextPrimitive = some i)
    (hu : exec i { s with done := false } = .next u) :
    u.sdaLatch = false ∧ u.sclLatch = false := by
  simp only [State.nextPrimitive, State.eventList, hsub, hstep] at hp
  cases hp
  cases hu
  exact ⟨rfl, rfl⟩

/-- A step of a running command goes on to a legal position, or ends the command with the bus idle. -/
theorem goesOn_or_endsIn_of_tick {s t : State} (hfit : s.driversFit = true) (hphase : s.phaseFits = true)
    (ht : tick s = .next t) : s.GoesOn t ∨ s.EndsIn t := by
  have hd := drivers_of_tick ht
  obtain ⟨i, u, hp, hu, hframe, hlt, ha⟩ := tick_split ht
  have hseq : u.seq = s.seq := by rw [hframe]
  have hlist : u.eventList = s.eventList := by rw [hframe]; rfl
  have huphase : u.phaseFits = true := by rw [hframe]; exact hphase
  have hbusy : u.busy = s.busy := by rw [hframe]
  have hinit : u.initialised = s.initialised := by rw [hframe]
  have hvalid : u.statusValid = s.statusValid := by rw [hframe]
  have hop : u.op = s.op := by rw [hframe]
  rcases Nat.lt_or_eq_of_le (Nat.succ_le_of_lt hlt) with hin | hend
  case inl =>
    left
    cases ha.symm.trans (advance_inside hin)
    refine ⟨hbusy, hinit, hvalid, fun h => .inl (by rwa [← hseq]), fun hsub hstep => ?_, ?_, huphase⟩
    · rw [hseq] at hsub hstep
      have hcleared := latches_before_last_of_init (s := s) hsub (Nat.succ.inj hstep) hp hu
      exact hcleared
    · rw [hseq, hlist] at hin
      have hsend : u.sendAck = s.sendAck := by rw [hframe]
      have hshift : u.shift = s.shift := by rw [hframe]
      refine driversFit_inside hfit hd hin ?_ ?_ ?_ hsend <;> simp only [hseq]
      intro htx
      rw [if_neg (by simp [htx]), hshift]
  case inr =>
    have hend' : s.seq.step + 1 = s.eventList.length := by rwa [← hseq, ← hlist]
    have hleaves := leaves_of_driversFit hfit hd hend'
    rw [(moveKeeps_of_advance hlt ha).drivers, ← hseq] at hleaves
    rcases goesOn_or_endsIn hend huphase hleaves ha with h | h
    · exact .inl ⟨h.busy.trans hbusy, h.initialised.trans hinit, h.statusValid.trans hvalid,
        fun hs => by rw [← hseq, ← hop]; exact h.second hs, h.lastOfInit, h.driversFit, h.phaseFits⟩
    · exact .inr ⟨h.busy, h.seq, h.busIdle, fun hs => by rw [← hseq, ← hinit]; exact h.initialised hs,
        fun hs => hvalid ▸ h.status hs⟩

/-- The buffers suffice after a step as before (D13). -/
theorem buffersSuffice_of_tickKeeps {s t : State} (hk : s.TickKeeps t) :
    t.buffersSuffice = s.buffersSuffice := by
  simp only [State.buffersSuffice, hk.op, hk.txLen, hk.rxLen, hk.tx, hk.rxSize]

/-- No status is valid while a command runs (R32). -/
theorem statusValid_of_busy {s : State} (hs : s.Inv) (hb : s.busy = true) : s.statusValid ≠ true :=
  fun hv => Bool.false_ne_true ((hs.status hv).1.symm.trans hb)

/-- The latches stay 0 where they are 0 by the legal states (R24). -/
theorem latches_of_tickKeeps {s t : State} (hs : s.Inv) (hk : s.TickKeeps t)
    (h : s.initialised = true ∨ s.seq.sub = .init ∧ s.seq.step = 3) :
    t.sdaLatch = false ∧ t.sclLatch = false :=
  ⟨hk.sdaLatch (hs.latches h).1, hk.sclLatch (hs.latches h).2⟩

/-- A command that goes on is in a legal state. -/
theorem inv_of_goesOn {s t : State} (hs : s.Inv) (hb : s.busy = true) (hk : s.TickKeeps t)
    (hg : s.GoesOn t) : t.Inv where
  txWf := by rw [hk.tx]; exact hs.txWf
  rxWf := hk.rxWf hs.rxWf
  idle h := absurd (h.symm.trans (hg.busy.trans hb)) Bool.false_ne_true
  running _ := by
    obtain ⟨hop4, -, -, hbufs, hsecond⟩ := (runningFits_iff s).mp (hs.running hb)
    refine (runningFits_iff t).mpr ⟨by rwa [hk.op], hg.driversFit, hg.phaseFits,
      (buffersSuffice_of_tickKeeps hk).trans hbufs, fun h => ?_⟩
    rw [hk.op]
    exact (hg.second h).elim hsecond id
  latches h := h.elim (fun hi => latches_of_tickKeeps hs hk (.inl (hg.initialised.symm.trans hi)))
    fun ⟨hsub, hstep⟩ => hg.lastOfInit hsub hstep
  initFirst _ ho := by
    rw [hg.initialised]
    exact hs.initFirst hb (by rwa [← hk.op])
  status h := absurd (hg.statusValid.symm.trans h) (statusValid_of_busy hs hb)
  traced := hk.traced hs.traced
  host := by rw [hk.inbox]; exact hs.host

/-- A command that ends leaves a legal state. -/
theorem inv_of_endsIn {s t : State} (hs : s.Inv) (hb : s.busy = true) (hk : s.TickKeeps t)
    (he : s.EndsIn t) : t.Inv where
  txWf := by rw [hk.tx]; exact hs.txWf
  rxWf := hk.rxWf hs.rxWf
  idle _ := ⟨he.busIdle, he.seq⟩
  running h := absurd (he.busy.symm.trans h) Bool.false_ne_true
  latches h := by
    refine h.elim (fun hi => latches_of_tickKeeps hs hk (he.initialised hi)) fun ⟨hsub, _⟩ => ?_
    rw [he.seq] at hsub
    cases hsub
  initFirst h := absurd (he.busy.symm.trans h) Bool.false_ne_true
  status h := ⟨he.busy, (he.status h).resolve_left (statusValid_of_busy hs hb)⟩
  traced := hk.traced hs.traced
  host := by rw [hk.inbox]; exact hs.host

/-- A step of a running command keeps the legal states. -/
theorem inv_of_ticks {s t : State} (hs : s.Inv) (h : Ticks s t) : t.Inv := by
  obtain ⟨hb, ht⟩ := h
  obtain ⟨-, hfit, hphase, -⟩ := (runningFits_iff s).mp (hs.running hb)
  rcases goesOn_or_endsIn_of_tick hfit hphase ht with hg | he
  · exact inv_of_goesOn hs hb (tickKeeps ht) hg
  · exact inv_of_endsIn hs hb (tickKeeps ht) he

/-! ### Every step keeps the legal states -/

theorem inv_of_runs {s t : State} (hs : s.Inv) (h : Runs s t) : t.Inv := by
  induction h with
  | refl => exact hs
  | tail _ hstep ih => exact inv_of_ticks ih hstep

/-- An idle engine's state stays legal where the host's moves and buffers change to legal ones (R203). -/
theorem inv_hostMove {s : State} (hs : s.Inv) (hb : s.busy = false) {tx rx : Buffer} {moves : List Input}
    (htx : tx.wf = true) (hrx : rx.wf = true) (hmoves : moves.all hostMove = true) :
    State.Inv { s with done := false, tx := tx, rx := rx, inbox := moves } where
  txWf := htx
  rxWf := hrx
  idle := hs.idle
  running h := absurd (hb.symm.trans h) Bool.false_ne_true
  latches := hs.latches
  initFirst := hs.initFirst
  status := hs.status
  traced := hs.traced
  host := hmoves

/-- A state stays legal where only the host's coming moves change, to legal ones (R203). -/
theorem inv_withInbox {s : State} (hs : s.Inv) {moves : List Input} (hmoves : moves.all hostMove = true) :
    (s.withInbox moves).Inv where
  txWf := hs.txWf
  rxWf := hs.rxWf
  idle := hs.idle
  running := hs.running
  latches := hs.latches
  initFirst := hs.initFirst
  status := hs.status
  traced := hs.traced
  host := hmoves

/-- The first position of an accepted command is a legal one (R33, R164). -/
theorem runningFits_beginCommand {s : State} {op : BitVec 3} {first : Seq}
    (hd : s.drivers = ⟨.released, .released⟩)
    (h : op = 0 ∧ first = Seq.firstOfInit ∨
      (op = 1 ∨ op = 2 ∨ op = 3) ∧ first = Seq.firstOfTransfer ∧
        State.buffersSuffice (s.beginCommand op first) = true) :
    (s.beginCommand op first).runningFits = true := by
  have hdrivers : (s.beginCommand op first).drivers = ⟨.released, .released⟩ := hd
  rcases h with ⟨rfl, rfl⟩ | ⟨hop, rfl, hbufs⟩
  · exact (runningFits_iff _).mpr
      ⟨by simp, beq_iff_eq.mpr hdrivers, rfl, by simp [State.buffersSuffice], nofun⟩
  · refine (runningFits_iff _).mpr ⟨?_, beq_iff_eq.mpr hdrivers, ?_, hbufs, nofun⟩
    · rcases hop with rfl | rfl | rfl <;> simp
    · rcases hop with rfl | rfl | rfl <;> rfl

/-- The state an accepted command begins in is legal (R164). -/
theorem inv_of_acceptInstr {i : Instr} (hc : (encode i).format = .cmd) {s a : State} (hs : s.Inv)
    (hb : s.busy = false) (ha : acceptInstr i s = .next a) : a.Inv := by
  obtain ⟨op, first, addr, txLen, rxLen, speed, rfl, hcmd⟩ := accepted_of_acceptInstr hc ha
  refine ⟨hs.txWf, hs.rxWf, nofun, fun _ => runningFits_beginCommand (hs.idle hb).1 ?_, fun h => ?_,
    fun _ ho => ?_, nofun, hs.traced, hs.host⟩
  · exact hcmd.imp id fun ⟨hop, hfirst, _, hbufs⟩ => ⟨hop, hfirst, hbufs⟩
  · refine hs.latches (.inl (h.resolve_right fun ⟨_, h3⟩ => ?_))
    rcases hcmd with ⟨-, rfl⟩ | ⟨-, rfl, -⟩ <;> cases h3
  · rcases hcmd with ⟨rfl, -⟩ | ⟨-, -, hi, -⟩
    · exact absurd rfl ho
    · exact hi

/-- A word on the command port is a command or nothing (R82, R93). -/
theorem format_of_decode_cmd {w : PortWord} {i : Instr} (hw : w.format = .cmd) (hi : decode w = .ok i) :
    (encode i).format = .cmd := by
  have hcmd : decodeCmd w = .ok i := by simpa [decode, PortWord.fits, hw] using hi
  unfold decodeCmd at hcmd
  split at hcmd <;> cases hcmd <;> rfl

/-- A called command keeps the legal states: it is accepted and then runs (R95, R164). -/
theorem inv_of_runCall {w : PortWord} (hw : w.format = .cmd) {s t : State} (hs : s.Inv)
    (hb : s.busy = false) (ht : runCall w s = .next t) : t.Inv := by
  unfold runCall at ht
  split at ht
  · next i hi =>
    have hc := format_of_decode_cmd hw hi
    obtain ⟨a, ha, hrun⟩ := runs_of_exec hc ht
    exact inv_of_runs (inv_of_acceptInstr hc hs hb ha) hrun
  · cases ht
    exact hs
  · cases ht

/-- A strobed command keeps the legal states (R164). -/
theorem inv_of_runStrobe {bits : Nat} {s t : State} (hs : s.Inv) (hb : s.busy = false)
    (ht : runStrobe bits s = .next t) : t.Inv := by
  unfold runStrobe at ht
  split at ht
  · next i hi => exact inv_of_acceptInstr (format_of_decode_cmd rfl hi) hs hb ht
  · cases ht

/-- Every move of the host between commands keeps the legal states (R171, R203). -/
theorem inv_of_idleStep {s t : State} (hs : s.Inv) (hb : s.busy = false)
    (ht : idleStep { s with done := false } = .next t) : t.Inv := by
  have hhost := hs.host
  unfold idleStep at ht
  cases hm : s.inbox with
  | nil =>
    simp only [hm] at ht
    cases ht
    exact inv_hostMove hs hb hs.txWf hs.rxWf rfl
  | cons move rest =>
    rw [hm, List.all_cons, Bool.and_eq_true] at hhost
    obtain ⟨hmove, hrest⟩ := hhost
    have hs' := inv_hostMove hs hb hs.txWf hs.rxWf hrest
    cases move <;> simp only [hm] at ht
    case call w => exact inv_of_runCall (beq_iff_eq.mp hmove) hs' hb ht
    case strobe bits => exact inv_of_runStrobe hs' hb ht
    case loadTx bytes =>
      cases ht
      exact inv_hostMove hs hb (Buffer.ofBytes_wf bytes) hs.rxWf hrest
    case giveRx size =>
      cases ht
      exact inv_hostMove hs hb hs.txWf (Buffer.empty_wf size) hrest
    case wait =>
      cases ht
      exact hs'
    case assertReset =>
      cases ht
      exact inv_applyReset hs.txWf hs.rxWf hrest

/-- A pending `rst_n` is the host's next move. -/
theorem inbox_of_resetPending {s : State} (h : s.resetPending = true) :
    ∃ rest, s.inbox = .assertReset :: rest := by
  unfold State.resetPending at h
  split at h
  · next rest hm => exact ⟨rest, hm⟩
  · cases h

theorem all_hostMove_letPass {moves : List Input} (h : moves.all hostMove = true) :
    (letPass moves).all hostMove = true := by
  unfold letPass
  split
  · exact (Bool.and_eq_true_iff.mp h).2
  · exact h

/-- Settles O41: a step is a reset, a step of a running command (`inv_of_ticks`), or a move of the host
(`inv_of_idleStep`); a called command is its acceptance and a run of such steps. -/
theorem stepsKeepLegalStates : Obligations.StepsKeepLegalStates := by
  intro s t hs ht
  cases hr : s.resetPending with
  | true =>
    obtain ⟨rest, hm⟩ := inbox_of_resetPending hr
    cases ht.symm.trans (step_reset hm)
    have hrest := hs.host
    rw [hm, List.all_cons] at hrest
    exact inv_applyReset hs.txWf hs.rxWf hrest
  | false =>
    cases hb : s.busy with
    | true =>
      rw [step_busy hb hr] at ht
      exact inv_of_ticks (inv_withInbox hs (all_hostMove_letPass hs.host)) ⟨hb, ht⟩
    | false =>
      rw [step_idle hb hr] at ht
      exact inv_of_idleStep hs hb ht

end Sys2Proof.Machine
end

section
/-! PROOFS. The family 20_memory: what a store does to a buffer (R53, R58), and which operands and buffers
the commands refuse (R51, R62, D12, D13). -/

namespace Sys2Proof.Machine

/-! ### Stores -/

theorem Buffer.read_store {b : Buffer} {i j : Nat} {v : Byte} (hb : b.wf = true) :
    (b.store i v).read j = if j = i then some v else b.read j := by
  obtain ⟨hrising, -⟩ := Bool.and_eq_true_iff.mp hb
  exact Memory.read_write hrising

/-- Settles O51: a store writes one cell of a rising list (`Memory.read_write`, `Buffer.store_wf`). -/
theorem storeWritesOneByte : Obligations.StoreWritesOneByte :=
  fun b i _ v hb => ⟨Buffer.read_store hb, Buffer.store_size b i v, Buffer.store_wf hb⟩

/-! ### Refusals -/

/-- Why WRITE is not accepted, in the order of the checks (R164, D10 to D13; entry 28). -/
theorem acceptWrite_error {addr n : Nat} {s : State} {r : Refusal} :
    acceptWrite addr n s = .error r ↔
      128 ≤ addr ∧ r = .addressTooWide ∨
      addr < 128 ∧ 65536 ≤ n ∧ r = .lengthTooWide ∨
      addr < 128 ∧ n < 65536 ∧ s.transferRefusal = some r ∨
      addr < 128 ∧ n < 65536 ∧ s.ready ∧ s.tx.holds n = false ∧ r = .txBufferShort := by
  unfold acceptWrite addrFits lenFits
  rw [← transferRefusal_eq_none, ← not_lt (a := addr), ← not_lt (a := n)]
  by_cases haddr : addr < 128
  case neg => simp [haddr, eq_comm (a := r)]
  by_cases hn : n < 65536
  case neg => simp [haddr, hn, eq_comm (a := r)]
  cases s.transferRefusal with
  | some q => simp [haddr, hn]
  | none => cases s.tx.holds n <;> simp [haddr, hn, eq_comm (a := r)]

/-- Why READ is not accepted, in the order of the checks (R164, D10 to D13; entry 28). -/
theorem acceptRead_error {addr n : Nat} {s : State} {r : Refusal} :
    acceptRead addr n s = .error r ↔
      128 ≤ addr ∧ r = .addressTooWide ∨
      addr < 128 ∧ 65536 ≤ n ∧ r = .lengthTooWide ∨
      addr < 128 ∧ n < 65536 ∧ s.transferRefusal = some r ∨
      addr < 128 ∧ n < 65536 ∧ s.ready ∧ s.rx.size < n ∧ r = .rxBufferShort := by
  unfold acceptRead addrFits lenFits
  rw [← transferRefusal_eq_none, ← not_lt (a := addr), ← not_lt (a := n)]
  by_cases haddr : addr < 128
  case neg => simp [haddr, eq_comm (a := r)]
  by_cases hn : n < 65536
  case neg => simp [haddr, hn, eq_comm (a := r)]
  cases s.transferRefusal with
  | some q => simp [haddr, hn]
  | none => by_cases hroom : n ≤ s.rx.size <;> simp [haddr, hn, hroom, ← not_le, eq_comm (a := r)]

/-- Why WRITE_READ is not accepted, in the order of the checks (R164, D10 to D13; entry 28). -/
theorem acceptWriteRead_error {addr m n : Nat} {s : State} {r : Refusal} :
    acceptWriteRead addr m n s = .error r ↔
      128 ≤ addr ∧ r = .addressTooWide ∨
      addr < 128 ∧ (65536 ≤ m ∨ 65536 ≤ n) ∧ r = .lengthTooWide ∨
      addr < 128 ∧ m < 65536 ∧ n < 65536 ∧ s.transferRefusal = some r ∨
      addr < 128 ∧ m < 65536 ∧ n < 65536 ∧ s.ready ∧ s.tx.holds m = false ∧ r = .txBufferShort ∨
      addr < 128 ∧ m < 65536 ∧ n < 65536 ∧ s.ready ∧ s.tx.holds m = true ∧ s.rx.size < n ∧
        r = .rxBufferShort := by
  unfold acceptWriteRead addrFits lenFits
  rw [← transferRefusal_eq_none, ← not_lt (a := addr), ← not_lt (a := m), ← not_lt (a := n)]
  by_cases haddr : addr < 128
  case neg => simp [haddr, eq_comm (a := r)]
  by_cases hm : m < 65536
  case neg => simp [haddr, hm, eq_comm (a := r)]
  by_cases hn : n < 65536
  case neg => simp [haddr, hm, hn, eq_comm (a := r)]
  cases s.transferRefusal with
  | some q => simp [haddr, hm, hn]
  | none =>
    cases s.tx.holds m with
    | false => simp [haddr, hm, hn, eq_comm (a := r)]
    | true => by_cases hroom : n ≤ s.rx.size <;> simp [haddr, hm, hn, hroom, ← not_le, eq_comm (a := r)]

theorem exec_write_refused {addr n : Nat} {s : State} {r : Refusal} :
    exec (.write addr n) s = .refused r ↔ acceptWrite addr n s = .error r := by
  simp only [exec, execWrite]
  cases acceptWrite addr n s <;> simp

theorem exec_read_refused {addr n : Nat} {s : State} {r : Refusal} :
    exec (.read addr n) s = .refused r ↔ acceptRead addr n s = .error r := by
  simp only [exec, execRead]
  cases acceptRead addr n s <;> simp

theorem exec_writeRead_refused {addr m n : Nat} {s : State} {r : Refusal} :
    exec (.writeRead addr m n) s = .refused r ↔ acceptWriteRead addr m n s = .error r := by
  simp only [exec, execWriteRead]
  cases acceptWriteRead addr m n s <;> simp

/-- Settles O56, clause by clause: a refusal is one of the reasons `acceptWrite_error`, `acceptRead_error` and
`acceptWriteRead_error` list; INIT has only `acceptInit_ok`'s condition. -/
theorem operandsAndBuffersAreChecked : Obligations.OperandsAndBuffersAreChecked := by
  intro s addr m n speed
  simp only [exec_write_refused, exec_read_refused, exec_writeRead_refused]
  refine ⟨fun haddr => ?address, fun haddr hm => ?length, fun hb => ?init,
    fun haddr hm hn hready hshort => ?tx, fun haddr hn hready hshort => ?rx⟩
  case address =>
    exact ⟨acceptWrite_error.mpr (.inl ⟨haddr, rfl⟩), acceptRead_error.mpr (.inl ⟨haddr, rfl⟩),
      acceptWriteRead_error.mpr (.inl ⟨haddr, rfl⟩)⟩
  case length =>
    exact ⟨acceptWrite_error.mpr (.inr (.inl ⟨haddr, hm, rfl⟩)),
      acceptRead_error.mpr (.inr (.inl ⟨haddr, hm, rfl⟩)),
      acceptWriteRead_error.mpr (.inr (.inl ⟨haddr, .inl hm, rfl⟩)),
      acceptWriteRead_error.mpr (.inr (.inl ⟨haddr, .inr hm, rfl⟩))⟩
  case init =>
    exact ⟨_, exec_init_next.mpr ⟨_, acceptInit_ok.mpr ⟨hb, rfl⟩, rfl⟩⟩
  case tx =>
    exact ⟨acceptWrite_error.mpr (.inr (.inr (.inr ⟨haddr, hm, hready, hshort, rfl⟩))),
      acceptWriteRead_error.mpr (.inr (.inr (.inr (.inl ⟨haddr, hm, hn, hready, hshort, rfl⟩))))⟩
  case rx =>
    exact ⟨acceptRead_error.mpr (.inr (.inr (.inr ⟨haddr, hn, hready, hshort, rfl⟩))), fun hm hheld =>
      acceptWriteRead_error.mpr (.inr (.inr (.inr (.inr ⟨haddr, hm, hn, hready, hheld, hshort, rfl⟩))))⟩

end Sys2Proof.Machine
end

section
/-! PROOFS. The family 30_encoding, the command side: what each port's decoder can answer, and that decoder
and encoder agree (R80 to R84, R91 to R93). -/

namespace Sys2Proof.Machine

/-! ### Decoding the encoder's words -/

/-- The family `Laws.RoundTrip`, put together. -/
theorem decode_encode {i : Instr} (hw : i.wellFormed = true) : decode (encode i) = .ok i := by
  cases i with
  | init | write | read | writeRead => exact decode_encode_cmd rfl hw
  | start => exact Laws.RoundTrip.start hw
  | stop => exact Laws.RoundTrip.stop hw
  | txbyte => exact Laws.RoundTrip.txbyte hw
  | rxbyte => exact Laws.RoundTrip.rxbyte hw
  | sdaLow => exact Laws.RoundTrip.sdaLow hw
  | sdaRelease => exact Laws.RoundTrip.sdaRelease hw
  | sclLow => exact Laws.RoundTrip.sclLow hw
  | sclRelease => exact Laws.RoundTrip.sclRelease hw
  | sdaSample => exact Laws.RoundTrip.sdaSample hw
  | delayQuarter => exact Laws.RoundTrip.delayQuarter hw
  | delayHalf => exact Laws.RoundTrip.delayHalf hw
  | delayRecovery => exact Laws.RoundTrip.delayRecovery hw
  | delaySettle => exact Laws.RoundTrip.delaySettle hw
  | latchClear => exact Laws.RoundTrip.latchClear hw
  | addrWrite addr => exact Laws.RoundTrip.addrWrite addr hw
  | addrRead addr => exact Laws.RoundTrip.addrRead addr hw
  | dataByte data => exact Laws.RoundTrip.dataByte data hw
  | ack => exact Laws.RoundTrip.ack hw
  | nack => exact Laws.RoundTrip.nack hw
  | statusOk => exact Laws.RoundTrip.statusOk hw
  | statusError => exact Laws.RoundTrip.statusError hw
  | statusTimeout => exact Laws.RoundTrip.statusTimeout hw
  | statusNack => exact Laws.RoundTrip.statusNack hw

/-- Settles O47, by `decode_encode`. -/
theorem decodeInvertsEncode : Obligations.DecodeInvertsEncode :=
  fun _ hw => decode_encode hw

/-- A word that is the encoder's word of a well-formed instruction decodes to it. -/
theorem decode_of_eq_encode {w : PortWord} {i : Instr} (h : w = encode i) (hw : i.wellFormed = true) :
    decode w = .ok i := by
  rw [h]
  exact decode_encode hw

/-- Settles O50: each word is the one the encoder writes for its instruction. -/
theorem wordsOfTheSpecDecode : Obligations.WordsOfTheSpecDecode := by
  unfold Obligations.WordsOfTheSpecDecode
  split_ands <;> exact decode_of_eq_encode rfl rfl

/-! ### The port of a decoded word -/

/-- A word on the command port always fits (R93, entry 31). -/
theorem decode_cmd {w : PortWord} (hf : w.format = .cmd) : decode w = decodeCmd w := by
  simp [decode, PortWord.fits, hf]

theorem decode_pin {w : PortWord} (hf : w.format = .pin) (hbits : w.bits < 64) : decode w = decodePin w := by
  have hfits : w.fits = true := (PortWord.fits_iff w).mpr (.inr (by rw [hf]; exact hbits))
  simp [decode, hfits, hf]

theorem fits_of_decode {w : PortWord} {i : Instr} (h : decode w = .ok i) : w.fits = true := by
  by_contra hfits
  simp [decode, hfits] at h

theorem format_of_decodeSeq {w : PortWord} {i : Instr} (h : decodeSeq w = .ok i) : (encode i).format = .seq := by
  unfold decodeSeq at h
  split at h <;> cases h <;> rfl

theorem format_of_decodeDelay {kind : BitVec 3} {i : Instr} (h : decodeDelay kind = .ok i) :
    (encode i).format = .pin := by
  unfold decodeDelay at h
  split at h <;> cases h <;> rfl

theorem format_of_decodePin {w : PortWord} {i : Instr} (h : decodePin w = .ok i) : (encode i).format = .pin := by
  unfold decodePin at h
  split at h
  case h_6 => exact format_of_decodeDelay h
  all_goals cases h <;> rfl

theorem format_of_decodeWireAddr {w : PortWord} {i : Instr} (h : decodeWireAddr w = .ok i) :
    (encode i).format = .wireAddr := by
  unfold decodeWireAddr at h
  split at h <;> cases h <;> rfl

theorem format_of_decodeWireAck {w : PortWord} {i : Instr} (h : decodeWireAck w = .ok i) :
    (encode i).format = .wireAck := by
  unfold decodeWireAck at h
  split at h <;> cases h <;> rfl

theorem format_of_decodeStatus {w : PortWord} {i : Instr} (h : decodeStatus w = .ok i) :
    (encode i).format = .status := by
  unfold decodeStatus at h
  split at h <;> cases h <;> rfl

/-- An instruction's own word stands on the port it was read from (R80). -/
theorem format_of_decode {w : PortWord} {i : Instr} (h : decode w = .ok i) : (encode i).format = w.format := by
  have hdec := h
  rw [decode, if_pos (fits_of_decode h)] at hdec
  obtain ⟨f, bits⟩ := w
  cases f with
  | cmd => exact format_of_decode_cmd rfl h
  | seq => exact format_of_decodeSeq hdec
  | pin => exact format_of_decodePin hdec
  | wireAddr => exact format_of_decodeWireAddr hdec
  | wireData => cases hdec; rfl
  | wireAck => exact format_of_decodeWireAck hdec
  | status => exact format_of_decodeStatus hdec

/-! ### The operands of a decoded word -/

theorem addrFits_toNat (a : Addr) : addrFits a.toNat = true := decide_eq_true a.isLt

theorem lenFits_toNat (n : Len) : lenFits n.toNat = true := decide_eq_true n.isLt

/-- The fields of a command word have the widths of the operands (R81, R83). -/
theorem wellFormed_of_decodeCmd {w : PortWord} {i : Instr} (h : decodeCmd w = .ok i) : i.wellFormed = true := by
  unfold decodeCmd at h
  split at h <;> cases h <;> simp only [Instr.wellFormed, addrFits_toNat, lenFits_toNat, Bool.and_self]

/-- Only a command has an operand that can be out of its range (R91). -/
theorem wellFormed_of_format_ne_cmd {i : Instr} (h : (encode i).format ≠ .cmd) : i.wellFormed = true := by
  cases i with
  | init | write | read | writeRead => exact absurd rfl h
  | _ => rfl

theorem wellFormed_of_decode {w : PortWord} {i : Instr} (h : decode w = .ok i) : i.wellFormed = true := by
  by_cases hf : w.format = .cmd
  · rw [decode_cmd hf] at h
    exact wellFormed_of_decodeCmd h
  · exact wellFormed_of_format_ne_cmd (by rwa [format_of_decode h])

/-- Settles O48: the operands by `wellFormed_of_decode`, the port by `format_of_decode`, the rest is
`decode_encode`. -/
theorem decodedInstructionsAreWellFormed : Obligations.DecodedInstructionsAreWellFormed := by
  intro w i h
  have hw := wellFormed_of_decode h
  exact ⟨hw, format_of_decode h, decode_encode hw⟩

/-! ### Reserved codes -/

theorem decodeCmd_reserved {w : PortWord} (h : 4 ≤ w.cmdOp.toNat) :
    decodeCmd w = .error (.reservedOperation w.cmdOp) := by
  unfold decodeCmd
  split
  case h_5 => rfl
  all_goals omega

theorem decodeDelay_reserved {kind : BitVec 3} (h : 5 ≤ kind.toNat) :
    decodeDelay kind = .error (.reservedDelayKind kind) := by
  unfold decodeDelay
  split
  case h_6 => rfl
  all_goals omega

theorem decodePin_reserved {w : PortWord} (h : w.pinCode = 0b111#3) : decodePin w = .error .reservedPinCode := by
  rw [decodePin, h]
  rfl

theorem decodePin_delay {w : PortWord} (h : w.pinCode = 0b101#3) : decodePin w = decodeDelay w.dlyKind := by
  rw [decodePin, h]
  rfl

/-! ### Calls -/

/-- An idle engine whose next move is a call runs the called word (R95). -/
theorem step_of_call {s : State} {w : PortWord} {rest : List Input} (hb : s.busy = false)
    (hm : s.inbox = .call w :: rest) : step s = runCall w { s with done := false, inbox := rest } := by
  have h := step_call (w := w) (rest := rest) hb
  rwa [← hm] at h

theorem runCall_ok {w : PortWord} {i : Instr} (h : decode w = .ok i) (s : State) : runCall w s = exec i s := by
  rw [runCall, h]

theorem runCall_reservedOperation {w : PortWord} {op : BitVec 3} (h : decode w = .error (.reservedOperation op))
    (s : State) : runCall w s = .refused (.undecodable (.reservedOperation op)) := by
  rw [runCall, h]

theorem runCall_padSettling {w : PortWord} (h : decode w = .error .padSettlingAlone) (s : State) :
    runCall w s = .next s := by
  rw [runCall, h]

/-- Settles O49: each reserved code falls in the last arm of its decoder, and the call of a word without an
instruction is refused. -/
theorem reservedCodesAreRefused : Obligations.ReservedCodesAreRefused := by
  intro w s rest
  have hop (hf : w.format = .cmd) (h : 4 ≤ w.cmdOp.toNat) : decode w = .error (.reservedOperation w.cmdOp) := by
    rw [decode_cmd hf, decodeCmd_reserved h]
  refine ⟨hop, fun hf hbits hcode => ?code, fun hf hbits hcode hkind => ?kind, fun hb hm hf h => ?call⟩
  case code => rw [decode_pin hf hbits, decodePin_reserved hcode]
  case kind => rw [decode_pin hf hbits, decodePin_delay hcode, decodeDelay_reserved hkind]
  case call => rw [step_of_call hb hm, runCall_reservedOperation (hop hf h)]

/-- Settles O35, by `step_of_call`. -/
theorem stepRunsTheCalledInstruction : Obligations.StepRunsTheCalledInstruction := by
  intro s w i rest hb hm hi
  rw [step_of_call hb hm, runCall_ok hi]

/-- Settles O58: kind 2 decodes to no instruction (`decodeDelay`), and its call is a wait
(`runCall_padSettling`). -/
theorem padSettlingIsAWaitWithoutEvent : Obligations.PadSettlingIsAWaitWithoutEvent := by
  intro w s rest hf hbits hcode hkind hb hm
  have hdec : decode w = .error .padSettlingAlone := by
    rw [decode_pin hf hbits, decodePin_delay hcode, hkind]
    rfl
  rw [step_of_call hb hm, runCall_padSettling hdec]

end Sys2Proof.Machine
end

section
/-! PROOFS. The family 30_encoding, the wire side: what the address byte and SEND_ACK are (R85, R86), and how
the reader of L2 goes through a byte sequence and a frame (R88 to R90, R94). -/

namespace Sys2Proof.Machine

/-! ### The address byte and the acknowledge flag -/

/-- The wire order of the address byte (R55, R85). -/
theorem bitsOf_addrByte (a : Addr) (rw : Bit) :
    bitsOf (addrByte a rw) =
      [a.getLsbD 6, a.getLsbD 5, a.getLsbD 4, a.getLsbD 3, a.getLsbD 2, a.getLsbD 1, a.getLsbD 0, rw] := by
  simp only [bitsOf, addrByte, BitVec.getLsbD_concat_succ, BitVec.getLsbD_concat_zero]

/-- Settles O30: the address byte is a `BitVec.concat`, whose value and bits the library knows. -/
theorem addressByteIsAddressThenDirection : Obligations.AddressByteIsAddressThenDirection := by
  intro a rw
  refine ⟨?value, BitVec.getLsbD_concat_zero, ?address, bitsOf_addrByte a rw⟩
  case value => rw [addrByte, BitVec.toNat_concat, Nat.mul_comm]
  case address =>
    ext i hi
    simp [addrByte, Nat.add_comm 1 i, BitVec.getLsbD_concat_succ, hi]

/-- Settles O52, by `sendAckFor_eq`: index and length are below `2 ^ 16`. -/
theorem everyByteButTheLastIsAcknowledged : Obligations.EveryByteButTheLastIsAcknowledged := by
  intro i len hlen hi
  have hi' : (BitVec.ofNat 16 i).toNat = i := Nat.mod_eq_of_lt (by omega)
  have hlen' : (BitVec.ofNat 16 len).toNat = len := Nat.mod_eq_of_lt (by omega)
  rw [sendAckFor_eq (by rwa [hi', hlen']), hi', hlen']

/-- Settles O31: each format is a `sendByte` of its byte (`sendByte_eq`). -/
theorem wireBytesAreTransmitted : Obligations.WireBytesAreTransmitted := by
  intro s i b hi
  have hsend : exec i s = .next (s.sendByte b) := by
    obtain ⟨a, rfl, rfl⟩ | ⟨a, rfl, rfl⟩ | rfl := hi <;> rfl
  rw [hsend, sendByte_eq]

/-! ### Reading a list of events -/

/-- From `r` the reader takes the events to the symbols and ends in `r'`. -/
structure WireReader.Reads (r : WireReader) (es : List Event) (syms : List Sym) (r' : WireReader) : Prop where
  symbols : l2From r es = syms
  reader : r.readAll es = r'

theorem WireReader.Reads.append {r₁ r₂ r₃ : WireReader} {es fs : List Event} {xs ys : List Sym}
    (h₁ : r₁.Reads es xs r₂) (h₂ : r₂.Reads fs ys r₃) : r₁.Reads (es ++ fs) (xs ++ ys) r₃ where
  symbols := by rw [l2From_append, h₁.reader, h₁.symbols, h₂.symbols]
  reader := by rw [WireReader.readAll_append, h₁.reader, h₂.reader]

/-- Parts that each lead from `r` back to `r` are read one after the other. -/
theorem WireReader.Reads.flatMap {α : Type} {r : WireReader} {events : α → List Event} {syms : α → List Sym}
    (h : ∀ x, r.Reads (events x) (syms x) r) (xs : List α) : r.Reads (xs.flatMap events) (xs.flatMap syms) r := by
  induction xs with
  | nil => exact ⟨rfl, rfl⟩
  | cons x xs ih => exact (h x).append ih

/-! ### Byte sequences -/

/-- Outside a slot, with SCL low (R88). -/
def WireReader.low (sda : Drv) : WireReader := ⟨⟨.drivenLow, sda⟩, none⟩

/-- Inside the slot of a transmitted bit, after TXBIT (R140). -/
def WireReader.sending (b : Bit) : WireReader := ⟨⟨.released, driverOf b⟩, some none⟩

/-- Inside the slot of a received bit, after RXBIT (R144). -/
def WireReader.receiving (b : Bit) : WireReader := ⟨⟨.released, .released⟩, some (some b)⟩

/-- A slot closes at the first event of what follows it (R88), so each bit's events give the value of the
slot before, and those of the acknowledge bit two values. -/
theorem WireReader.reads_slots {inSlot : Bit → WireReader} {bitEvents : Bit → List Event} {ackEvents : List Event}
    {ack : Bit} {r' : WireReader} (hbit : ∀ a b, (inSlot a).Reads (bitEvents b) [.bit a] (inSlot b))
    (hack : ∀ a, (inSlot a).Reads ackEvents [.bit a, .bit ack] r') (a : Bit) (bs : List Bit) :
    (inSlot a).Reads (bs.flatMap bitEvents ++ ackEvents) ((a :: bs ++ [ack]).map Sym.bit) r' := by
  induction bs generalizing a with
  | nil => exact hack a
  | cons b bs ih =>
    rw [List.flatMap_cons, List.append_assoc]
    exact (hbit a b).append (ih b)

theorem WireReader.low_reads_txBit (sda : Drv) (b : Bit) :
    (low sda).Reads (txBitEvents b) [] (sending b) := by
  cases sda <;> cases b <;> exact ⟨rfl, rfl⟩

theorem WireReader.sending_reads_txBit (a b : Bit) : (sending a).Reads (txBitEvents b) [.bit a] (sending b) := by
  cases a <;> cases b <;> exact ⟨rfl, rfl⟩

theorem WireReader.sending_reads_txAck (a ack : Bit) :
    (sending a).Reads (txAckEvents ack) [.bit a, .bit ack] (low .released) := by
  cases a <;> exact ⟨rfl, rfl⟩

theorem WireReader.low_reads_rxBit (b : Bit) : (low .released).Reads (rxBitEvents b) [] (receiving b) := ⟨rfl, rfl⟩

theorem WireReader.receiving_reads_rxBit (a b : Bit) :
    (receiving a).Reads (rxBitEvents b) [.bit a] (receiving b) := ⟨rfl, rfl⟩

theorem WireReader.receiving_reads_rxAck (a sendAck : Bit) :
    (receiving a).Reads (rxAckEvents sendAck) [.bit a, .bit (!sendAck)] (low .released) := by
  cases sendAck <;> exact ⟨rfl, rfl⟩

/-- TXBYTE entered with SCL low (R142, R88). -/
theorem WireReader.low_reads_txByte (sda : Drv) (b : Byte) (ack : Bit) :
    (low sda).Reads (txByteEvents b ack) (groupSyms b ack) (low .released) :=
  (low_reads_txBit sda (b.getLsbD 7)).append
    (reads_slots sending_reads_txBit (fun a => sending_reads_txAck a ack) _ ((bitsOf b).drop 1))

/-- RXBYTE entered with SCL low (R146, R88). -/
theorem WireReader.low_reads_rxByte (sda : Drv) (b : Byte) (sendAck : Bit) :
    (low sda).Reads (rxByteEvents b sendAck) (groupSyms b (!sendAck)) (low .released) := by
  have hrelease : (low sda).Reads [.sda1] [] (low .released) := by
    cases sda <;> exact ⟨rfl, rfl⟩
  exact (hrelease.append (low_reads_rxBit (b.getLsbD 7))).append
    (reads_slots receiving_reads_rxBit (fun a => receiving_reads_rxAck a sendAck) _ ((bitsOf b).drop 1))

theorem length_groupSyms (b : Byte) (ack : Bit) : (groupSyms b ack).length = 9 := rfl

/-- TXBIT releases SCL once (R140). -/
theorem count_scl1_txBitEvents (b : Bit) : (txBitEvents b).count .scl1 = 1 := by cases b <;> rfl

/-- RXBIT releases SCL once (R144). -/
theorem count_scl1_rxBitEvents (b : Bit) : (rxBitEvents b).count .scl1 = 1 := by cases b <;> rfl

/-- TXACK releases SCL once (R141). -/
theorem count_scl1_txAckEvents (a : Bit) : (txAckEvents a).count .scl1 = 1 := by cases a <;> rfl

/-- RXACK releases SCL once (R145). -/
theorem count_scl1_rxAckEvents (sendAck : Bit) : (rxAckEvents sendAck).count .scl1 = 1 := by cases sendAck <;> rfl

theorem count_scl1_flatMap {bitEvents : Bit → List Event} (h : ∀ b, (bitEvents b).count .scl1 = 1)
    (bs : List Bit) : (bs.flatMap bitEvents).count .scl1 = bs.length := by
  induction bs with
  | nil => rfl
  | cons b bs ih => rw [List.flatMap_cons, List.count_append, h, ih, List.length_cons, Nat.add_comm]

theorem count_scl1_txByteEvents (b : Byte) (a : Bit) : (txByteEvents b a).count .scl1 = 9 := by
  rw [txByteEvents, List.count_append, count_scl1_flatMap count_scl1_txBitEvents, count_scl1_txAckEvents]
  rfl

theorem count_scl1_rxByteEvents (b : Byte) (sendAck : Bit) : (rxByteEvents b sendAck).count .scl1 = 9 := by
  rw [rxByteEvents, List.cons_append, List.count_cons_of_ne (by decide), List.count_append,
    count_scl1_flatMap count_scl1_rxBitEvents, count_scl1_rxAckEvents]
  rfl

/-- Settles O13, by `low_reads_txByte` and `low_reads_rxByte`. -/
theorem byteSequencesAreNineSlots : Obligations.ByteSequencesAreNineSlots := by
  intro b a sda
  have htx := WireReader.low_reads_txByte sda b a
  have hrx := WireReader.low_reads_rxByte sda b a
  exact ⟨htx.symbols, htx.reader, hrx.symbols, hrx.reader, count_scl1_txByteEvents b a,
    count_scl1_rxByteEvents b a, length_groupSyms b a⟩

/-! ### Frames -/

/-- START on an idle bus (R130, R89). -/
theorem WireReader.idle_reads_start : idle.Reads startEvents [.s] (low .drivenLow) := ⟨rfl, rfl⟩

/-- STOP after a byte (R131, R89): the high phase it begins in is no slot. -/
theorem WireReader.low_reads_stop : (low .released).Reads stopEvents [.p] idle := ⟨rfl, rfl⟩

/-- A frame whose groups are read as `groups` (R90). -/
theorem WireReader.idle_reads_frame {es : List Event} {groups : List (Byte × Bit)}
    (h : (low .drivenLow).Reads es (groups.flatMap fun g => groupSyms g.1 g.2) (low .released)) :
    idle.Reads (startEvents ++ es ++ stopEvents) (frameSyms groups) idle :=
  (idle_reads_start.append h).append low_reads_stop

theorem WireReader.low_reads_sent (gs : List (Byte × Bit)) :
    (low .released).Reads (sentEvents gs) (gs.flatMap fun g => groupSyms g.1 g.2) (low .released) :=
  have hgroup (g : Byte × Bit) := low_reads_txByte .released g.1 g.2
  .flatMap hgroup gs

theorem WireReader.low_reads_received (gs : List (Byte × Bit)) :
    (low .released).Reads (receivedEvents gs) (gs.flatMap fun g => groupSyms g.1 g.2) (low .released) := by
  have hgroup (g : Byte × Bit) := low_reads_rxByte .released g.1 (!g.2)
  simp only [Bool.not_not] at hgroup
  exact .flatMap hgroup gs

/-- The write frame (R161, R90): its first group is entered with SDA low, each later one with SDA released. -/
theorem WireReader.idle_reads_writeFrame (addr : Addr) (payload : List Byte) (acks : Nat → Bit) :
    idle.Reads (writeFrameEvents addr payload acks) (frameSyms (writeGroups addr payload acks)) idle :=
  idle_reads_frame ((low_reads_txByte .drivenLow (addrByte addr false) (acks 0)).append (low_reads_sent _))

/-- The read frame (R162, R90). -/
theorem WireReader.idle_reads_readFrame (addr : Addr) (n : Nat) (f : Nat → Bit) :
    idle.Reads (readFrameEvents addr n f) (frameSyms (readGroups addr n f)) idle :=
  idle_reads_frame ((low_reads_txByte .drivenLow _ _).append (low_reads_received _))

/-- The wait between the two frames of a WRITE_READ (R163) is no symbol. -/
theorem WireReader.idle_reads_settle : idle.Reads [.ds] [] idle := ⟨rfl, rfl⟩

/-- Two symbols and nine for each group (R94). -/
theorem length_frameSyms (groups : List (Byte × Bit)) : (frameSyms groups).length = 2 + 9 * groups.length := by
  have hgroups : (groups.flatMap fun g => groupSyms g.1 g.2).length = 9 * groups.length := by
    simp [List.length_flatMap, length_groupSyms, Nat.mul_comm]
  simp only [frameSyms, List.length_append, List.length_cons, List.length_nil, hgroups]
  omega

theorem length_readDataGroups (n : Nat) (f : Nat → Bit) : (readDataGroups n f).length = if f 0 then 0 else n := by
  unfold readDataGroups
  split
  · rfl
  · rw [receivedGroups, List.length_map, List.length_zipIdx, length_receivedBytes]

/-- Settles O20: each frame leads the reader from the idle bus back to it, so frames are read one after the
other. -/
theorem framesReadAsStartGroupsStop : Obligations.FramesReadAsStartGroupsStop := by
  intro addr payload n f g
  have hwrite := WireReader.idle_reads_writeFrame addr payload f
  have hboth := hwrite.append (WireReader.idle_reads_settle.append (WireReader.idle_reads_readFrame addr n g))
  exact ⟨hwrite.symbols, (WireReader.idle_reads_readFrame addr n f).symbols, hboth.symbols, length_frameSyms,
    length_readDataGroups n f⟩

end Sys2Proof.Machine
end

section
/-! PROOFS. The family 40_pin_primitives: what each pin primitive does to the state and to L1 (R110 to R119),
and where SEQ takes its samples (R114, R236). -/

namespace Sys2Proof.Machine

/-! ### A primitive that asks for what is there -/

/-- SDA_LOW on a pin already low only adds its event (R110). -/
theorem sdaLow_of_drivenLow {s : State} (hd : s.sdaDrv = .drivenLow) (hl : s.sdaLatch = false) :
    s.sdaLow = s.emit .sda0 := by
  rw [State.sdaLow, ← hd, ← hl]

/-- SCL_LOW on a pin already low only adds its event (R111). -/
theorem sclLow_of_drivenLow {s : State} (hd : s.sclDrv = .drivenLow) (hl : s.sclLatch = false) :
    s.sclLow = s.emit .scl0 := by
  rw [State.sclLow, ← hd, ← hl]

/-- SDA_RELEASE on a released pin only adds its event (R112). -/
theorem sdaRelease_of_released {s : State} (hd : s.sdaDrv = .released) : s.sdaRelease = s.emit .sda1 := by
  rw [State.sdaRelease, ← hd]

/-- SCL_RELEASE on a released pin only adds its event (R113). -/
theorem sclRelease_of_released {s : State} (hd : s.sclDrv = .released) : s.sclRelease = s.emit .scl1 := by
  rw [State.sclRelease, ← hd]

theorem Drivers.after_sda0 {d : Drivers} (h : d.sda = .drivenLow) : d.after .sda0 = d := by
  rw [Drivers.after, ← h]

theorem Drivers.after_scl0 {d : Drivers} (h : d.scl = .drivenLow) : d.after .scl0 = d := by
  rw [Drivers.after, ← h]

/-- A pin primitive run twice leaves the drivers and latches of the first run (R117). -/
theorem pins_exec_pin_twice {i : Instr} (h : i ∈ pinPrimitives) (s : State) :
    ∃ t u, exec i s = .next t ∧ exec i t = .next u ∧ u.pins = t.pins := by
  simp only [pinPrimitives, List.mem_cons, List.not_mem_nil, or_false] at h
  rcases h with rfl | rfl | rfl | rfl | rfl | rfl | rfl | rfl | rfl | rfl <;> exact ⟨_, _, rfl, rfl, rfl⟩

/-! ### The driver trace -/

/-- L1 leaves out an event that changes no driver (R12). -/
theorem l1From_cons_of_after_eq {d : Drivers} {e : Event} (h : d.after e = d) (es : List Event) :
    l1From d (e :: es) = l1From d es := if_pos h

/-- L1 keeps an event that changes a driver (R12). -/
theorem l1From_cons_of_after_ne {d : Drivers} {e : Event} (h : d.after e ≠ d) (es : List Event) :
    l1From d (e :: es) = e :: l1From (d.after e) es := if_neg h

theorem l1From_append (d : Drivers) (xs ys : List Event) :
    l1From d (xs ++ ys) = l1From d xs ++ l1From (d.afterAll xs) ys := by
  induction xs generalizing d with
  | nil => rfl
  | cons x xs ih =>
    by_cases h : d.after x = d
    · rw [List.cons_append, l1From_cons_of_after_eq h, l1From_cons_of_after_eq h, ih, Drivers.afterAll, h]
    · rw [List.cons_append, l1From_cons_of_after_ne h, l1From_cons_of_after_ne h, ih, Drivers.afterAll,
        List.cons_append]

/-! ### Glitches and samples -/

/-- A released pad whose latch holds 1 glitches where SDA_LOW pulls it (R229). -/
theorem glitches_sdaLow {s : State} (hd : s.sdaDrv = .released) (hl : s.sdaLatch = true) :
    glitches s s.sdaLow = true := by
  simp [glitches, hd, hl]

/-- The answer State lists next is the one to come (R59). -/
theorem upcoming_zero_of_answers {s : State} {b : Bit} {rest : List Bit} (h : s.answers = b :: rest) :
    s.upcoming 0 = b := by
  simp [State.upcoming, h]

theorem primitiveFor_ne_sdaSample (b : Bit) : .sdaSample ≠ primitiveFor b := by
  cases b <;> nofun

/-- SEQ samples at one step of the acknowledge clock and at one of a received bit (R141, R144). -/
theorem position_of_sdaSample {s : State} (h : s.nextPrimitive = some .sdaSample) :
    (s.seq.sub = .txack ∧ s.seq.step = 5) ∨ (s.seq.sub = .rxbit ∧ s.seq.step = 4) := by
  have hmem : .sdaSample ∈ s.eventList := List.mem_of_getElem? h
  unfold State.nextPrimitive at h
  unfold State.eventList at h hmem
  cases hsub : s.seq.sub <;> simp only [hsub] at h hmem
  case txack =>
    generalize s.seq.step = k at h ⊢
    rcases k with _ | _ | _ | _ | _ | _ | _ | _ | n <;> simp at h ⊢
  case rxbit =>
    generalize s.seq.step = k at h ⊢
    rcases k with _ | _ | _ | _ | _ | _ | n <;> simp at h ⊢
  all_goals simp [primitiveFor_ne_sdaSample] at hmem

/-- At both sampling positions the tables have both drivers released (R114, R236). -/
theorem busIdle_at_sdaSample {s : State} (hfit : s.driversFit = true)
    (hp : s.nextPrimitive = some .sdaSample) : s.busIdle := by
  unfold State.driversFit at hfit
  rcases position_of_sdaSample hp with ⟨hsub, hstep⟩ | ⟨hsub, hstep⟩ <;> rw [hsub, hstep] at hfit <;>
    exact beq_iff_eq.mp hfit

/-! ### The obligations -/

/-- Settles O43: a running command is at a legal position, so `busIdle_at_sdaSample` applies. -/
theorem samplesAreTakenWithLinesReleased : Obligations.SamplesAreTakenWithLinesReleased := by
  intro s hs hb hp
  obtain ⟨-, hfit, -⟩ := (runningFits_iff s).mp (hs.running hb)
  exact busIdle_at_sdaSample hfit hp

/-- Settles O1: the call is `State.sdaLow`. -/
theorem sdaLowPullsSdaLow : Obligations.SdaLowPullsSdaLow := by
  intro s
  refine ⟨Laws.RoundTrip.sdaLow rfl, rfl, lineLevel_drivenLow, fun hd => ?absent, fun hd hl => ?idle,
    fun t ht hd hl => ?glitch⟩
  case absent => exact l1From_cons_of_after_eq (Drivers.after_sda0 hd) []
  case idle => exact congrArg _ (sdaLow_of_drivenLow hd hl)
  case glitch =>
    cases ht
    exact glitches_sdaLow hd hl

/-- Settles O2: the call is `State.sclLow`. -/
theorem sclLowPullsSclLow : Obligations.SclLowPullsSclLow := by
  intro s
  refine ⟨Laws.RoundTrip.sclLow rfl, rfl, lineLevel_drivenLow, fun hd => ?absent, fun hd hl => ?idle⟩
  case absent => exact l1From_cons_of_after_eq (Drivers.after_scl0 hd) []
  case idle => exact congrArg _ (sclLow_of_drivenLow hd hl)

/-- Settles O3: the call is `State.sdaRelease`. -/
theorem sdaReleaseFloatsSda : Obligations.SdaReleaseFloatsSda := fun _ =>
  ⟨Laws.RoundTrip.sdaRelease rfl, rfl, lineLevel_released,
    fun hd => congrArg _ (sdaRelease_of_released hd)⟩

/-- Settles O4: the call is `State.sclRelease`. -/
theorem sclReleaseFloatsScl : Obligations.SclReleaseFloatsScl := fun _ =>
  ⟨Laws.RoundTrip.sclRelease rfl, rfl, fun hd => congrArg _ (sclRelease_of_released hd)⟩

/-- Settles O5: the line with SDA released is what the environment answers (`lineLevel_released`). -/
theorem sdaSampleReadsTheLine : Obligations.SdaSampleReadsTheLine := by
  intro s
  refine ⟨Laws.RoundTrip.sdaSample rfl, ?state, fun _ _ => upcoming_zero_of_answers⟩
  case state =>
    rw [List.drop_one]
    rfl

/-- Settles O6: each delay is one `State.emit`, and each time is its bound and a free excess. -/
theorem delaysChangeNoState : Obligations.DelaysChangeNoState := fun _ =>
  ⟨Laws.RoundTrip.delayQuarter rfl, Laws.RoundTrip.delayHalf rfl,
    Laws.RoundTrip.delayRecovery rfl, Laws.RoundTrip.delaySettle rfl, rfl, rfl, rfl, rfl, rfl, rfl,
    Nat.le_add_right _ _, Nat.le_add_right _ _⟩

/-- Settles O7: no driver changes with `LC`, so L1 leaves it out. -/
theorem latchClearZeroesBothLatches : Obligations.LatchClearZeroesBothLatches := fun _ =>
  ⟨Laws.RoundTrip.latchClear rfl, rfl, l1From_cons_of_after_eq rfl []⟩

/-- Settles O8: `pins_exec_pin_twice`, and L1 reads appended traces one after the other (`l1From_append`). -/
theorem pinPrimitivesAreIdempotent : Obligations.PinPrimitivesAreIdempotent := by
  refine ⟨fun _ hi s => pins_exec_pin_twice hi s, fun d e es fs h => ?_⟩
  rw [l1From_append, l1From_append, l1From_cons_of_after_eq h]

end Sys2Proof.Machine
end

section
/-! PROOFS. The family 41_bus_conditions: what START and STOP do to the state, and how L1 and L2 read their
events (R130, R131). -/

namespace Sys2Proof.Machine

/-! ### The calls -/

/-- START writes both drivers, both latches and the trace (R130). -/
theorem exec_start (s : State) :
    exec .start s = .next
      { s with sdaLatch := false, sdaDrv := .drivenLow, sclLatch := false, sclDrv := .drivenLow,
               trace := s.trace ++ startEvents } :=
  congrArg Host.Outcome.next (startCond_eq s)

/-- STOP writes both drivers, SDA_LATCH and the trace, and leaves SCL_LATCH (R131). -/
theorem exec_stop (s : State) :
    exec .stop s = .next
      { s with sdaLatch := false, sdaDrv := .released, sclDrv := .released, trace := s.trace ++ stopEvents } :=
  congrArg Host.Outcome.next (stopCond_eq s)

/-! ### The wire -/

/-- L1 of START on an idle bus: the delay is left out (R12, R130). -/
theorem l1From_idle_startEvents : l1From Drivers.idle startEvents = [.sda0, .scl0] := by decide

/-- L1 of STOP after a byte: the two delays are left out (R12, R131). -/
theorem l1From_low_stopEvents : l1From ⟨.drivenLow, .released⟩ stopEvents = [.sda0, .scl1, .sda1] := by decide

/-- With SCL low, SDA may fall, or be low already, without a symbol (R89). -/
theorem WireReader.low_reads_sda0 (sda : Drv) : (low sda).Reads [.sda0] [] (low .drivenLow) := by
  cases sda <;> exact ⟨rfl, rfl⟩

/-- STOP entered with SCL low: its own `SDA0` is no symbol (decision D5), and the release of SDA in the
high phase that follows is `P` (R131, R89). -/
theorem WireReader.low_reads_stopEvents (sda : Drv) : (low sda).Reads stopEvents [.p] idle := by
  have hrise : (low .drivenLow).Reads [.d1, .scl1, .d1, .sda1] [.p] idle := ⟨rfl, rfl⟩
  exact (low_reads_sda0 sda).append hrise

/-! ### The obligations -/

/-- Settles O9: the call is `exec_start`, and the wire is read by `l1From_idle_startEvents` and
`idle_reads_start`. -/
theorem startPullsSdaThenScl : Obligations.StartPullsSdaThenScl := fun s =>
  ⟨Laws.RoundTrip.start rfl, exec_start s, l1From_idle_startEvents, WireReader.idle_reads_start.symbols⟩

/-- Settles O10: the call is `exec_stop`, and the wire is read by `low_reads_stopEvents` and
`l1From_low_stopEvents`. -/
theorem stopRaisesSdaWhileSclIsHigh : Obligations.StopRaisesSdaWhileSclIsHigh := fun s =>
  ⟨Laws.RoundTrip.stop rfl, exec_stop s, fun sda => (WireReader.low_reads_stopEvents sda).symbols,
    l1From_low_stopEvents⟩

end Sys2Proof.Machine
end

section
/-! PROOFS. The family 42_byte_transfer: what TXBYTE, RXBYTE and the acknowledge formats do to the state
(R140 to R148), and that the bits of a byte, received, give the byte (R147). -/

namespace Sys2Proof.Machine

/-! ### A byte and its bits -/

/-- Shifted in again in the order of the wire, the bits of a byte give the byte (R55, R144). -/
theorem foldl_shiftInBit_bitsOf (b : Byte) : (bitsOf b).foldl shiftInBit 0 = b := by
  revert b
  decide

/-- A byte whose bits are the samples, MSB first, is the byte received (R147). -/
theorem byteOf_eq_of_map_eq_bitsOf {f : Nat → Bit} {b : Byte} (h : (List.range 8).map f = bitsOf b) :
    byteOf f = b := by
  rw [byteOf, ← List.foldl_map, h, foldl_shiftInBit_bitsOf]

/-! ### The calls -/

/-- ACK is RXACK with SDA low, which clears SDA_LATCH (R145, R110). -/
theorem exec_ack (s : State) :
    exec .ack s = .next
      { s with sdaDrv := .released, sclDrv := .drivenLow, sdaLatch := false, sclLatch := false,
               trace := s.trace ++ rxAckEvents true } := by
  have h := rxAck_eq true s
  rw [Bool.not_true, Bool.and_false] at h
  exact congrArg Host.Outcome.next h

/-- NACK is RXACK with SDA released, which leaves SDA_LATCH (R145, R112). -/
theorem exec_nack (s : State) :
    exec .nack s = .next
      { s with sdaDrv := .released, sclDrv := .drivenLow, sclLatch := false,
               trace := s.trace ++ rxAckEvents false } := by
  have h := rxAck_eq false s
  rw [Bool.not_false, Bool.and_true] at h
  exact congrArg Host.Outcome.next h

/-! ### The wire -/

/-- RXACK entered in a high phase that is no slot: its own clock is the one slot, and with no sample in it
its value is the master's contribution (R88, R145). -/
theorem WireReader.idle_reads_rxAck (sendAck : Bit) :
    idle.Reads (rxAckEvents sendAck) [.bit (!sendAck)] (low .released) := by
  cases sendAck <;> exact ⟨rfl, rfl⟩

/-! ### The obligations -/

/-- Settles O11: the call is `State.txByte` (`txByte_eq`). -/
theorem txByteSendsEightBitsThenReadsAck : Obligations.TxByteSendsEightBitsThenReadsAck := fun s =>
  ⟨congrArg Host.Outcome.next (txByte_eq s), length_txByteEvents _ _⟩

/-- Settles O12: the call is `State.rxByte` (`rxByte_eq`), and a byte sent arrives unchanged
(`byteOf_eq_of_map_eq_bitsOf`). -/
theorem rxByteReceivesEightBits : Obligations.RxByteReceivesEightBits := fun s =>
  ⟨congrArg Host.Outcome.next (rxByte_eq s), length_rxByteEvents _ _, bitsOf_byteOf s.upcoming,
    fun _ => byteOf_eq_of_map_eq_bitsOf⟩

/-- Settles O32: the calls are `exec_ack` and `exec_nack`, and the slot is read by `idle_reads_rxAck`. -/
theorem ackAndNackFillSlotNine : Obligations.AckAndNackFillSlotNine := fun s =>
  ⟨exec_ack s, exec_nack s, (WireReader.idle_reads_rxAck true).symbols,
    (WireReader.idle_reads_rxAck false).symbols⟩

end Sys2Proof.Machine
end

section
/-! PROOFS. The family 43_public_operations: INIT (R160), and which commands are accepted (R164, D10, D11). -/

namespace Sys2Proof.Machine

/-! ### INIT -/

/-- The events of INIT and its end (R160). -/
theorem initBody_eq (s : State) :
    s.initBody =
      { s with
        sdaDrv := .released, sclDrv := .released, sdaLatch := false, sclLatch := false,
        initialised := true, busy := false, seq := Seq.idle, done := true,
        trace := s.trace ++ initEvents } := by
  simp [State.initBody, State.sdaRelease, State.sclRelease, State.latchClear, State.delayRecovery,
    State.endInit, State.emit, initEvents]

/-- INIT from acceptance to its end (R160). -/
theorem exec_init_next_iff {v : Nat} {s t : State} :
    exec (.init v) s = .next t ↔ s.busy = false ∧ t =
      { s with
        op := 0, speed := latchedSpeed v, sdaDrv := .released, sclDrv := .released, sdaLatch := false,
        sclLatch := false, initialised := true, statusValid := false, busy := false, seq := Seq.idle,
        done := true, trace := s.trace ++ initEvents } := by
  rw [exec_init_next]
  constructor
  · rintro ⟨a, ha, rfl⟩
    obtain ⟨hb, rfl⟩ := acceptInit_ok.mp ha
    exact ⟨hb, initBody_eq _⟩
  · rintro ⟨hb, rfl⟩
    exact ⟨_, acceptInit_ok.mpr ⟨hb, rfl⟩, initBody_eq _⟩

/-- Settles O14: `exec_init_next_iff`; an operand of `SPEED_W` bits is latched as it is. -/
theorem initReleasesAndClears : Obligations.InitReleasesAndClears := fun _ v hb =>
  ⟨latchedSpeed v, latchedSpeed_of_lt, exec_init_next_iff.mpr ⟨hb, rfl⟩⟩

/-- Settles O15: `exec_init_next_iff` names the operand in SPEED only. -/
theorem initSpeedIsIgnored : Obligations.InitSpeedIsIgnored := by
  intro s t u v w ht hu
  obtain ⟨-, rfl⟩ := exec_init_next_iff.mp ht
  obtain ⟨-, rfl⟩ := exec_init_next_iff.mp hu
  exact ⟨rfl, rfl⟩

/-! ### Acceptance and refusal -/

/-- INIT is refused while the engine is busy, and for nothing else (R164, R93). -/
theorem exec_init_refused {v : Nat} {s : State} {r : Refusal} :
    exec (.init v) s = .refused r ↔ s.busy = true ∧ r = .engineBusy := by
  simp only [exec, execInit, acceptInit]
  cases s.busy <;> simp [eq_comm]

/-- A busy engine takes no transfer (R164, D11). -/
theorem transferRefusal_of_busy {s : State} (hb : s.busy = true) : s.transferRefusal = some .engineBusy :=
  if_pos hb

/-- An idle engine that INIT has not run on takes no transfer (R164, D10). -/
theorem transferRefusal_of_uninitialised {s : State} (hb : s.busy = false) (hi : s.initialised = false) :
    s.transferRefusal = some .notInitialised := by
  rw [State.transferRefusal, hb, hi]
  rfl

/-- Why the engine takes no transfer is what each transfer with operands in range answers (R164). -/
theorem exec_transfers_refused {s : State} {r : Refusal} {addr m n : Nat} (haddr : addr < 128)
    (hm : m < 65536) (hn : n < 65536) (hr : s.transferRefusal = some r) :
    exec (.write addr m) s = .refused r ∧ exec (.read addr n) s = .refused r ∧
      exec (.writeRead addr m n) s = .refused r :=
  ⟨exec_write_refused.mpr (acceptWrite_error.mpr (.inr (.inr (.inl ⟨haddr, hm, hr⟩)))),
    exec_read_refused.mpr (acceptRead_error.mpr (.inr (.inr (.inl ⟨haddr, hn, hr⟩)))),
    exec_writeRead_refused.mpr (acceptWriteRead_error.mpr (.inr (.inr (.inl ⟨haddr, hm, hn, hr⟩))))⟩

/-- Settles O25: the engine's own refusal comes before those of the buffers (`exec_transfers_refused`). -/
theorem busyAndUninitialisedAreRefused : Obligations.BusyAndUninitialisedAreRefused := by
  intro s addr m n v haddr hm hn
  refine ⟨fun hb => ⟨exec_init_refused.mpr ⟨hb, rfl⟩, ?busy⟩, fun hb hi => ?uninitialised⟩
  case busy => exact exec_transfers_refused haddr hm hn (transferRefusal_of_busy hb)
  case uninitialised =>
    exact exec_transfers_refused haddr hm hn (transferRefusal_of_uninitialised hb hi)

/-- Settles O24: a command has a next state exactly when it is accepted, and the conditions of acceptance are
`acceptInit_ok` to `acceptWriteRead_ok`. -/
theorem commandsRunExactlyWhenAccepted : Obligations.CommandsRunExactlyWhenAccepted := by
  intro s addr m n v
  exact ⟨by simp [exec_init_next_iff], by simp [exec_write_next, acceptWrite_ok],
    by simp [exec_read_next, acceptRead_ok], by simp [exec_writeRead_next, acceptWriteRead_ok]⟩

end Sys2Proof.Machine
end

section
/-! PROOFS. The family 43_public_operations: the transfers send and receive their frames and return the
status (R161 to R163, R169). -/

namespace Sys2Proof.Machine

/-! ### Events and samples of a frame -/

theorem length_sentEvents (gs : List (Byte × Bit)) : (sentEvents gs).length = 48 * gs.length := by
  simp [sentEvents, List.length_flatMap, length_txByteEvents, Nat.mul_comm]

theorem length_receivedEvents (gs : List (Byte × Bit)) : (receivedEvents gs).length = 56 * gs.length := by
  simp [receivedEvents, List.length_flatMap, length_rxByteEvents, Nat.mul_comm]

theorem sentCount_of_nack (n : Nat) {acks : Nat → Bit} (h : acks 0 = true) : sentCount (n + 1) acks = 1 :=
  if_pos h

theorem sentCount_of_ack (n : Nat) {acks : Nat → Bit} (h : acks 0 = false) :
    sentCount (n + 1) acks = 1 + sentCount n fun k => acks (k + 1) := if_neg (by simp [h])

/-- One group for each byte sent (R90, R60). -/
theorem length_sentGroups (bs : List Byte) (acks : Nat → Bit) :
    (sentGroups bs acks).length = sentCount bs.length acks := by
  induction bs generalizing acks with
  | nil => rfl
  | cons b bs ih =>
    cases h : acks 0 with
    | true => simp [sentGroups, sentCount, h]
    | false => simp [sentGroups, sentCount_of_ack, h, ih, Nat.add_comm 1]

/-- No more bytes are sent than there are (R60). -/
theorem sentCount_le (n : Nat) (acks : Nat → Bit) : sentCount n acks ≤ n := by
  induction n generalizing acks with
  | zero => exact le_refl 0
  | succ n ih =>
    have hrest := ih fun k => acks (k + 1)
    cases h : acks 0 with
    | true => rw [sentCount_of_nack n h]; omega
    | false => rw [sentCount_of_ack n h]; omega

theorem sentCount_of_allAcked {n : Nat} {acks : Nat → Bit} (h : allAcked n acks = true) :
    sentCount n acks = n := by
  induction n generalizing acks with
  | zero => rfl
  | succ n ih =>
    rw [allAcked_succ, Bool.and_eq_true, Bool.not_eq_true'] at h
    obtain ⟨hfirst, hrest⟩ := h
    rw [sentCount_of_ack n hfirst, ih hrest, Nat.add_comm]

theorem length_writeGroups (addr : Addr) (payload : List Byte) (acks : Nat → Bit) :
    (writeGroups addr payload acks).length = sentCount (payload.length + 1) acks := length_sentGroups _ acks

/-- START and STOP have eight events, each byte sent 48 (R161). -/
theorem length_writeFrameEvents (addr : Addr) (payload : List Byte) (acks : Nat → Bit) :
    (writeFrameEvents addr payload acks).length = 8 + 48 * sentCount (payload.length + 1) acks := by
  simp only [writeFrameEvents, List.length_append, length_sentEvents, length_writeGroups, startEvents,
    stopEvents, List.length_cons, List.length_nil]
  omega

/-- START, STOP and the address byte have 56 events, each byte received 56 (R162). -/
theorem length_readFrameEvents (addr : Addr) (n : Nat) (f : Nat → Bit) :
    (readFrameEvents addr n f).length = 56 + 56 * if f 0 then 0 else n := by
  simp only [readFrameEvents, List.length_append, length_txByteEvents, length_receivedEvents,
    length_readDataGroups, startEvents, stopEvents, List.length_cons, List.length_nil]
  omega

/-- Settles O27: the lengths by the number of groups, which is `sentCount` or the length read. -/
theorem frameEventAndSampleCounts : Obligations.FrameEventAndSampleCounts := by
  intro addr payload n f
  simp only [length_writeFrameEvents, length_readFrameEvents]
  refine ⟨fun h => ?acked, fun h => ?read, fun h => ?refused⟩
  case acked =>
    rw [sentCount_of_allAcked h]
    exact ⟨by omega, rfl⟩
  case read => simp [readSampleCount, h]
  case refused => simp [readSampleCount, sentCount_of_nack _ h, h]

/-! ### The transfers from acceptance to their end -/

/-- STOP and the status of a frame whose bytes were acknowledged, or not (R169). -/
theorem finish_of_ackbit {s : State} {acked : Bool} (h : s.ackbit = !acked) :
    s.finish =
      { s with
        sdaLatch := false, sdaDrv := .released, sclDrv := .released, trace := s.trace ++ stopEvents,
        status := if acked then .ok else .nack, statusValid := true, busy := false, seq := Seq.idle,
        done := true } := by
  rw [finish_eq, h]
  cases acked <;> rfl

/-- WRITE from acceptance to its end (R161, R169). -/
theorem writeBody_eq (s : State) {n : Nat} (hn : s.txLen.toNat = n) (hheld : s.tx.holds n = true) :
    ∃ ix, s.writeBody =
      { s.transferEnd s.op (allAcked (n + 1) s.upcoming)
          (writeFrameEvents s.addr (s.tx.bytes n) s.upcoming)
          (fetchOps (sentCount (n + 1) s.upcoming)) (sentCount (n + 1) s.upcoming) with
        shift := 0, idx := ix, sample := !allAcked (n + 1) s.upcoming } := by
  subst hn
  obtain ⟨ix, hw⟩ := writeFrame_eq s _ (Buffer.length_bytes hheld)
  refine ⟨ix, ?_⟩
  rw [State.writeBody, hw, finish_of_ackbit rfl]
  simp [State.transferEnd, writeFrameEvents]

/-- READ from acceptance to its end, and WRITE_READ from its second START (R162, R163). -/
theorem readBody_eq (s : State) {n : Nat} (hn : s.rxLen.toNat = n) (hr : n ≤ s.rx.size)
    (hw : s.rx.wf = true) :
    ∃ sh ix sa sm rx', s.readBody =
        { s.transferEnd s.op (!s.upcoming 0) (readFrameEvents s.addr n s.upcoming)
            (storeOps (deliveredBytes n s.upcoming)) (readSampleCount n s.upcoming) with
          shift := sh, idx := ix, sendAck := sa, sample := sm, rx := rx' } ∧
      Delivered s.rx rx' (deliveredBytes n s.upcoming) := by
  obtain ⟨sh, ix, sa, sm, rx', hf, hd⟩ := readFrame_eq s n hn hr hw
  refine ⟨sh, ix, sa, sm, rx', ?_, hd⟩
  rw [State.readBody, hf, finish_of_ackbit (acked := !s.upcoming 0) (Bool.not_not _).symm]
  simp [State.transferEnd, readFrameEvents]

/-- WRITE_READ with a NACK in its write phase (R163, R197). -/
theorem writeReadBody_eq_of_nack (s : State) {m : Nat} (hm : s.txLen.toNat = m)
    (hheld : s.tx.holds m = true) (ha : allAcked (m + 1) s.upcoming = false) :
    ∃ ix, s.writeReadBody =
      { s.transferEnd s.op false (writeFrameEvents s.addr (s.tx.bytes m) s.upcoming)
          (fetchOps (sentCount (m + 1) s.upcoming)) (sentCount (m + 1) s.upcoming) with
        shift := 0, idx := ix, sample := true } := by
  subst hm
  obtain ⟨ix, hw⟩ := writeFrame_eq s _ (Buffer.length_bytes hheld)
  rw [ha, Bool.not_false] at hw
  refine ⟨ix, ?_⟩
  rw [writeReadBody_nack (by rw [hw]), hw, raiseNack_eq]
  simp [State.transferEnd, writeFrameEvents]

/-- WRITE_READ whose write phase is acknowledged: its second frame reads the answers after those of the first
(R163, R59). -/
theorem writeReadBody_eq_of_ack (s : State) {m n : Nat} (hm : s.txLen.toNat = m)
    (hheld : s.tx.holds m = true) (hn : s.rxLen.toNat = n) (hr : n ≤ s.rx.size) (hw : s.rx.wf = true)
    (ha : allAcked (m + 1) s.upcoming = true) :
    ∃ sh ix sa sm rx', s.writeReadBody =
        { s.transferEnd s.op (!s.upcoming (m + 1))
            (writeFrameEvents s.addr (s.tx.bytes m) s.upcoming ++
              .ds :: readFrameEvents s.addr n fun k => s.upcoming (m + 1 + k))
            (fetchOps (m + 1) ++ storeOps (deliveredBytes n fun k => s.upcoming (m + 1 + k)))
            (m + 1 + readSampleCount n fun k => s.upcoming (m + 1 + k)) with
          shift := sh, idx := ix, sendAck := sa, sample := sm, rx := rx' } ∧
      Delivered s.rx rx' (deliveredBytes n fun k => s.upcoming (m + 1 + k)) := by
  subst hm
  obtain ⟨ix, hf⟩ := writeFrame_eq s _ (Buffer.length_bytes hheld)
  rw [ha, sentCount_of_allAcked ha, Bool.not_true] at hf
  have hack : s.writeFrame.ackbit = false := by rw [hf]
  have hu : s.writeFrame.stopCond.delaySettle.beginSecond.upcoming =
      fun k => s.upcoming (s.txLen.toNat + 1 + k) := by
    funext k
    exact upcoming_congr (by rw [hf]; rfl) (by rw [hf]; rfl) k
  obtain ⟨sh, ix', sa, sm, rx', hb, hd⟩ :=
    readBody_eq s.writeFrame.stopCond.delaySettle.beginSecond (n := n) (by rw [hf]; exact hn)
      (by rw [hf]; exact hr) (by rw [hf]; exact hw)
  rw [hu] at hb hd
  refine ⟨sh, ix', sa, sm, rx', ?_, by rw [hf] at hd; exact hd⟩
  rw [writeReadBody_ack hack, ← State.readBody, hb, hf]
  simp [State.transferEnd, writeFrameEvents, stopCond_eq, State.delaySettle, State.beginSecond, State.emit,
    Nat.add_assoc]

/-! ### The transfers as calls -/

/-- A length in range is the value of its register (R51). -/
theorem toNat_ofNat_len {n : Nat} (h : n < 65536) : (BitVec.ofNat 16 n).toNat = n := Nat.mod_eq_of_lt h

theorem exec_write_accepted {s : State} {addr n : Nat} (haddr : addr < 128) (hn : n < 65536)
    (hready : s.ready) (hheld : s.tx.holds n = true) :
    exec (.write addr n) s = .next (State.writeBody (State.beginCommand 1 Seq.firstOfTransfer
      { s with addr := BitVec.ofNat 7 addr, txLen := BitVec.ofNat 16 n })) :=
  exec_write_next.mpr ⟨_, acceptWrite_ok.mpr ⟨haddr, hn, hready, hheld, rfl⟩, rfl⟩

theorem exec_read_accepted {s : State} {addr n : Nat} (haddr : addr < 128) (hn : n < 65536)
    (hready : s.ready) (hroom : n ≤ s.rx.size) :
    exec (.read addr n) s = .next (State.readBody (State.beginCommand 2 Seq.firstOfTransfer
      { s with addr := BitVec.ofNat 7 addr, rxLen := BitVec.ofNat 16 n })) :=
  exec_read_next.mpr ⟨_, acceptRead_ok.mpr ⟨haddr, hn, hready, hroom, rfl⟩, rfl⟩

theorem exec_writeRead_accepted {s : State} {addr m n : Nat} (haddr : addr < 128) (hm : m < 65536)
    (hn : n < 65536) (hready : s.ready) (hheld : s.tx.holds m = true) (hroom : n ≤ s.rx.size) :
    exec (.writeRead addr m n) s = .next (State.writeReadBody (State.beginCommand 3 Seq.firstOfTransfer
      { s with addr := BitVec.ofNat 7 addr, txLen := BitVec.ofNat 16 m, rxLen := BitVec.ofNat 16 n })) :=
  exec_writeRead_next.mpr ⟨_, acceptWriteRead_ok.mpr ⟨haddr, hm, hn, hready, hheld, hroom, rfl⟩, rfl⟩

/-- Settles O16, by `writeBody_eq` from the accepted state. -/
theorem writeSendsItsFrame : Obligations.WriteSendsItsFrame := by
  intro s addr n haddr hn hready hheld
  rw [exec_write_accepted haddr hn hready hheld]
  simp only [Host.Outcome.next.injEq]
  exact writeBody_eq _ (toNat_ofNat_len hn) hheld

/-- Settles O17, by `readBody_eq` from the accepted state. -/
theorem readReceivesItsFrame : Obligations.ReadReceivesItsFrame := by
  intro s addr n haddr hn hready hwf hroom
  rw [exec_read_accepted haddr hn hready hroom]
  simp only [Host.Outcome.next.injEq]
  exact readBody_eq _ (toNat_ofNat_len hn) hroom hwf

/-- Settles O18, by `writeReadBody_eq_of_ack` from the accepted state. -/
theorem writeReadRunsTwoFrames : Obligations.WriteReadRunsTwoFrames := by
  intro s addr m n haddr hm hn hready hheld hwf hroom hacked
  rw [exec_writeRead_accepted haddr hm hn hready hheld hroom]
  simp only [Host.Outcome.next.injEq]
  exact writeReadBody_eq_of_ack _ (toNat_ofNat_len hm) hheld (toNat_ofNat_len hn) hroom hwf hacked

/-- Settles O19, by `writeReadBody_eq_of_nack` from the accepted state. -/
theorem writeReadStopsAtWriteNack : Obligations.WriteReadStopsAtWriteNack := by
  intro s addr m n haddr hm hn hready hheld hroom hnack
  rw [exec_writeRead_accepted haddr hm hn hready hheld hroom]
  simp only [Host.Outcome.next.injEq]
  exact writeReadBody_eq_of_nack _ (toNat_ofNat_len hm) hheld hnack

end Sys2Proof.Machine
end

section
/-! PROOFS. The family 43_public_operations: what holds of a command on every path, from every state: it
returns with the bus idle (R167), within a bound on its events (R166). -/

namespace Sys2Proof.Machine

/-! ### What is kept on the way -/

/-- From `s` to `t` at most `k` events were added; TX and INITIALISED are kept. -/
structure State.AddsAtMost (s t : State) (k : Nat) : Prop where
  length : t.trace.length ≤ s.trace.length + k
  tx : t.tx = s.tx
  initialised : t.initialised = s.initialised

theorem State.AddsAtMost.trans {s t u : State} {j k : Nat} (h : s.AddsAtMost t j) (h' : t.AddsAtMost u k) :
    s.AddsAtMost u (j + k) where
  length := h'.length.trans (by have := h.length; omega)
  tx := h'.tx.trans h.tx
  initialised := h'.initialised.trans h.initialised

theorem State.AddsAtMost.mono {s t : State} {j k : Nat} (h : s.AddsAtMost t j) (hk : j ≤ k) :
    s.AddsAtMost t k := ⟨h.length.trans (by omega), h.tx, h.initialised⟩

theorem addsAtMost_firstIdx (s : State) : s.AddsAtMost s.firstIdx 0 := ⟨le_refl _, rfl, rfl⟩

theorem addsAtMost_addressPhase (rw : Bit) (s : State) : s.AddsAtMost (s.addressPhase rw) 51 := by
  rw [addressPhase_eq]
  exact ⟨by simp [length_txByteEvents, startEvents], rfl, rfl⟩

/-- The loop of READ, 56 events a byte, whatever form RX is in (R162). -/
theorem addsAtMost_receiveData (n : Nat) (s : State) : s.AddsAtMost (State.receiveData n s) (56 * n) := by
  induction n generalizing s with
  | zero => exact ⟨le_refl _, rfl, rfl⟩
  | succ n ih =>
    have hbyte : s.AddsAtMost s.setSendAck.rxByte.storeByte.nextIdx 56 := by
      rw [rxByte_eq]
      exact ⟨by simp [State.storeByte, State.setSendAck, State.nextIdx, length_rxByteEvents], rfl, rfl⟩
    exact (hbyte.trans (ih _)).mono (by omega)

/-- A read frame up to its STOP (R162). -/
theorem addsAtMost_readFrame (s : State) : s.AddsAtMost s.readFrame (51 + 56 * s.rxLen.toNat) := by
  have haddr := addsAtMost_addressPhase true s
  cases ha : (s.addressPhase true).ackbit with
  | true =>
    rw [readFrame_nack ha]
    exact haddr.mono (by omega)
  | false =>
    have hlen : (s.addressPhase true).rxLen = s.rxLen := by rw [addressPhase_eq]
    rw [readFrame_ack ha, hlen]
    exact (haddr.trans (addsAtMost_firstIdx _)).trans (addsAtMost_receiveData _ _)

/-- A write frame up to its STOP, whatever TX holds (R161). -/
theorem addsAtMost_writeFrame (s : State) : s.AddsAtMost s.writeFrame (51 + 48 * s.txLen.toNat) := by
  have hbytes : (s.tx.bytes s.txLen.toNat).length ≤ s.txLen.toNat :=
    (List.length_filterMap_le _ _).trans_eq List.length_range
  have hsent := sentCount_le ((s.tx.bytes s.txLen.toNat).length + 1) s.upcoming
  obtain ⟨ix, hw⟩ := writeFrame_eq s _ rfl
  rw [hw]
  refine ⟨?_, rfl, rfl⟩
  simp only [List.length_append, length_sentEvents, length_writeGroups, startEvents, List.length_cons,
    List.length_nil]
  omega

/-- STOP, and between the frames of a WRITE_READ the wait (R163). -/
theorem addsAtMost_betweenFrames (s : State) : s.AddsAtMost s.stopCond.delaySettle.beginSecond 6 := by
  rw [stopCond_eq]
  exact ⟨by simp [stopEvents], rfl, rfl⟩

/-! ### The return -/

/-- A transfer has returned (R164, R167), and on the way at most `k` events were added. -/
structure State.Returns (s t : State) (k : Nat) : Prop where
  adds : s.AddsAtMost t k
  bus : t.busIdle
  busy : t.busy = false
  seq : t.seq = Seq.idle

theorem State.AddsAtMost.returns {s t u : State} {j k l : Nat} (h : s.AddsAtMost t j) (h' : t.Returns u k)
    (hl : j + k ≤ l) : s.Returns u l := ⟨(h.trans h'.adds).mono hl, h'.bus, h'.busy, h'.seq⟩

theorem returns_raiseNack (s : State) : s.Returns s.raiseNack 5 := by
  rw [raiseNack_eq]
  exact ⟨⟨by simp [stopEvents], rfl, rfl⟩, rfl, rfl, rfl⟩

theorem returns_finish (s : State) : s.Returns s.finish 5 := by
  rw [finish_eq]
  exact ⟨⟨by simp [stopEvents], rfl, rfl⟩, rfl, rfl, rfl⟩

theorem returns_writeBody (s : State) : s.Returns s.writeBody 3145736 := by
  have hlen := s.txLen.isLt
  exact (addsAtMost_writeFrame s).returns (returns_finish _) (by omega)

theorem returns_readBody (s : State) : s.Returns s.readBody 3670016 := by
  have hlen := s.rxLen.isLt
  exact (addsAtMost_readFrame s).returns (returns_finish _) (by omega)

theorem returns_writeReadBody (s : State) : s.Returns s.writeReadBody (3145736 + 3670016 + 1) := by
  have hlen := s.txLen.isLt
  have hframe := addsAtMost_writeFrame s
  cases ha : s.writeFrame.ackbit with
  | true =>
    rw [writeReadBody_nack ha]
    exact hframe.returns (returns_raiseNack _) (by omega)
  | false =>
    rw [writeReadBody_ack ha]
    exact (hframe.trans (addsAtMost_betweenFrames _)).returns (returns_readBody _) (by omega)

/-- Acceptance adds no event (R164), so what a body does from there the command does from `s`. -/
theorem returns_of_beginCommand {s t : State} {op : BitVec 3} {first : Seq} {addr : Addr} {txLen rxLen : Len}
    {k : Nat} (h : (State.beginCommand op first { s with addr, txLen, rxLen }).Returns t k) : s.Returns t k :=
  ⟨⟨h.adds.length, h.adds.tx, h.adds.initialised⟩, h.bus, h.busy, h.seq⟩

theorem returns_of_exec_write {s t : State} {addr n : Nat} (ht : exec (.write addr n) s = .next t) :
    s.initialised = true ∧ s.Returns t 3145736 := by
  obtain ⟨a, ha, rfl⟩ := exec_write_next.mp ht
  obtain ⟨-, -, ⟨-, hinit⟩, -, rfl⟩ := acceptWrite_ok.mp ha
  exact ⟨hinit, returns_of_beginCommand (returns_writeBody _)⟩

theorem returns_of_exec_read {s t : State} {addr n : Nat} (ht : exec (.read addr n) s = .next t) :
    s.initialised = true ∧ s.Returns t 3670016 := by
  obtain ⟨a, ha, rfl⟩ := exec_read_next.mp ht
  obtain ⟨-, -, ⟨-, hinit⟩, -, rfl⟩ := acceptRead_ok.mp ha
  exact ⟨hinit, returns_of_beginCommand (returns_readBody _)⟩

theorem returns_of_exec_writeRead {s t : State} {addr m n : Nat}
    (ht : exec (.writeRead addr m n) s = .next t) :
    s.initialised = true ∧ s.Returns t (3145736 + 3670016 + 1) := by
  obtain ⟨a, ha, rfl⟩ := exec_writeRead_next.mp ht
  obtain ⟨-, -, -, ⟨-, hinit⟩, -, -, rfl⟩ := acceptWriteRead_ok.mp ha
  exact ⟨hinit, returns_of_beginCommand (returns_writeReadBody _)⟩

/-- Settles O23: INIT by `exec_init_next_iff`, a transfer by its `State.Returns`. -/
theorem commandsReturnWithTheBusIdle : Obligations.CommandsReturnWithTheBusIdle := by
  intro s t addr m n v ht
  have htransfer {k : Nat} : s.initialised = true ∧ s.Returns t k →
      t.busIdle ∧ t.busy = false ∧ t.seq = Seq.idle ∧ t.tx = s.tx ∧ t.initialised = true := fun ⟨hinit, h⟩ =>
    ⟨h.bus, h.busy, h.seq, h.adds.tx, h.adds.initialised.trans hinit⟩
  rcases ht with ht | ht | ht | ht
  · obtain ⟨-, rfl⟩ := exec_init_next_iff.mp ht
    exact ⟨rfl, rfl, rfl, rfl, rfl⟩
  · exact htransfer (returns_of_exec_write ht)
  · exact htransfer (returns_of_exec_read ht)
  · exact htransfer (returns_of_exec_writeRead ht)

/-- Settles O29: INIT by `exec_init_next_iff`, a transfer by its `State.Returns`. -/
theorem commandsEndWithinTheirBounds : Obligations.CommandsEndWithinTheirBounds := by
  intro s t addr m n v
  refine ⟨fun ht => ?init, fun ht => ?write, fun ht => ?read, fun ht => ?writeRead⟩
  case init =>
    obtain ⟨-, rfl⟩ := exec_init_next_iff.mp ht
    simp [initEvents]
  case write =>
    obtain ⟨-, h⟩ := returns_of_exec_write ht
    exact h.adds.length
  case read =>
    obtain ⟨-, h⟩ := returns_of_exec_read ht
    exact h.adds.length
  case writeRead =>
    obtain ⟨-, h⟩ := returns_of_exec_writeRead ht
    exact h.adds.length

end Sys2Proof.Machine
end

section
/-! PROOFS. The family 43_public_operations: commands presented on the port, to a busy engine and to an idle
one (R164). -/

namespace Sys2Proof.Machine

/-! ### A busy engine -/

/-- Settles O39: a busy step is a tick, which neither looks at the host's moves nor changes them
(`tick_withInbox`, `tick_inbox`). -/
theorem commandsWaitWhileBusy : Obligations.CommandsWaitWhileBusy := by
  intro s t hb hr ht
  rw [step_busy hb hr] at ht
  have hinbox : t.inbox = letPass s.inbox := tick_inbox ht
  refine ⟨fun hmoves => ?other, fun rest hwait => ?wait, ?alone⟩
  case other => rw [hinbox, letPass_eq_self hmoves]
  case wait => rw [hinbox, hwait, letPass_wait]
  case alone => exact (step_busy (s := s.withInbox []) hb rfl).trans (tick_withInbox ht [])

/-! ### A strobed command -/

/-- The step that takes a strobed command is its acceptance (R164, R81). -/
theorem step_strobe_encode {i : Instr} (hc : (encode i).format = .cmd) (hw : i.wellFormed = true) {s : State}
    (hb : s.busy = false) (rest : List Input) :
    step { s with inbox := .strobe (encode i).bits :: rest } =
      acceptInstr i { s with done := false, inbox := rest } := by
  rw [step_strobe hb, runStrobe, encode_cmd hc, decode_encode_cmd hc hw]

/-- A command is begun or refused; nothing faults before it runs (R164). -/
theorem acceptInstr_next_or_refused {i : Instr} (hc : (encode i).format = .cmd) (s : State) :
    (∃ a, acceptInstr i s = .next a) ∨ ∃ r, acceptInstr i s = .refused r := by
  cases i with
  | init v => cases h : acceptInit v s <;> simp [acceptInstr, h]
  | write addr n => cases h : acceptWrite addr n s <;> simp [acceptInstr, h]
  | read addr n => cases h : acceptRead addr n s <;> simp [acceptInstr, h]
  | writeRead addr m n => cases h : acceptWriteRead addr m n s <;> simp [acceptInstr, h]
  | _ => cases hc

/-- Settles O55: the step is the command's acceptance (`step_strobe_encode`), whose conditions are
`acceptInit_ok` to `acceptWriteRead_ok`; where they fail it is refused (`acceptInstr_next_or_refused`). -/
theorem strobedCommandsAreAccepted : Obligations.StrobedCommandsAreAccepted := by
  intro s addr m n v rest hb haddr hm hn
  have hinit := step_strobe_encode (i := .init v) rfl rfl hb rest
  have hwrite := step_strobe_encode (i := .write addr m) rfl
    (by simp [Instr.wellFormed, addrFits, lenFits, haddr, hm]) hb rest
  have hread := step_strobe_encode (i := .read addr n) rfl
    (by simp [Instr.wellFormed, addrFits, lenFits, haddr, hn]) hb rest
  have hboth := step_strobe_encode (i := .writeRead addr m n) rfl
    (by simp [Instr.wellFormed, addrFits, lenFits, haddr, hm, hn]) hb rest
  rw [hinit, hwrite, hread, hboth]
  refine ⟨⟨latchedSpeed v, latchedSpeed_of_lt, ?init⟩, fun hi hheld => ?write, fun hi hroom => ?read,
    fun hi hheld hroom => ?writeRead, fun hnot => ?noWrite, fun hnot => ?noRead, fun hnot => ?noWriteRead⟩
  case init => exact acceptInstr_init_next.mpr (acceptInit_ok.mpr ⟨hb, rfl⟩)
  case write => exact acceptInstr_write_next.mpr (acceptWrite_ok.mpr ⟨haddr, hm, ⟨hb, hi⟩, hheld, rfl⟩)
  case read => exact acceptInstr_read_next.mpr (acceptRead_ok.mpr ⟨haddr, hn, ⟨hb, hi⟩, hroom, rfl⟩)
  case writeRead =>
    exact acceptInstr_writeRead_next.mpr
      (acceptWriteRead_ok.mpr ⟨haddr, hm, hn, ⟨hb, hi⟩, hheld, hroom, rfl⟩)
  case noWrite =>
    refine (acceptInstr_next_or_refused rfl _).resolve_left fun ⟨a, ha⟩ => ?_
    obtain ⟨-, -, ⟨-, hi⟩, hheld, -⟩ := acceptWrite_ok.mp (acceptInstr_write_next.mp ha)
    exact hnot ⟨hi, hheld⟩
  case noRead =>
    refine (acceptInstr_next_or_refused rfl _).resolve_left fun ⟨a, ha⟩ => ?_
    obtain ⟨-, -, ⟨-, hi⟩, hroom, -⟩ := acceptRead_ok.mp (acceptInstr_read_next.mp ha)
    exact hnot ⟨hi, hroom⟩
  case noWriteRead =>
    refine (acceptInstr_next_or_refused rfl _).resolve_left fun ⟨a, ha⟩ => ?_
    obtain ⟨-, -, -, ⟨-, hi⟩, hheld, hroom, -⟩ := acceptWriteRead_ok.mp (acceptInstr_writeRead_next.mp ha)
    exact hnot ⟨hi, hheld, hroom⟩

end Sys2Proof.Machine
end

section
/-! PROOFS. The family 60_exceptions: the NACK abort (R197), a refused address (R191), and the status tags
that no operation writes (R193, R194). -/

namespace Sys2Proof.Machine

/-! ### The NACK abort -/

/-- Settles O22, by `raiseNack_eq`. -/
theorem nackAbortIsStopThenNack : Obligations.NackAbortIsStopThenNack := raiseNack_eq

/-- Settles O34: both calls are their refusal. -/
theorem errorAndTimeoutAreNeverProduced : Obligations.ErrorAndTimeoutAreNeverProduced := fun _ => ⟨rfl, rfl⟩

/-! ### A refused address -/

/-- The L0 trace of a frame whose address byte `b` is refused (R161, R162, R197). -/
def refusedFrameEvents (b : Byte) : List Event := startEvents ++ txByteEvents b true ++ stopEvents

/-- On the wire it is the address group alone (R90). -/
theorem l2_refusedFrameEvents (b : Byte) : l2 (refusedFrameEvents b) = frameSyms [(b, true)] := by
  have hgroup : (WireReader.low .drivenLow).Reads (txByteEvents b true)
      ([(b, true)].flatMap fun g => groupSyms g.1 g.2) (WireReader.low .released) := by
    rw [List.flatMap_singleton]
    exact WireReader.low_reads_txByte .drivenLow b true
  exact (WireReader.idle_reads_frame hgroup).symbols

/-- ACKBIT after the address byte is the answer to it (R141). -/
theorem addressPhase_ackbit (rw : Bit) (s : State) : (s.addressPhase rw).ackbit = s.upcoming 0 :=
  congrArg State.ackbit (addressPhase_eq rw s)

/-- A refused address, and the end it leads to (R191, R197). -/
theorem finish_addressPhase_of_nack (rw : Bit) {s : State} (h : s.upcoming 0 = true) :
    (s.addressPhase rw).finish =
      { s.transferEnd s.op false (refusedFrameEvents (addrByte s.addr rw)) [] 1 with
        shift := 0, sample := true } := by
  rw [finish_of_ackbit (acked := false) ((addressPhase_ackbit rw s).trans h), addressPhase_eq, h]
  simp [State.transferEnd, refusedFrameEvents]

theorem writeBody_of_nack {s : State} (h : s.upcoming 0 = true) :
    s.writeBody = (s.addressPhase false).finish := by
  rw [State.writeBody, writeFrame_nack ((addressPhase_ackbit false s).trans h)]

theorem readBody_of_nack {s : State} (h : s.upcoming 0 = true) :
    s.readBody = (s.addressPhase true).finish := by
  rw [State.readBody, readFrame_nack ((addressPhase_ackbit true s).trans h)]

/-- A command accepted in `s` whose address is refused ends in `Nack`; it leaves the bus idle and both buffers
alone, and puts the address group on the wire (R191, R197). -/
theorem nack_of_refusedAddress (rw : Bit) {s t : State} {op : BitVec 3} {first : Seq} {addr : Addr}
    {txLen rxLen : Len} (h : s.upcoming 0 = true)
    (ht : t = (State.addressPhase rw (.beginCommand op first { s with addr, txLen, rxLen })).finish) :
    t.statusPort = some .nack ∧ t.busIdle ∧ t.tx = s.tx ∧ t.rx = s.rx ∧ t.bufOps = s.bufOps ∧
      t.trace = s.trace ++ refusedFrameEvents (addrByte addr rw) ∧
      l2 (refusedFrameEvents (addrByte addr rw)) = frameSyms [(addrByte addr rw, true)] := by
  rw [ht.trans (finish_addressPhase_of_nack rw h)]
  exact ⟨rfl, rfl, rfl, rfl, List.append_nil _, rfl, l2_refusedFrameEvents _⟩

/-- Settles O21: both commands run from their acceptance to the end of `nack_of_refusedAddress`. -/
theorem refusedAddressEndsTheCommand : Obligations.RefusedAddressEndsTheCommand := by
  intro s addr n haddr hn hready hnack
  refine ⟨fun hheld => ?write, fun hroom => ?read⟩
  case write =>
    exact ⟨_, _, exec_write_accepted haddr hn hready hheld,
      nack_of_refusedAddress false hnack (writeBody_of_nack hnack)⟩
  case read =>
    exact ⟨_, _, exec_read_accepted haddr hn hready hroom,
      nack_of_refusedAddress true hnack (readBody_of_nack hnack)⟩

/-! ### What the operations do to STATUS -/

/-- A pin primitive leaves STATUS (R117). -/
theorem status_of_exec_pin {i : Instr} (h : i ∈ pinPrimitives) {s t : State} (ht : exec i s = .next t) :
    t.status = s.status := by
  obtain ⟨u, hu, hframe⟩ := exec_pin h s
  cases hu.symm.trans ht
  rw [hframe]

/-- The end of a frame writes `Ok` or `Nack`, whatever came before it (R169, R197). -/
theorem status_finish (s : State) : s.finish.status = .ok ∨ s.finish.status = .nack := by
  rw [finish_eq]
  cases s.ackbit with
  | true => exact .inr rfl
  | false => exact .inl rfl

/-- WRITE_READ ends with a NACK abort or with the end of its read frame (R163). -/
theorem status_writeReadBody (s : State) : s.writeReadBody.status = .ok ∨ s.writeReadBody.status = .nack := by
  cases ha : s.writeFrame.ackbit with
  | true =>
    rw [writeReadBody_nack ha]
    exact .inr (congrArg State.status (raiseNack_eq _))
  | false =>
    rw [writeReadBody_ack ha]
    exact status_finish _

/-- Settles O26: a transfer writes STATUS at its end only (`status_finish`, `status_writeReadBody`), a status
code where it is one, and nothing else writes it. -/
theorem statusIsNeverErrorNorTimeout : Obligations.StatusIsNeverErrorNorTimeout := by
  intro i s t ht
  cases i with
  | init v =>
    obtain ⟨-, rfl⟩ := exec_init_next_iff.mp ht
    exact .inl rfl
  | write addr n =>
    obtain ⟨a, -, rfl⟩ := exec_write_next.mp ht
    exact .inr (status_finish _)
  | read addr n =>
    obtain ⟨a, -, rfl⟩ := exec_read_next.mp ht
    exact .inr (status_finish _)
  | writeRead addr m n =>
    obtain ⟨a, -, rfl⟩ := exec_writeRead_next.mp ht
    exact .inr (status_writeReadBody a)
  | start =>
    cases (exec_start s).symm.trans ht
    exact .inl rfl
  | stop =>
    cases (exec_stop s).symm.trans ht
    exact .inl rfl
  | txbyte =>
    cases ht
    rw [txByte_eq]
    exact .inl rfl
  | rxbyte =>
    cases ht
    rw [rxByte_eq]
    exact .inl rfl
  | sdaLow | sdaRelease | sclLow | sclRelease | sdaSample | delayQuarter | delayHalf | delayRecovery
  | delaySettle | latchClear => exact .inl (status_of_exec_pin (by decide) ht)
  | addrWrite | addrRead | dataByte =>
    cases ht
    rw [sendByte_eq]
    exact .inl rfl
  | ack =>
    cases (exec_ack s).symm.trans ht
    exact .inl rfl
  | nack =>
    cases (exec_nack s).symm.trans ht
    exact .inl rfl
  | statusOk =>
    cases (exec_statusOk s).symm.trans ht
    exact .inr (.inl rfl)
  | statusNack =>
    cases (exec_statusNack s).symm.trans ht
    exact .inr (.inr rfl)
  | statusError | statusTimeout => cases ht

end Sys2Proof.Machine
end

section
/-! PROOFS. The family 60_exceptions: what the host does between commands (R203, R171), and that a running
command never stops (R199). -/

namespace Sys2Proof.Machine

/-! ### The host's moves to an idle engine -/

section IdleMoves

variable {s : State} (hb : s.busy = false) {rest : List Input}
include hb

theorem step_of_no_move (hm : s.inbox = []) : step s = .next { s with done := false } := by
  rw [step_idle hb (by rw [State.resetPending, hm]), idleStep, hm]

theorem step_of_wait (hm : s.inbox = .wait :: rest) :
    step s = .next { s with done := false, inbox := rest } := by
  rw [step_idle hb (by rw [State.resetPending, hm]), idleStep, hm]

theorem step_of_loadTx {bytes : List Byte} (hm : s.inbox = .loadTx bytes :: rest) :
    step s = .next { s with done := false, inbox := rest, tx := Buffer.ofBytes bytes } := by
  rw [step_idle hb (by rw [State.resetPending, hm]), idleStep, hm]

theorem step_of_giveRx {size : Nat} (hm : s.inbox = .giveRx size :: rest) :
    step s = .next { s with done := false, inbox := rest, rx := ⟨size, []⟩ } := by
  rw [step_idle hb (by rw [State.resetPending, hm]), idleStep, hm]

end IdleMoves

/-- A buffer filled with bytes reads as them from index 0 (R203). -/
theorem Buffer.read_ofBytes (vs : List Byte) (i : Nat) : (Buffer.ofBytes vs).read i = vs[i]? := by
  have h := Buffer.read_cellsFrom 0 i vs
  rwa [Nat.zero_add] at h

/-- Settles O37: each move is its own step, and the buffers are `Buffer.ofBytes` and the empty one. -/
theorem hostMovesBetweenCommands : Obligations.HostMovesBetweenCommands := by
  intro s bytes size rest hb
  refine ⟨step_of_no_move hb, step_of_wait hb, fun hm => ?loadTx, fun hm => ?giveRx⟩
  case loadTx =>
    exact ⟨_, step_of_loadTx hb hm, Buffer.ofBytes_wf bytes, rfl, Buffer.read_ofBytes bytes⟩
  case giveRx => exact ⟨_, step_of_giveRx hb hm, Buffer.empty_wf size, rfl, fun _ => rfl⟩

/-! ### A running command goes on -/

/-- A legal position is inside its event list (R33). -/
theorem step_lt_of_driversFit {s : State} (h : s.driversFit = true) : s.seq.step < s.eventList.length := by
  unfold State.driversFit at h
  unfold State.eventList
  split at h
  case h_38 => cases h
  all_goals simp_all

/-- A transfer that is not reading now is one with a write frame (R82, R90). -/
theorem op_of_not_reading {s : State} (hlt : s.op.toNat < 4) (ho : s.op ≠ 0) (hr : s.reading = false) :
    s.op = 1 ∨ s.op = 3 := by
  have h2 : s.op ≠ 2 := by
    intro h
    simp [State.reading, h] at hr
  bv_omega

/-- The TX buffer of a write frame holds its bytes (D13). -/
theorem holds_of_buffersSuffice {s : State} (h : s.buffersSuffice = true) (ho : s.op = 1 ∨ s.op = 3) :
    s.tx.holds s.txLen.toNat = true := by
  rcases ho with ho | ho <;> simp_all [State.buffersSuffice]

/-- The RX buffer of a read frame has room for its bytes (D13). -/
theorem room_of_buffersSuffice {s : State} (h : s.buffersSuffice = true) (hr : s.reading = true) :
    s.rxLen.toNat ≤ s.rx.size := by
  have ho : s.op = 2 ∨ s.op = 3 := by
    simp only [State.reading, Bool.or_eq_true, Bool.and_eq_true, beq_iff_eq] at hr
    exact hr.imp id And.left
  rcases ho with ho | ho <;> simp_all [State.buffersSuffice]

/-- A payload byte is sent in a write frame only (R161). -/
theorem reading_of_sending_data {s : State} (h : s.sending = true) (hp : s.seq.phase ≠ .addr) :
    s.reading = false := by
  simp only [State.sending, Bool.or_eq_true, Bool.and_eq_true, beq_iff_eq, hp, false_or,
    Bool.not_eq_true'] at h
  obtain ⟨⟨-, hr⟩, -⟩ := h
  exact hr

/-- The loop test of WRITE finds its byte (R52). -/
theorem exists_nextTxByte {s : State} (h : s.tx.holds s.txLen.toNat = true) :
    ∃ t, s.nextTxByte = .next t := by
  by_cases hlt : s.idx < s.txLen
  · obtain ⟨b, hb⟩ := Buffer.holds_read h hlt
    exact ⟨_, nextTxByte_fetch hlt hb⟩
  · exact ⟨_, nextTxByte_stop hlt⟩

/-- The acknowledge clock of a byte sent leads on, whatever was answered (R171, R199). -/
theorem exists_afterTxAck {s : State} (hlt : s.op.toNat < 4) (ho : s.op ≠ 0) (hsend : s.sending = true)
    (hbufs : s.buffersSuffice = true) : ∃ t, s.afterTxAck = .next t := by
  have hheld (hr : s.reading = false) : s.tx.holds s.txLen.toNat = true :=
    holds_of_buffersSuffice hbufs (op_of_not_reading hlt ho hr)
  cases ha : s.ackbit with
  | true => exact ⟨_, afterTxAck_nack ha⟩
  | false =>
    by_cases hp : s.seq.phase = .addr
    · cases hr : s.reading with
      | true => exact ⟨_, afterTxAck_read ha hp hr⟩
      | false =>
        rw [afterTxAck_write ha hp hr]
        exact exists_nextTxByte (s := s.firstIdx) (hheld hr)
    · rw [afterTxAck_data ha hp]
      exact exists_nextTxByte (s := s.nextIdx) (hheld (reading_of_sending_data hsend hp))

/-- A received byte finds its room (R53). -/
theorem exists_afterRxAck {s : State} (hrecv : s.receiving = true) (hbufs : s.buffersSuffice = true) :
    ∃ t, s.afterRxAck = .next t := by
  simp only [State.receiving, Bool.and_eq_true, decide_eq_true_eq] at hrecv
  obtain ⟨⟨-, hr⟩, hidx⟩ := hrecv
  exact ⟨_, afterRxAck_next.mpr ⟨Nat.lt_of_lt_of_le hidx (room_of_buffersSuffice hbufs hr), rfl⟩⟩

/-- Where an event list ends SEQ moves on: a fetch and a store are the only moves that could fault. -/
theorem exists_advance_of_listEnd {s : State} (hend : s.seq.step + 1 = s.eventList.length)
    (hlt : s.op.toNat < 4) (hphase : s.phaseFits = true) (hbufs : s.buffersSuffice = true) :
    ∃ t, s.advance = .next t := by
  unfold State.phaseFits at hphase
  cases hu : s.seq.sub <;> simp only [hu, Bool.and_eq_true, beq_iff_eq, bne_iff_ne] at hphase
  case idle => cases hphase
  case init => exact ⟨_, advance_of_init hend hu⟩
  case start => exact ⟨_, advance_of_start hend hu⟩
  case stop => exact ⟨_, advance_of_stop hend hu⟩
  case settle => exact ⟨_, advance_of_settle hend hu⟩
  case txbit => exact ⟨_, advance_of_txbit hend hu⟩
  case txack =>
    obtain ⟨⟨hsend, -⟩, ho⟩ := hphase
    rw [advance_of_txack hend hu]
    exact exists_afterTxAck hlt ho hsend hbufs
  case rxPrologue => exact ⟨_, advance_of_rxPrologue hend hu⟩
  case rxbit => exact ⟨_, advance_of_rxbit hend hu⟩
  case rxack =>
    obtain ⟨hrecv, -⟩ := hphase
    rw [advance_of_rxack hend hu]
    exact exists_afterRxAck hrecv hbufs

/-- At a legal position SEQ moves on, inside an event list and at its end. -/
theorem exists_advance {s : State} (hstep : s.seq.step < s.eventList.length) (hlt : s.op.toNat < 4)
    (hphase : s.phaseFits = true) (hbufs : s.buffersSuffice = true) : ∃ t, s.advance = .next t := by
  rcases Nat.lt_or_eq_of_le (Nat.succ_le_of_lt hstep) with hin | hend
  · exact ⟨_, advance_inside hin⟩
  · exact exists_advance_of_listEnd hend hlt hphase hbufs

/-- At a legal position a running command takes a step: its primitive never stops (`exec_pin`), and SEQ
moves on from what that leaves. -/
theorem exists_tick {s : State} (h : s.runningFits = true) : ∃ t, tick s = .next t := by
  obtain ⟨hlt, hfit, hphase, hbufs, -⟩ := (runningFits_iff s).mp h
  have hstep := step_lt_of_driversFit hfit
  have hp : s.nextPrimitive = some s.eventList[s.seq.step] := List.getElem?_eq_getElem hstep
  obtain ⟨u, hu, hframe⟩ := exec_pin (nextPrimitive_mem hp) { s with done := false }
  have hmove : ∃ t, u.advance = .next t := by
    rw [hframe]
    exact exists_advance hstep hlt hphase hbufs
  obtain ⟨t, ha⟩ := hmove
  exact ⟨t, tick_next.mpr ⟨_, u, hp, hu, ha⟩⟩

/-- Settles O45: a reset always acts, and without one the step is a tick (`exists_tick`). -/
theorem runningCommandsNeverStop : Obligations.RunningCommandsNeverStop := by
  intro s hs hb
  cases hr : s.resetPending with
  | true =>
    obtain ⟨rest, hm⟩ := inbox_of_resetPending hr
    exact ⟨_, step_reset hm⟩
  | false =>
    rw [step_busy hb hr]
    exact exists_tick (hs.running hb)

end Sys2Proof.Machine
end

section
/-! PROOFS. The family 70_reset_and_hazards: least durations (R231, R150, R134). -/

namespace Sys2Proof.Machine

/-! ### Durations of the bus sequences -/

theorem eventTime_sdaEvent (b : Bit) : eventTime (sdaEvent b) = 0 := by cases b <;> rfl

/-- Pieces that each last `c` last `c` times their number. -/
theorem traceTime_flatMap {α : Type} {piece : α → List Event} {c : Nat} (h : ∀ x, traceTime (piece x) = c)
    (xs : List α) : traceTime (xs.flatMap piece) = xs.length * c := by
  induction xs with
  | nil => rw [List.flatMap_nil, traceTime_nil, List.length_nil, Nat.zero_mul]
  | cons x xs ih =>
    rw [List.flatMap_cons, traceTime_append, h, ih, List.length_cons, Nat.succ_mul, Nat.add_comm]

theorem traceTime_txBitEvents (b : Bit) : traceTime (txBitEvents b) = 2 * Config.tQ := by
  simp only [txBitEvents, traceTime_cons, traceTime_nil, eventTime_sdaEvent]
  simp only [eventTime]
  omega

theorem traceTime_txAckEvents (a : Bit) : traceTime (txAckEvents a) = 3 * Config.tQ + Config.tPad := by
  simp only [txAckEvents, traceTime_cons, traceTime_nil, eventTime]
  omega

theorem traceTime_rxBitEvents (b : Bit) : traceTime (rxBitEvents b) = 4 * Config.tQ + Config.tPad := by
  simp only [rxBitEvents, traceTime_cons, traceTime_nil, eventTime]
  omega

theorem traceTime_rxAckEvents (sendAck : Bit) : traceTime (rxAckEvents sendAck) = 3 * Config.tQ := by
  simp only [rxAckEvents, traceTime_cons, traceTime_nil, eventTime_sdaEvent]
  simp only [eventTime]
  omega

/-- TXBYTE: eight data bits and the acknowledge clock (R142, R150). -/
theorem traceTime_txByteEvents (b : Byte) (a : Bit) :
    traceTime (txByteEvents b a) = 19 * Config.tQ + Config.tPad := by
  have hbits : (bitsOf b).length = 8 := rfl
  rw [txByteEvents, traceTime_append, traceTime_flatMap traceTime_txBitEvents, hbits, traceTime_txAckEvents]
  omega

/-- RXBYTE: the prologue, eight data bits and slot 9 (R146, R150). -/
theorem traceTime_rxByteEvents (b : Byte) (sendAck : Bit) :
    traceTime (rxByteEvents b sendAck) = 35 * Config.tQ + 8 * Config.tPad := by
  have hbits : (bitsOf b).length = 8 := rfl
  rw [rxByteEvents, traceTime_append, traceTime_cons, traceTime_flatMap traceTime_rxBitEvents, hbits,
    traceTime_rxAckEvents, eventTime]
  omega

theorem traceTime_startEvents : traceTime startEvents = Config.tQ := by
  simp only [startEvents, traceTime_cons, traceTime_nil, eventTime]
  omega

theorem traceTime_stopEvents : traceTime stopEvents = 2 * Config.tQ := by
  simp only [stopEvents, traceTime_cons, traceTime_nil, eventTime]
  omega

/-! ### Durations of frames -/

/-- A write frame lasts its START, its STOP and its bytes sent (R161, R231). -/
theorem traceTime_writeFrameEvents (addr : Addr) (payload : List Byte) (acks : Nat → Bit) :
    traceTime (writeFrameEvents addr payload acks) =
      3 * Config.tQ + sentCount (payload.length + 1) acks * (19 * Config.tQ + Config.tPad) := by
  have hbyte (g : Byte × Bit) := traceTime_txByteEvents g.1 g.2
  rw [writeFrameEvents, traceTime_append, traceTime_append, sentEvents, traceTime_flatMap hbyte,
    length_writeGroups, traceTime_startEvents, traceTime_stopEvents]
  omega

/-- A read frame lasts its START, its STOP, its address byte and its bytes received (R162, R231). -/
theorem traceTime_readFrameEvents (addr : Addr) (n : Nat) (f : Nat → Bit) :
    traceTime (readFrameEvents addr n f) =
      22 * Config.tQ + Config.tPad + (if f 0 then 0 else n) * (35 * Config.tQ + 8 * Config.tPad) := by
  have hbyte (g : Byte × Bit) := traceTime_rxByteEvents g.1 !g.2
  rw [readFrameEvents, traceTime_append, traceTime_append, traceTime_append, traceTime_txByteEvents,
    receivedEvents, traceTime_flatMap hbyte, length_readDataGroups, traceTime_startEvents, traceTime_stopEvents]
  omega

/-- INIT waits for its recovery interval alone (R160, R118, R134). -/
theorem traceTime_initEvents : traceTime initEvents = Config.tRecovery := by
  simp only [initEvents, traceTime_cons, traceTime_nil, eventTime]
  omega

/-- Settles O28: a frame's duration goes by the number of its bytes (`traceTime_writeFrameEvents`,
`traceTime_readFrameEvents`), which is all of them or the refused address byte alone. -/
theorem frameDurationsAreBounded : Obligations.FrameDurationsAreBounded := by
  intro addr b a payload n f
  refine ⟨traceTime_txByteEvents b a, traceTime_rxByteEvents b a, fun h => ?write, fun h => ?read,
    fun h => ⟨?writeRefused, ?readRefused⟩, ?init⟩
  case write =>
    rw [traceTime_writeFrameEvents, sentCount_of_allAcked h]
    ring
  case read =>
    rw [traceTime_readFrameEvents, h, if_neg Bool.false_ne_true]
    ring
  case writeRefused =>
    rw [traceTime_writeFrameEvents, sentCount_of_nack _ h]
    ring
  case readRefused => rw [traceTime_readFrameEvents, if_pos h, Nat.zero_mul, Nat.add_zero]
  case init =>
    rw [traceTime_initEvents]
    exact Nat.le_add_right 1000000 _

end Sys2Proof.Machine
end

section
/-! PROOFS. The family 70_reset_and_hazards: no step makes a pad drive its line high (R229, R24). -/

namespace Sys2Proof.Machine

/-! ### Steps without a glitch -/

/-- A pad that is released after the step does not drive. -/
theorem glitches_of_busIdle (s : State) {t : State} (ht : t.busIdle) : glitches s t = false := by
  have hsda : t.sdaDrv = .released := congrArg Drivers.sda ht
  have hscl : t.sclDrv = .released := congrArg Drivers.scl ht
  simp [glitches, hsda, hscl]

/-- A latch that holds 0 drives its line low (R24). -/
theorem glitches_of_latches {s : State} (t : State) (h : s.sdaLatch = false ∧ s.sclLatch = false) :
    glitches s t = false := by
  simp [glitches, h]

/-! ### A move of the host leaves the bus idle -/

/-- A called command ends with the bus idle (R164, R21). -/
theorem busIdle_of_exec_cmd {i : Instr} (hc : (encode i).format = .cmd) {s t : State}
    (ht : exec i s = .next t) : t.busIdle := by
  cases i with
  | init v => exact (commandsReturnWithTheBusIdle s t 0 0 0 v (.inl ht)).1
  | write addr m => exact (commandsReturnWithTheBusIdle s t addr m 0 0 (.inr (.inl ht))).1
  | read addr n => exact (commandsReturnWithTheBusIdle s t addr 0 n 0 (.inr (.inr (.inl ht)))).1
  | writeRead addr m n => exact (commandsReturnWithTheBusIdle s t addr m n 0 (.inr (.inr (.inr ht)))).1
  | _ => cases hc

theorem busIdle_of_runCall {w : PortWord} (hw : w.format = .cmd) {s t : State} (hd : s.busIdle)
    (ht : runCall w s = .next t) : t.busIdle := by
  unfold runCall at ht
  split at ht
  · next i hi => exact busIdle_of_exec_cmd (format_of_decode_cmd hw hi) ht
  · cases ht
    exact hd
  · cases ht

/-- Acceptance drives no line (R164). -/
theorem busIdle_of_runStrobe {bits : Nat} {s t : State} (hd : s.busIdle) (ht : runStrobe bits s = .next t) :
    t.busIdle := by
  unfold runStrobe at ht
  split at ht
  · next i hi =>
    obtain ⟨op, first, addr, txLen, rxLen, speed, rfl, -⟩ :=
      accepted_of_acceptInstr (format_of_decode_cmd rfl hi) ht
    exact hd
  · cases ht

/-- The host has commands and its own moves only, and none leaves a line driven (R21, R203). -/
theorem busIdle_of_idleStep {s t : State} (hd : s.busIdle) (hhost : s.inbox.all hostMove = true)
    (ht : idleStep s = .next t) : t.busIdle := by
  unfold idleStep at ht
  cases hm : s.inbox with
  | nil =>
    simp only [hm] at ht
    cases ht
    exact hd
  | cons move rest =>
    rw [hm, List.all_cons, Bool.and_eq_true] at hhost
    obtain ⟨hmove, -⟩ := hhost
    cases move <;> simp only [hm] at ht
    case call w => exact busIdle_of_runCall (s := { s with inbox := rest }) (beq_iff_eq.mp hmove) hd ht
    case strobe bits => exact busIdle_of_runStrobe (s := { s with inbox := rest }) hd ht
    case loadTx | giveRx | wait =>
      cases ht
      exact hd
    case assertReset =>
      cases ht
      rfl

/-! ### INIT never drives a line -/

/-- INIT's primitives release lines and wait (R160). -/
theorem driven_idle_of_init {s : State} (hu : s.seq.sub = .init) {i : Instr}
    (hp : s.nextPrimitive = some i) : Drivers.idle.driven i = Drivers.idle := by
  have hmem : i ∈ s.eventList := List.mem_of_getElem? hp
  simp only [State.eventList, hu, List.mem_cons, List.not_mem_nil, or_false] at hmem
  rcases hmem with rfl | rfl | rfl | rfl <;> rfl

/-- The only command of code 0 is INIT (R82). -/
theorem sub_of_op_zero {s : State} (hphase : s.phaseFits = true) (ho : s.op = 0) : s.seq.sub = .init := by
  unfold State.phaseFits at hphase
  cases hu : s.seq.sub <;> simp_all [State.receiving, State.reading]

theorem busIdle_of_tick_init {s t : State} (hfit : s.runningFits = true) (ho : s.op = 0)
    (ht : tick s = .next t) : t.busIdle := by
  obtain ⟨-, hdrivers, hphase, -⟩ := (runningFits_iff s).mp hfit
  have hu := sub_of_op_zero hphase ho
  have hidle : s.drivers = Drivers.idle := by
    simp only [State.driversFit, hu, Bool.and_eq_true, beq_iff_eq] at hdrivers
    exact hdrivers.2
  have hd := drivers_of_tick ht
  obtain ⟨i, hp, hdriven⟩ := Option.map_eq_some_iff.mp hd.symm
  rw [State.busIdle, ← hdriven, hidle, driven_idle_of_init hu hp]

/-- Settles O44: a step that leaves the bus idle makes no pad drive (a reset, a move of the host, INIT); any
other step is one of a transfer, which runs after INIT only, when both latches hold 0. -/
theorem noPadGlitches : Obligations.NoPadGlitches := by
  intro s t hs ht
  cases hr : s.resetPending with
  | true =>
    obtain ⟨rest, hm⟩ := inbox_of_resetPending hr
    cases ht.symm.trans (step_reset hm)
    exact glitches_of_busIdle s rfl
  | false =>
    cases hb : s.busy with
    | false =>
      rw [step_idle hb hr] at ht
      obtain ⟨hidle, -⟩ := hs.idle hb
      exact glitches_of_busIdle s (busIdle_of_idleStep (s := { s with done := false }) hidle hs.host ht)
    | true =>
      rw [step_busy hb hr] at ht
      by_cases ho : s.op = 0
      · have hinit := busIdle_of_tick_init (s := { s with inbox := letPass s.inbox }) (hs.running hb) ho ht
        exact glitches_of_busIdle s hinit
      · exact glitches_of_latches t (hs.latches (.inl (hs.initFirst hb ho)))

end Sys2Proof.Machine
end

section
/-! PROOFS. The family 70_reset_and_hazards: `rst_n` releases both lines at once, also at every point of a
running command (R220, R221). -/

namespace Sys2Proof.Machine

/-- Settles O38: a pending `rst_n` is served at once (`step_reset`), and `State.applyReset` is R38's state. -/
theorem resetReleasesBothLinesAtOnce : Obligations.ResetReleasesBothLinesAtOnce := fun _ _ hm =>
  ⟨_, step_reset hm, rfl, rfl, rfl, rfl, rfl, rfl, rfl, rfl, rfl⟩

/-! ### A run, cut at an event -/

/-- A step of a running command appends to the trace (R11). -/
theorem trace_prefix_of_tick {s t : State} (ht : tick s = .next t) : s.trace <+: t.trace := by
  obtain ⟨i, u, -, -, hframe, hlt, ha⟩ := tick_split ht
  rw [(moveKeeps_of_advance hlt ha).trace, hframe]
  exact List.prefix_append s.trace _

theorem trace_prefix_of_runs {s t : State} (h : Runs s t) : s.trace <+: t.trace := by
  induction h with
  | refl => exact List.prefix_rfl
  | tail _ hstep ih => exact ih.trans (trace_prefix_of_tick hstep.2)

/-- Short of its end, a run passes through a running state after any number `k` of its events (R9). -/
theorem exists_running_after_events {s t : State} (h : Runs s t) (k : Nat)
    (hk : s.trace.length + k < t.trace.length) :
    ∃ u, Runs s u ∧ Runs u t ∧ u.busy = true ∧ u.trace.length = s.trace.length + k := by
  induction h using Relation.ReflTransGen.head_induction_on generalizing k with
  | refl => omega
  | @head s v hstep hrun ih =>
    cases k with
    | zero => exact ⟨s, .refl, .head hstep hrun, hstep.1, rfl⟩
    | succ k =>
      have hlen := length_trace_tick hstep.2
      obtain ⟨u, hvu, hut, hbusy, hu⟩ := ih k (by omega)
      exact ⟨u, .head hstep hvu, hut, hbusy, by omega⟩

/-- Settles O57: the command is accepted and runs (`runs_of_exec`); its run is cut after `k` events
(`exists_running_after_events`), the host waits that long (`stepN_of_runs`), and then its `rst_n` is served
at once (`step_reset`). -/
theorem resetReachesEveryPointOfACommand : Obligations.ResetReachesEveryPointOfACommand := by
  intro s t i rest k hc hw hb hcall hk
  rw [step_call hb, runCall_ok (decode_encode_cmd hc hw)] at hcall
  obtain ⟨a, ha, hrun⟩ := runs_of_exec hc hcall
  have haccepted : a.trace.length = s.trace.length := by
    obtain ⟨op, first, addr, txLen, rxLen, speed, rfl, -⟩ := accepted_of_acceptInstr hc ha
    rfl
  rw [← haccepted] at hk
  obtain ⟨u, hau, hut, hbusy, hlen⟩ := exists_running_after_events hrun k hk
  refine ⟨u.withInbox (.assertReset :: rest), ?run, hbusy, ?trace, step_reset rfl⟩
  case run =>
    have hwaits := stepN_of_runs hau k (.assertReset :: rest) hlen.ge (.inl hlen.symm)
    rw [hlen, Nat.add_sub_cancel_left] at hwaits
    have hstrobe := (step_strobe_encode hc hw hb _).trans
      (acceptInstr_withInbox hc ha (List.replicate k .wait ++ .assertReset :: rest))
    rw [stepN, hstrobe]
    exact hwaits
  case trace =>
    have hprefix := trace_prefix_of_runs hut
    rw [← haccepted, ← hlen]
    exact List.prefix_iff_eq_take.mp hprefix

end Sys2Proof.Machine
end
